-- ==== Sys2Proof/Word.lean ====
section
/-! DEFINITION. The words of the base45 core: bytes, digits, the four beat words and the ports that carry them (log 11 on
the choice of types). -/

namespace Sys2Proof

/-- A byte, or the 8-bit code of a character (00_scope.md R6, `BYTE_W` and `CHAR_W`). -/
abbrev Byte := BitVec 8

/-- A symbol value 0..44 (00_scope.md section 7). A table entry that is no digit is `none`, never a number (R83). -/
abbrev Digit := Fin 45

/-- `EIW`, the word of port `enc_in` (30_encoding.md R70). -/
abbrev Eiw := BitVec 18

/-- `EOW`, the word of port `enc_out` (R70). -/
abbrev Eow := BitVec 9

/-- `DIW`, the word of port `dec_in` (R70). -/
abbrev Diw := BitVec 9

/-- `DOW`, the word of port `dec_out` (R70). -/
abbrev Dow := BitVec 20

/-- The four stream ports (20_memory.md R40, R46). -/
inductive Port where
  | encIn
  | encOut
  | decIn
  | decOut
  deriving DecidableEq, Repr

/-- The width of a port's beat word (R70). -/
def Port.width : Port → Nat
  | .encIn => 18
  | .encOut => 9
  | .decIn => 9
  | .decOut => 20

/-- The kinds of decoding error (60_exceptions.md R170). `InvalidArgumentType` is not in the hardware (R178). -/
inductive ErrorKind where
  | invalidLength
  | invalidCharacter
  | invalidValue
  deriving DecidableEq, Repr

/-- The result of one call of `decode` (41_decoder.md R130), and of one `dec_out` message (20_memory.md R54). -/
inductive Result where
  | ok (bytes : List Byte)
  | err (kind : ErrorKind)
  deriving DecidableEq, Repr

end Sys2Proof
end

