-- ==== Sys2Proof/Syntax.lean ====
section
/-! DEFINITION. The instructions of the base45 core: the eleven beat kinds of 30_encoding.md R72, one constructor
per row of spec/opcode_table.json, in its order. Ignored bits are operands, so that no bit of a word is dropped
(93_implementation_defined.md V3). -/

namespace Sys2Proof

/-- A beat kind with its operands. -/
inductive Instr where
  /-- ENC.END, `00 xxxxxxxx xxxxxxxx`: the 16 bits are ignored (R109). -/
  | encEnd (ignored : BitVec 16)
  /-- ENC.SINGLE, `01 xxxxxxxx bbbbbbbb`: the high byte is ignored (R108). -/
  | encSingle (ignored lo : Byte)
  /-- ENC.PAIR, `10 hhhhhhhh llllllll` (R107). -/
  | encPair (hi lo : Byte)
  /-- ENC.RSVD3, `11 xxxxxxxx xxxxxxxx`: reserved (R110). -/
  | encRsvd3 (ignored : BitVec 16)
  /-- ENCO.CHAR, `0 cccccccc` (R111). -/
  | encoChar (char : Byte)
  /-- ENCO.END, `1 00000000` (R112). -/
  | encoEnd
  /-- DEC.CHAR, `0 cccccccc` (R137). -/
  | decChar (char : Byte)
  /-- DEC.END, `1 xxxxxxxx`: the 8 bits are ignored (R142). -/
  | decEnd (ignored : Byte)
  /-- DECO.END, `ss 00 00000000 00000000` (R145). -/
  | decoEnd (status : BitVec 2)
  /-- DECO.BYTE, `00 01 00000000 bbbbbbbb` (R144). -/
  | decoByte (lo : Byte)
  /-- DECO.WORD, `00 10 hhhhhhhh llllllll` (R143). -/
  | decoWord (hi lo : Byte)
  deriving DecidableEq, Repr

/-- The port a beat kind belongs to (R72). -/
def Instr.port : Instr → Port
  | .encEnd _ => .encIn
  | .encSingle _ _ => .encIn
  | .encPair _ _ => .encIn
  | .encRsvd3 _ => .encIn
  | .encoChar _ => .encOut
  | .encoEnd => .encOut
  | .decChar _ => .decIn
  | .decEnd _ => .decIn
  | .decoEnd _ => .decOut
  | .decoByte _ => .decOut
  | .decoWord _ _ => .decOut

end Sys2Proof
end

