-- ==== Sys2Proof/Decode.lean ====
section
/-! DEFINITION. From beat words to beat kinds (30_encoding.md R70 to R78), rejecting by name what is no beat kind,
and the encoder that writes the word of a beat kind. -/

namespace Sys2Proof

/-- Why a word is no beat kind of its port. -/
inductive Reject where
  /-- A bit above the port's word width is 1 (R70: every beat word has exactly one length). -/
  | tooWide
  /-- `enc_out`, `end` is 1 and `char` is not 0x00 (R72: ENCO.END has mask 0x1FF). -/
  | encoEndChar
  /-- `dec_out`, `op` is 3 (R76: never produced). -/
  | decoOp3
  /-- `dec_out`, `op` is 1 or 2 and `status` is not 0 (R76). -/
  | decoDataStatus
  /-- `dec_out`, `op` is 1 and `hi` is not 0x00 (R72: DECO.BYTE has mask 0xFFF00). -/
  | decoByteHigh
  /-- `dec_out`, `op` is 0 and the data is not 0x0000 (R72: DECO.END has mask 0x3FFFF). -/
  | decoEndData
  deriving DecidableEq, Repr

/-- What decoding a word answers. -/
inductive Decoded where
  | instr (i : Instr)
  | rejected (r : Reject)
  deriving DecidableEq, Repr

/-- The decoded instruction, if there is one. -/
def Decoded.toOption : Decoded → Option Instr
  | .instr i => some i
  | .rejected _ => none

/-- `EIW[17:16]`, and `DOW[17:16]` of the low 18 bits of a `DOW` (R70). -/
def eiwOp (w : Eiw) : BitVec 2 := w.extractLsb' 16 2

/-- `EIW[15:0]`, the data of the beat (R70). -/
def eiwData (w : Eiw) : BitVec 16 := w.extractLsb' 0 16

/-- `EIW[15:8]` (R70). -/
def eiwHi (w : Eiw) : Byte := w.extractLsb' 8 8

/-- `EIW[7:0]` (R70). -/
def eiwLo (w : Eiw) : Byte := w.extractLsb' 0 8

/-- `EOW[8]` and `DIW[8]` (R70: the two words have the same layout). -/
def charWordEnd (w : BitVec 9) : Bool := w.getLsbD 8

/-- `EOW[7:0]` and `DIW[7:0]` (R70). -/
def charWordChar (w : BitVec 9) : Byte := w.extractLsb' 0 8

/-- `DOW[19:18]` (R70). -/
def dowStatus (w : Dow) : BitVec 2 := w.extractLsb' 18 2

/-- `DOW[17:16]` (R70). -/
def dowOp (w : Dow) : BitVec 2 := w.extractLsb' 16 2

/-- `DOW[15:8]` (R70). -/
def dowHi (w : Dow) : Byte := w.extractLsb' 8 8

/-- `DOW[7:0]` (R70). -/
def dowLo (w : Dow) : Byte := w.extractLsb' 0 8

/-- Decoding `enc_in` (R73): `op` alone decides, and every word is a beat kind. -/
def decodeEiw (w : Eiw) : Instr :=
  if eiwOp w = 0#2 then .encEnd (eiwData w)
  else if eiwOp w = 1#2 then .encSingle (eiwHi w) (eiwLo w)
  else if eiwOp w = 2#2 then .encPair (eiwHi w) (eiwLo w)
  else .encRsvd3 (eiwData w)

/-- Decoding `dec_in` (R74): `end` alone decides, and every word is a beat kind. -/
def decodeDiw (w : Diw) : Instr :=
  if charWordEnd w then .decEnd (charWordChar w) else .decChar (charWordChar w)

/-- Decoding `enc_out` (R72). -/
def decodeEow (w : Eow) : Decoded :=
  if charWordEnd w then
    if charWordChar w = 0#8 then .instr .encoEnd else .rejected .encoEndChar
  else .instr (.encoChar (charWordChar w))

/-- Decoding `dec_out` (R72, R76). -/
def decodeDow (w : Dow) : Decoded :=
  if dowOp w = 0#2 then
    if dowHi w = 0#8 ∧ dowLo w = 0#8 then .instr (.decoEnd (dowStatus w)) else .rejected .decoEndData
  else if dowOp w = 3#2 then .rejected .decoOp3
  else if dowStatus w ≠ 0#2 then .rejected .decoDataStatus
  else if dowOp w = 1#2 then
    if dowHi w = 0#8 then .instr (.decoByte (dowLo w)) else .rejected .decoByteHigh
  else .instr (.decoWord (dowHi w) (dowLo w))

/-- Decoding the number `w` as a word of port `p`: total on every number. -/
def decode (p : Port) (w : Nat) : Decoded :=
  if 2 ^ p.width ≤ w then .rejected .tooWide
  else
    match p with
    | .encIn => .instr (decodeEiw (BitVec.ofNat 18 w))
    | .encOut => decodeEow (BitVec.ofNat 9 w)
    | .decIn => .instr (decodeDiw (BitVec.ofNat 9 w))
    | .decOut => decodeDow (BitVec.ofNat 20 w)

/-- The port whose words a table row of `nbits` bits has, for the word `w`. The opcode table tells the four words
apart by their port; a bare number does not. A width of up to 16 bits is a `DIW`, up to 18 an `EIW`, up to 23 a `DOW`;
24 bits (18 or 20 rounded up to whole bytes) are an `EIW` unless a bit above bit 17 is 1, which only a `DOW` has
(DESIGN CHOICE, log 6). -/
def portOfTableWord (nbits w : Nat) : Port :=
  if nbits ≤ 16 then .decIn
  else if nbits ≤ 18 then .encIn
  else if nbits < 24 then .decOut
  else if w < 2 ^ 18 then .encIn
  else .decOut

/-- The host's question: the instruction the decoder reads from the word `w` of `nbits` bits. -/
def decodeTableWord (nbits w : Nat) : Option Instr := (decode (portOfTableWord nbits w) w).toOption

/-- An `EIW` from its fields (R70). -/
def mkEiw (op : BitVec 2) (data : BitVec 16) : Eiw := op ++ data

/-- An `EOW` or `DIW` from its fields (R70). -/
def mkCharWord (isEnd : Bool) (char : Byte) : BitVec 9 := BitVec.ofBool isEnd ++ char

/-- A `DOW` from its fields (R70). -/
def mkDow (status op : BitVec 2) (data : BitVec 16) : Dow := status ++ op ++ data

/-- Two bytes side by side, the first in the high half (20_memory.md R44). -/
def joinBytes (hi lo : Byte) : BitVec 16 := hi ++ lo


/-- The word of a beat kind, as a number (R72). -/
def encode : Instr → Nat
  | .encEnd d => (mkEiw 0#2 d).toNat
  | .encSingle h l => (mkEiw 1#2 (joinBytes h l)).toNat
  | .encPair h l => (mkEiw 2#2 (joinBytes h l)).toNat
  | .encRsvd3 d => (mkEiw 3#2 d).toNat
  | .encoChar c => (mkCharWord false c).toNat
  | .encoEnd => (mkCharWord true 0#8).toNat
  | .decChar c => (mkCharWord false c).toNat
  | .decEnd c => (mkCharWord true c).toNat
  | .decoEnd st => (mkDow st 0#2 0#16).toNat
  | .decoByte b => (mkDow 0#2 1#2 (joinBytes 0#8 b)).toNat
  | .decoWord h l => (mkDow 0#2 2#2 (joinBytes h l)).toNat

end Sys2Proof
end

