-- ==== Sys2Proof/Machine/State.lean ====
section
/-! DEFINITION. The state of the core: the eleven registers of spec/10_state.md, and the model's own schedule of what
the environment drives. The tables are constants (Machine/Tables.lean). -/

namespace Sys2Proof.Machine

/-- The input signals of one clock cycle (20_memory.md R46), sampled at the rising edge that ends it. -/
structure CycleIn where
  /-- `rst` (70_reset_and_hazards.md R200). -/
  rst : Bool
  /-- `enc_in_valid`. -/
  encInValid : Bool
  /-- `enc_in_op`. -/
  encInOp : BitVec 2
  /-- `enc_in_data`. -/
  encInData : BitVec 16
  /-- `enc_out_ready`. -/
  encOutReady : Bool
  /-- `dec_in_valid`. -/
  decInValid : Bool
  /-- `dec_in_end`. -/
  decInEnd : Bool
  /-- `dec_in_char`. -/
  decInChar : Byte
  /-- `dec_out_ready`. -/
  decOutReady : Bool
  deriving DecidableEq, Repr

/-- Why the machine stops with a fault. It has no constructor: nothing in the core traps, hangs or is undefined once
reset has been applied (00_scope.md section 6 point 5; 40_encoder.md R116; 60_exceptions.md; log 18). -/
inductive Fault where
  deriving DecidableEq, Repr

/-- Why an instruction has no next state. -/
inductive Refusal where
  /-- Raised by an arm of `exec` whose instruction has no meaning yet. No arm of this model raises it. Safe. -/
  | notModelled (mnemonic : String)
  /-- Raised by the meaning of a produced beat kind (ENCO, DECO) in a state in which the unit does not present exactly
  that beat: no transfer of it can occur (20_memory.md R47), so there is no such event to give a next state to. `step`
  never raises it, since it takes the produced beat from the registers. Safe: the model stops (log 5). -/
  | beatNotPresented
  deriving DecidableEq, Repr

/-- The machine. -/
structure State where
  /-- `enc_q` (R11). -/
  encQ : BitVec 16
  /-- `enc_cnt` (R12). -/
  encCnt : BitVec 2
  /-- `enc_endp` (R13). -/
  encEndp : Bool
  /-- `dec_acc` (R15). -/
  decAcc : BitVec 17
  /-- `dec_pos` (R16). -/
  decPos : BitVec 2
  /-- `dec_err` (R17). -/
  decErr : BitVec 2
  /-- `dec_ov` (R18). -/
  decOv : Bool
  /-- `dec_oop` (R18). -/
  decOop : BitVec 2
  /-- `dec_od` (R18). -/
  decOd : BitVec 16
  /-- `dec_endp` (R19). -/
  decEndp : Bool
  /-- `dec_est` (R19). -/
  decEst : BitVec 2
  /-- The model's own: what the environment drives in the coming cycles, the next cycle first (log 1). -/
  inputs : List CycleIn
  deriving DecidableEq, Repr

/-- The state after reset (10_state.md R27): every register 0. The schedule is the environment's, and none is assumed
(DESIGN CHOICE [], log 1 and log 2). -/
def State.reset : State where
  encQ := 0#16
  encCnt := 0#2
  encEndp := false
  decAcc := 0#17
  decPos := 0#2
  decErr := 0#2
  decOv := false
  decOop := 0#2
  decOd := 0#16
  decEndp := false
  decEst := 0#2
  inputs := []

end Sys2Proof.Machine
end

