-- ==== Sys2Proof/Config.lean ====
section
/-! DEFINITION. The implementation parameters of 00_scope.md R6. Every one is fixed; there is no free value. -/

namespace Sys2Proof.Config

/-- `RADIX` (R6). -/
@[simp] def radix : Nat := 45

/-- `RADIX2` = 45 * 45 (R6). -/
@[simp] def radix2 : Nat := 2025

/-- `RADIX3` = 45 * 45 * 45, one more than the largest triplet value (R6, R131). -/
@[simp] def radix3 : Nat := 91125

/-- The largest value a triplet may stand for (41_decoder.md R131). -/
@[simp] def wordMax : Nat := 0xFFFF

/-- The largest value a trailing pair may stand for (41_decoder.md R132). -/
@[simp] def byteMax : Nat := 0xFF

end Sys2Proof.Config
end

