-- ==== Sys2Proof/Machine/Tables.lean ====
section
/-! DEFINITION. The two read-only tables, `ALPHABET` and `INV`: constants fixed when the hardware is built
(10_state.md R24, R25; 70_reset_and_hazards.md R204). No operation writes them (20_memory.md R43). -/

namespace Sys2Proof.Machine

/-- The ten digits `0` to `9`, values 0 to 9 (30_encoding.md R81). -/
def alphabetDigits : List Byte :=
  [0x30, 0x31, 0x32, 0x33, 0x34, 0x35, 0x36, 0x37, 0x38, 0x39]

/-- The letters `A` to `Z`, values 10 to 35 (R81). -/
def alphabetLetters : List Byte :=
  [0x41, 0x42, 0x43, 0x44, 0x45, 0x46, 0x47, 0x48, 0x49, 0x4A, 0x4B, 0x4C, 0x4D] ++
  [0x4E, 0x4F, 0x50, 0x51, 0x52, 0x53, 0x54, 0x55, 0x56, 0x57, 0x58, 0x59, 0x5A]

/-- Space `$` `%` `*` `+` `-` `.` `/` `:`, values 36 to 44 (R81). -/
def alphabetSigns : List Byte :=
  [0x20, 0x24, 0x25, 0x2A, 0x2B, 0x2D, 0x2E, 0x2F, 0x3A]

/-- `ALPHABET`, 45 locations of 8 bits (R80, R81). The numeric codes are the spec's general knowledge G1 (PRESUMED,
log 9). -/
def alphabet : List Byte := alphabetDigits ++ alphabetLetters ++ alphabetSigns

/-- `ALPHABET` has 45 locations (R41). -/
theorem alphabet_length : alphabet.length = 45 := rfl

/-- `MemRead(ALPHABET, i)` (00_scope.md R8): one whole entry; locations 45 and above do not exist and a `Digit`
cannot name one (20_memory.md R41). -/
def alphabetAt (i : Digit) : Byte := alphabet[i.val]'(Nat.lt_of_lt_of_eq i.isLt alphabet_length.symm)

/-- Row 0x2_ of `INV` (30_encoding.md R82). -/
def invRow2 : List (Option Digit) :=
  [some 36, none, none, none, some 37, some 38, none, none] ++
  [none, none, some 39, some 40, none, some 41, some 42, some 43]

/-- Row 0x3_ of `INV` (R82). -/
def invRow3 : List (Option Digit) :=
  [some 0, some 1, some 2, some 3, some 4, some 5, some 6, some 7] ++
  [some 8, some 9, some 44, none, none, none, none, none]

/-- Row 0x4_ of `INV` (R82). -/
def invRow4 : List (Option Digit) :=
  [none, some 10, some 11, some 12, some 13, some 14, some 15, some 16] ++
  [some 17, some 18, some 19, some 20, some 21, some 22, some 23, some 24]

/-- Row 0x5_ of `INV` (R82). -/
def invRow5 : List (Option Digit) :=
  [some 25, some 26, some 27, some 28, some 29, some 30, some 31, some 32] ++
  [some 33, some 34, some 35, none, none, none, none, none]

/-- `INV`, 256 locations; rows 0x0_, 0x1_ and 0x6_ to 0xF_ hold the marker throughout (R82). The marker is `none`
(R83). -/
def invRom : List (Option Digit) :=
  List.replicate 32 none ++ invRow2 ++ invRow3 ++ invRow4 ++ invRow5 ++ List.replicate 160 none

/-- `INV` has 256 locations (R42). -/
theorem invRom_length : invRom.length = 256 := by
  simp only [invRom, List.length_append, List.length_replicate]
  rfl

/-- `MemRead(INV, c)` (R8): every 8-bit code is a legal index (20_memory.md R42). -/
def invAt (c : Byte) : Option Digit := invRom[c.toNat]'(Nat.lt_of_lt_of_eq c.isLt invRom_length.symm)

/-- The 6-bit content of an `INV` location: `INVALID` is stored as 63 (R83). No operation computes with it. -/
def invRaw (c : Byte) : BitVec 6 :=
  match invAt c with
  | some g => BitVec.ofNat 6 g.val
  | none => 63

end Sys2Proof.Machine
end

