-- ==== Sys2Proof/Machine/Operands.lean ====
section
/-! DEFINITION. Operand assembly (30_encoding.md R77, R78) and the arithmetic of both datapaths (40_encoder.md R106,
41_decoder.md R136). Sums are formed exactly, as numbers, and narrowed once at the end. -/

namespace Sys2Proof.Machine

/-- The value of a pair: `d = hi * 256 + lo`, the first byte the more significant (R77, 20_memory.md R44). -/
def pairValue (hi lo : Byte) : BitVec 16 := joinBytes hi lo

/-- The value of a lone byte: `d = zext_16(lo)` (R77). -/
def singleValue (lo : Byte) : BitVec 16 := lo.setWidth 16

/-- The digit the encoder emits: `enc_q mod 45` (40_encoder.md R111). -/
def quotientDigit (q : BitVec 16) : Digit :=
  ⟨q.toNat % Config.radix, Nat.mod_lt _ (by decide)⟩

/-- The radix step's quotient: `enc_q div 45` (R111, R117). -/
def nextQuotient (q : BitVec 16) : BitVec 16 := BitVec.ofNat 16 (q.toNat / Config.radix)

/-- `zext_17(g)` (41_decoder.md R138). -/
def accOfDigit (g : Digit) : BitVec 17 := BitVec.ofNat 17 g.val

/-- `dec_acc + 45 * g`, into 17 bits (R139). At most 2024 in every state a run reaches; a larger sum keeps its low 17
bits (log 8). -/
def accAddSecond (acc : BitVec 17) (g : Digit) : BitVec 17 :=
  BitVec.ofNat 17 (acc.toNat + Config.radix * g.val)

/-- `v = dec_acc + 2025 * g`, the triplet's value, exact (R140, R131). -/
def tripletValue (acc : BitVec 17) (g : Digit) : Nat := acc.toNat + Config.radix2 * g.val

/-- `v[15:0]` (R140). -/
def wordOfValue (v : Nat) : BitVec 16 := BitVec.ofNat 16 v

/-- `zext_16(dec_acc[7:0])` (41_decoder.md R142). -/
def byteOfAcc (acc : BitVec 17) : BitVec 16 := (acc.extractLsb' 0 8).setWidth 16

/-- `(dec_pos + 1) mod 3` (41_decoder.md R137). -/
def nextPos (pos : BitVec 2) : BitVec 2 := BitVec.ofNat 2 ((pos.toNat + 1) % 3)

/-- `v[15:8]`, the byte that comes first in the output buffer (30_encoding.md R78). -/
def highByte (d : BitVec 16) : Byte := d.extractLsb' 8 8

/-- `v[7:0]` (R78). -/
def lowByte (d : BitVec 16) : Byte := d.extractLsb' 0 8

end Sys2Proof.Machine
end

