-- ==== Sys2Proof/Machine/Flags.lean ====
section
/-! DEFINITION. Status codes (30_encoding.md R79), the decoder's two bounds checks and the choice of a message's
status (41_decoder.md R142, 60_exceptions.md R175). `dec_err` is the only flag of the core (10_state.md R17, R22). -/

namespace Sys2Proof.Machine

/-- Code 0, `OK` (R79). -/
def statusOk : BitVec 2 := 0#2

/-- The status code of an error kind (R79, R170). -/
def errCode : ErrorKind → BitVec 2
  | .invalidLength => 1#2
  | .invalidCharacter => 2#2
  | .invalidValue => 3#2

/-- The error kind a status code stands for; `none` for `OK` (R79). -/
def kindOfStatus (st : BitVec 2) : Option ErrorKind :=
  if st = 0#2 then none
  else if st = 1#2 then some .invalidLength
  else if st = 2#2 then some .invalidCharacter
  else some .invalidValue

/-- `dec_oop` of a BYTE beat (10_state.md R18). -/
def oopByte : BitVec 2 := 1#2

/-- `dec_oop` of a WORD beat (R18). -/
def oopWord : BitVec 2 := 2#2

/-- `v > 0xFFFF` (41_decoder.md R140), on the exact value. -/
def tripletOverflows (v : Nat) : Bool := decide (Config.wordMax < v)

/-- `dec_acc > 0xFF` (R142). -/
def pairOverflows (acc : BitVec 17) : Bool := decide (Config.byteMax < acc.toNat)

/-- A good trailing pair is waiting in the accumulator: the one case in which DEC.END stages a BYTE beat (R142). -/
def goodTrailingPair (s : State) : Bool :=
  decide (s.decErr = 0#2) && decide (s.decPos = 2#2) && !pairOverflows s.decAcc

/-- The status DEC.END chooses (R142, R175): the length first, then the recorded error, then the pair's bound. -/
def endStatus (s : State) : BitVec 2 :=
  if s.decPos = 1#2 then errCode .invalidLength
  else if s.decErr ≠ 0#2 then s.decErr
  else if s.decPos = 2#2 ∧ pairOverflows s.decAcc then errCode .invalidValue
  else statusOk

end Sys2Proof.Machine
end

