-- ==== Sys2Proof/Machine/Ports.lean ====
section
/-! DEFINITION. The output functions of both units (10_state.md R14, R20) and the beat each one presents. They read
registers only, never an input of the cycle (20_memory.md R48). -/

namespace Sys2Proof.Machine

/-- `enc_in_ready` (R14). -/
def encInReady (s : State) : Bool := decide (s.encCnt = 0#2) && !s.encEndp

/-- `enc_out_valid` (R14). -/
def encOutValid (s : State) : Bool := decide (s.encCnt ≠ 0#2) || s.encEndp

/-- `enc_out_end` (R14). -/
def encOutEnd (s : State) : Bool := decide (s.encCnt = 0#2) && s.encEndp

/-- `enc_out_char` (R14): the encoder's one table read, `ALPHABET[enc_q mod 45]` (42 R154). -/
def encOutChar (s : State) : Byte := if s.encCnt ≠ 0#2 then alphabetAt (quotientDigit s.encQ) else 0#8

/-- The word on `enc_out` (30_encoding.md R70). -/
def encOutWord (s : State) : Eow := mkCharWord (encOutEnd s) (encOutChar s)

/-- The beat the encoder presents (40_encoder.md R111, R112). -/
def encPresented (s : State) : Option Instr :=
  if s.encCnt ≠ 0#2 then some (.encoChar (encOutChar s))
  else if s.encEndp then some .encoEnd
  else none

/-- `dec_in_ready` (R20). -/
def decInReady (s : State) : Bool := !s.decOv && !s.decEndp

/-- `dec_out_valid` (R20). -/
def decOutValid (s : State) : Bool := s.decOv || s.decEndp

/-- `dec_out_op` (R20): the data beat first, then the END beat. -/
def decOutOp (s : State) : BitVec 2 := if s.decOv then s.decOop else 0#2

/-- `dec_out_data` (R20). -/
def decOutData (s : State) : BitVec 16 := if s.decOv then s.decOd else 0#16

/-- `dec_out_status` (R20). -/
def decOutStatus (s : State) : BitVec 2 :=
  if s.decOv then 0#2 else if s.decEndp then s.decEst else 0#2

/-- The word on `dec_out` (30_encoding.md R70). -/
def decOutWord (s : State) : Dow := mkDow (decOutStatus s) (decOutOp s) (decOutData s)

/-- The beat the decoder presents (41_decoder.md R143, R144, R145). In a state with `dec_ov` 1 whose `dec_oop` and
`dec_od` spell no beat kind, which no run reaches (10_state.md R28), there is none (log 8). -/
def decPresented (s : State) : Option Instr :=
  if s.decOv then
    if s.decOop = oopWord then some (.decoWord (highByte s.decOd) (lowByte s.decOd))
    else if s.decOop = oopByte ∧ highByte s.decOd = 0#8 then some (.decoByte (lowByte s.decOd))
    else none
  else if s.decEndp then some (.decoEnd s.decEst)
  else none

/-- The word offered on `enc_in` in a cycle (R70). -/
def encInWord (c : CycleIn) : Eiw := mkEiw c.encInOp c.encInData

/-- The word offered on `dec_in` in a cycle (R70). -/
def decInWord (c : CycleIn) : Diw := mkCharWord c.decInEnd c.decInChar

/-- The three phases of the encoder (42_sequencing_and_table_access.md R151). -/
inductive EncPhase where
  | idle
  | emit
  | endp
  deriving DecidableEq, Repr

/-- The phase the encoder is in (R151). -/
def encPhase (s : State) : EncPhase :=
  if s.encCnt ≠ 0#2 then .emit else if s.encEndp then .endp else .idle

/-- The three phases of the decoder (R152). -/
inductive DecPhase where
  | idle
  | data
  | endp
  deriving DecidableEq, Repr

/-- The phase the decoder is in (R152). -/
def decPhase (s : State) : DecPhase :=
  if s.decOv then .data else if s.decEndp then .endp else .idle

end Sys2Proof.Machine
end

