-- ==== Sys2Proof/Machine/Ops.lean ====
section
/-! DEFINITION. The named operations over the registers, from which every meaning is built. An operation writes all
its registers at once and its right-hand sides read the values before the edge (00_scope.md R8). -/

namespace Sys2Proof.Machine

/-- What a step of the core answers. -/
abbrev Answer := Host.Outcome State Fault Refusal

/-- Go on from a next state; a fault or a refusal stays what it is. -/
def andThen (r : Answer) (f : State → Answer) : Answer :=
  match r with
  | .next s => f s
  | .fault e => .fault e
  | .refused e => .refused e

/-- A new group: `enc_q <- d`, `enc_cnt <- n` (40_encoder.md R107, R108). -/
def loadGroup (d : BitVec 16) (n : BitVec 2) (s : State) : State := { s with encQ := d, encCnt := n }

/-- `enc_endp <- 1` (R109). -/
def openEncEnd (s : State) : State := { s with encEndp := true }

/-- The radix step: `enc_q <- enc_q div 45`, `enc_cnt <- enc_cnt - 1` (R111). -/
def radixStep (s : State) : State := { s with encQ := nextQuotient s.encQ, encCnt := s.encCnt - 1#2 }

/-- `enc_endp <- 0` (R112). -/
def takeEncEnd (s : State) : State := { s with encEndp := false }

/-- `dec_pos <- (dec_pos + 1) mod 3` (41_decoder.md R137). -/
def advancePos (s : State) : State := { s with decPos := nextPos s.decPos }

/-- `dec_acc <- a`. -/
def setAcc (a : BitVec 17) (s : State) : State := { s with decAcc := a }

/-- Taking an error at a DEC.CHAR beat (60_exceptions.md R176): its kind is recorded in `dec_err`, and nothing else of
it is kept (R174). There is no vector, no saved state and no mode change. -/
def recordError (k : ErrorKind) (s : State) : State := { s with decErr := errCode k }

/-- Staging a data beat: `dec_ov <- 1`, `dec_oop <- op`, `dec_od <- d` (41_decoder.md R140, R142). -/
def stageData (op : BitVec 2) (d : BitVec 16) (s : State) : State :=
  { s with decOv := true, decOop := op, decOd := d }

/-- `dec_ov <- 0` (R143, R144). -/
def takeData (s : State) : State := { s with decOv := false }

/-- Closing a message and reporting its status: `dec_est <- st`, `dec_endp <- 1`, and `dec_pos`, `dec_err`, `dec_acc`
cleared (R142). This is also the recovery from a recorded error (60_exceptions.md R177): there is no other return. -/
def closeMessage (st : BitVec 2) (s : State) : State :=
  { s with decEst := st, decEndp := true, decPos := 0#2, decErr := 0#2, decAcc := 0#17 }

/-- `dec_endp <- 0` (R145). -/
def takeDecEnd (s : State) : State := { s with decEndp := false }

/-- Every register takes its reset value; the schedule is not a register (70_reset_and_hazards.md R201, log 16). -/
def clearRegisters (s : State) : State := { State.reset with inputs := s.inputs }

/-- The third digit of a group completes the triplet (R140): `dec_acc` is cleared and the value is emitted as a WORD,
or `InvalidValue` is recorded. -/
def closeTriplet (v : Nat) (s : State) : State :=
  if tripletOverflows v then recordError .invalidValue (setAcc 0#17 s)
  else stageData oopWord (wordOfValue v) (setAcc 0#17 s)

/-- A digit by its group position, read before the edge (R138, R139, R140; R146 sends every other position the third
way). -/
def takeDigit (pos : BitVec 2) (g : Digit) (s : State) : State :=
  if pos = 0 then setAcc (accOfDigit g) s
  else if pos = 1 then setAcc (accAddSecond s.decAcc g) s
  else closeTriplet (tripletValue s.decAcc g) s

/-- A character: the position advances in every case; then drain, a character outside the alphabet, or a digit (R137,
R141). `INV` is read only when no error is recorded (42 R155). -/
def takeChar (c : Byte) (s : State) : State :=
  if s.decErr ≠ 0#2 then advancePos s
  else
    match invAt c with
    | none => recordError .invalidCharacter (advancePos s)
    | some g => takeDigit s.decPos g (advancePos s)

/-- The END beat of a message (R142): a good trailing pair is staged as a BYTE, and the status is reported. -/
def endMessage (s : State) : State :=
  closeMessage (endStatus s) (if goodTrailingPair s then stageData oopByte (byteOfAcc s.decAcc) s else s)

/-- A beat offered on `enc_in`: transferred, and executed, when the encoder is ready; otherwise it is not read and
nothing changes (20_memory.md R47, R48; log 4). -/
def acceptEnc (f : State → State) (s : State) : Answer := .next (if encInReady s then f s else s)

/-- A beat offered on `dec_in` (R47, R48; log 4). -/
def acceptDec (f : State → State) (s : State) : Answer := .next (if decInReady s then f s else s)

/-- The sink of `enc_out` takes the beat `i`. A beat the encoder does not present cannot be transferred (R47; log 5). -/
def produceEnc (i : Instr) (f : State → State) (s : State) : Answer :=
  if encPresented s = some i then .next (f s) else .refused .beatNotPresented

/-- The sink of `dec_out` takes the beat `i` (R47; log 5). -/
def produceDec (i : Instr) (f : State → State) (s : State) : Answer :=
  if decPresented s = some i then .next (f s) else .refused .beatNotPresented

end Sys2Proof.Machine
end

