-- ==== Sys2Proof/Machine/Decoder.lean ====
section
/-! DEFINITION. The beat kinds accepted on `dec_in` and produced on `dec_out` (41_decoder.md sections 3 and 4). -/

namespace Sys2Proof.Machine

/-- DEC.CHAR (R137 to R141). -/
def execDecChar (char : Byte) (s : State) : Answer := acceptDec (takeChar char) s

/-- DEC.END (R142). The character bits are ignored and not looked up. -/
def execDecEnd (_ignored : Byte) (s : State) : Answer := acceptDec endMessage s

/-- DECO.END (R145): the status of the message becomes visible. -/
def execDecoEnd (status : BitVec 2) (s : State) : Answer := produceDec (.decoEnd status) takeDecEnd s

/-- DECO.BYTE (R144). -/
def execDecoByte (lo : Byte) (s : State) : Answer := produceDec (.decoByte lo) takeData s

/-- DECO.WORD (R143). -/
def execDecoWord (hi lo : Byte) (s : State) : Answer := produceDec (.decoWord hi lo) takeData s

end Sys2Proof.Machine
end

