-- ==== Sys2Proof/Machine/Encoder.lean ====
section
/-! DEFINITION. The beat kinds accepted on `enc_in` and produced on `enc_out` (40_encoder.md sections 3 and 4). -/

namespace Sys2Proof.Machine

/-- ENC.END (R109). The data bits are ignored. -/
def execEncEnd (_ignored : BitVec 16) (s : State) : Answer := acceptEnc openEncEnd s

/-- ENC.SINGLE (R108). The high byte is ignored. -/
def execEncSingle (_ignored lo : Byte) (s : State) : Answer := acceptEnc (loadGroup (singleValue lo) 2#2) s

/-- ENC.PAIR (R107). -/
def execEncPair (hi lo : Byte) (s : State) : Answer := acceptEnc (loadGroup (pairValue hi lo) 3#2) s

/-- ENC.RSVD3 (R110): consumed, no register changes, nothing is emitted. -/
def execEncRsvd3 (_ignored : BitVec 16) (s : State) : Answer := acceptEnc id s

/-- ENCO.CHAR (R111): the radix step. -/
def execEncoChar (char : Byte) (s : State) : Answer := produceEnc (.encoChar char) radixStep s

/-- ENCO.END (R112). -/
def execEncoEnd (s : State) : Answer := produceEnc .encoEnd takeEncEnd s

end Sys2Proof.Machine
end

