-- ==== Sys2Proof/Machine/Dispatch.lean ====
section
/-! DEFINITION. One arm per beat kind. -/

namespace Sys2Proof.Machine

def exec (i : Instr) (s : State) : Host.Outcome State Fault Refusal :=
  match i with
  | .encEnd ignored => Sys2Proof.Machine.execEncEnd ignored s
  | .encSingle ignored lo => Sys2Proof.Machine.execEncSingle ignored lo s
  | .encPair hi lo => Sys2Proof.Machine.execEncPair hi lo s
  | .encRsvd3 ignored => Sys2Proof.Machine.execEncRsvd3 ignored s
  | .encoChar char => Sys2Proof.Machine.execEncoChar char s
  | .encoEnd => Sys2Proof.Machine.execEncoEnd s
  | .decChar char => Sys2Proof.Machine.execDecChar char s
  | .decEnd ignored => Sys2Proof.Machine.execDecEnd ignored s
  | .decoEnd status => Sys2Proof.Machine.execDecoEnd status s
  | .decoByte lo => Sys2Proof.Machine.execDecoByte lo s
  | .decoWord hi lo => Sys2Proof.Machine.execDecoWord hi lo s

end Sys2Proof.Machine
end

