-- ==== Sys2Proof/Machine/Cycle.lean ====
section
/-! DEFINITION. One clock cycle: which beat each unit moves, the edge that ends the cycle, and how a beat word is
placed where the next cycle takes it. Machine/Step.lean only calls this file. -/

namespace Sys2Proof.Machine

/-- A cycle in which the environment drives every input low: nothing is offered and no sink is ready. -/
def quietCycle : CycleIn where
  rst := false
  encInValid := false
  encInOp := 0#2
  encInData := 0#16
  encOutReady := false
  decInValid := false
  decInEnd := false
  decInChar := 0#8
  decOutReady := false

/-- The cycle the machine is in: the first of the schedule. After the end of the schedule the environment is quiet
(DESIGN CHOICE, log 2). -/
def currentCycle (s : State) : CycleIn := s.inputs.headD quietCycle

/-- The schedule moves on by one cycle. -/
def popCycle (s : State) : State := { s with inputs := s.inputs.tail }

/-- The beat the encoder moves in the cycle `c`, if any: its output beat when the sink is ready, or the beat offered
on `enc_in` when it is ready for one (20_memory.md R47, R49). -/
def encInstr (c : CycleIn) (s : State) : Option Instr :=
  if encOutValid s then
    if c.encOutReady then encPresented s else none
  else if c.encInValid then some (decodeEiw (encInWord c))
  else none

/-- The beat the decoder moves in the cycle `c`, if any (R47, R49). -/
def decInstr (c : CycleIn) (s : State) : Option Instr :=
  if decOutValid s then
    if c.decOutReady then decPresented s else none
  else if c.decInValid then some (decodeDiw (decInWord c))
  else none

/-- The encoder's part of the edge: the beat it moves runs; otherwise it keeps its state (60_exceptions.md R185). -/
def encEdge (c : CycleIn) (s : State) : Answer :=
  match encInstr c s with
  | some i => exec i s
  | none => .next s

/-- The decoder's part of the edge. When the registers present no beat kind although `dec_ov` is 1, which no run
reaches, the sink's `ready` still clears `dec_ov`, as 41_decoder.md R146 says (log 8). -/
def decEdge (c : CycleIn) (s : State) : Answer :=
  match decInstr c s with
  | some i => exec i s
  | none => .next (if s.decOv && c.decOutReady then takeData s else s)

/-- The rising edge of `clk`. Reset has priority over every transfer (70_reset_and_hazards.md R200, R201). Otherwise
both units step; they share no register and no signal, so the order in which the two are written does not matter
(20_memory.md R56; log 15). -/
def clockEdge (s : State) : Answer :=
  if (currentCycle s).rst then .next (clearRegisters (popCycle s))
  else andThen (encEdge (currentCycle s) (popCycle s)) (decEdge (currentCycle s))

/-- A cycle in which the environment offers the word `w` on port `p`, or takes a beat from it, and does nothing
else. -/
def cycleFor (p : Port) (w : Nat) : CycleIn :=
  match p with
  | .encIn =>
    { quietCycle with
      encInValid := true, encInOp := eiwOp (BitVec.ofNat 18 w), encInData := eiwData (BitVec.ofNat 18 w) }
  | .encOut => { quietCycle with encOutReady := true }
  | .decIn =>
    { quietCycle with
      decInValid := true, decInEnd := charWordEnd (BitVec.ofNat 9 w), decInChar := charWordChar (BitVec.ofNat 9 w) }
  | .decOut => { quietCycle with decOutReady := true }

/-- The registers changed as little as lets the unit move the beat `i` next: an accepting unit idle, a producing unit
presenting `i`. In the reset state an accepting unit is idle already and nothing changes. -/
def readyFor (i : Instr) (s : State) : State :=
  match i with
  | .encEnd _ => { s with encCnt := 0#2, encEndp := false }
  | .encSingle _ _ => { s with encCnt := 0#2, encEndp := false }
  | .encPair _ _ => { s with encCnt := 0#2, encEndp := false }
  | .encRsvd3 _ => { s with encCnt := 0#2, encEndp := false }
  | .encoChar c => { s with encQ := BitVec.ofNat 16 ((invAt c).elim 0 Fin.val), encCnt := 1#2 }
  | .encoEnd => { s with encCnt := 0#2, encEndp := true }
  | .decChar _ => { s with decOv := false, decEndp := false }
  | .decEnd _ => { s with decOv := false, decEndp := false }
  | .decoEnd st => { s with decOv := false, decEndp := true, decEst := st }
  | .decoByte b => { s with decOv := true, decOop := oopByte, decOd := joinBytes 0#8 b }
  | .decoWord h l => { s with decOv := true, decOop := oopWord, decOd := joinBytes h l }

/-- Placing a table word so that the very next cycle moves it (log 7). A word that is no beat kind is not placed. -/
def placeTableWord (s : State) (nbits w : Nat) : State :=
  match decode (portOfTableWord nbits w) w with
  | .instr i =>
    { readyFor i s with inputs := cycleFor (portOfTableWord nbits w) w :: s.inputs }
  | .rejected _ => s

end Sys2Proof.Machine
end

