-- ==== Sys2Proof/Machine/Step.lean ====
section
/-! DEFINITION. One step of the machine: one rising edge of the clock (00_scope.md section 6 point 1). -/

namespace Sys2Proof.Machine

/-- One clock cycle of both units. -/
def step (s : State) : Host.Outcome State Fault Refusal := clockEdge s

/-- `s` with the table word `w` of `nbits` bits placed where the next step takes its beat (log 6, log 7). -/
def State.withFetchWord (s : State) (nbits w : Nat) : State := placeTableWord s nbits w

end Sys2Proof.Machine
end

