-- ==== Sys2Proof/Machine/Reference.lean ====
section
/-! DEFINITION. The reference functions the two units must realise: `encode` (40_encoder.md R100), `decode`
(41_decoder.md R130), and the step functions of R113 and R146 written on plain numbers. The tables are here in their
closed forms (30_encoding.md R81, R82), not the ROMs the machine reads. -/

namespace Sys2Proof.Machine

/-- `ALPHABET[i]` in closed form (R81). -/
def refAlphabet (i : Nat) : Byte :=
  if i ≤ 9 then BitVec.ofNat 8 (0x30 + i)
  else if i ≤ 35 then BitVec.ofNat 8 (0x41 + (i - 10))
  else
    match i with
    | 36 => 0x20
    | 37 => 0x24
    | 38 => 0x25
    | 39 => 0x2A
    | 40 => 0x2B
    | 41 => 0x2D
    | 42 => 0x2E
    | 43 => 0x2F
    | _ => 0x3A

/-- `digit(c)` of R130: `INV` in closed form (R82), and not found for every code of 256 or more (R134). -/
def refDigit (c : Nat) : Option Nat :=
  if 0x30 ≤ c ∧ c ≤ 0x39 then some (c - 0x30)
  else if 0x41 ≤ c ∧ c ≤ 0x5A then some (c - 0x41 + 10)
  else
    match c with
    | 0x20 => some 36
    | 0x24 => some 37
    | 0x25 => some 38
    | 0x2A => some 39
    | 0x2B => some 40
    | 0x2D => some 41
    | 0x2E => some 42
    | 0x2F => some 43
    | 0x3A => some 44
    | _ => none

/-- `encode` (R100): the text of a byte buffer. -/
def refEncode : List Byte → List Byte
  | b0 :: b1 :: rest =>
    let d := b0.toNat * 256 + b1.toNat
    refAlphabet (d % 45) :: refAlphabet (d / 45 % 45) :: refAlphabet (d / 2025 % 45) :: refEncode rest
  | [b] => [refAlphabet (b.toNat % 45), refAlphabet (b.toNat / 45 % 45)]
  | [] => []

/-- Bytes put before those of a result; an error returns no bytes (R130). -/
def prependBytes (bs : List Byte) : Result → Result
  | .ok rest => .ok (bs ++ rest)
  | .err k => .err k

/-- The value of a triplet of codes, or the error its processing raises (R131, R134): the characters left to right,
then the bound. -/
def refTriplet (c0 c1 c2 : Nat) : Except ErrorKind Nat :=
  match refDigit c0, refDigit c1, refDigit c2 with
  | some d0, some d1, some d2 =>
    if d0 + d1 * 45 + d2 * 45 * 45 > 0xFFFF then .error .invalidValue else .ok (d0 + d1 * 45 + d2 * 45 * 45)
  | _, _, _ => .error .invalidCharacter

/-- The value of a trailing pair of codes, or the error its processing raises (R132). -/
def refPair (c0 c1 : Nat) : Except ErrorKind Nat :=
  match refDigit c0, refDigit c1 with
  | some d0, some d1 => if d0 + d1 * 45 > 0xFF then .error .invalidValue else .ok (d0 + d1 * 45)
  | _, _ => .error .invalidCharacter

/-- The groups of R130, after the length check: the main triplet loop, then the trailing pair. -/
def refGroups : List Nat → Result
  | c0 :: c1 :: c2 :: rest =>
    match refTriplet c0 c1 c2 with
    | .ok v => prependBytes [BitVec.ofNat 8 (v / 256), BitVec.ofNat 8 (v % 256)] (refGroups rest)
    | .error k => .err k
  | [c0, c1] =>
    match refPair c0 c1 with
    | .ok v => .ok [BitVec.ofNat 8 v]
    | .error k => .err k
  | [_] => .err .invalidLength
  | [] => .ok []

/-- `decode` (R130) of a string of character codes: the length check comes first (R133). -/
def refDecode (s : List Nat) : Result := if s.length % 3 = 1 then .err .invalidLength else refGroups s

/-- The values of the triplets that come before the first defect of a string (R147). -/
def refLeadingValues : List Nat → List Nat
  | c0 :: c1 :: c2 :: rest =>
    match refTriplet c0 c1 c2 with
    | .ok v => v :: refLeadingValues rest
    | .error _ => []
  | _ => []

/-- The encoder's registers as numbers (10_state.md R11 to R13). -/
structure EncRegs where
  q : Nat
  cnt : Nat
  endp : Bool
  deriving DecidableEq, Repr

/-- `enc_step` (40_encoder.md R113), line for line. -/
def refEncStep (r : EncRegs) (c : CycleIn) : EncRegs :=
  if c.rst then ⟨0, 0, false⟩
  else if r.cnt ≠ 0 then
    if c.encOutReady then ⟨r.q / 45, r.cnt - 1, r.endp⟩ else r
  else if r.endp then
    if c.encOutReady then ⟨r.q, 0, false⟩ else r
  else if c.encInValid then
    match c.encInOp.toNat with
    | 2 => ⟨c.encInData.toNat, 3, false⟩
    | 1 => ⟨c.encInData.toNat % 256, 2, false⟩
    | 0 => ⟨r.q, 0, true⟩
    | _ => r
  else r

/-- The decoder's registers as numbers (10_state.md R15 to R19). -/
structure DecRegs where
  acc : Nat
  pos : Nat
  err : Nat
  ov : Bool
  oop : Nat
  od : Nat
  endp : Bool
  est : Nat
  deriving DecidableEq, Repr

/-- The DEC.CHAR lines of `dec_step` (41_decoder.md R146). -/
def refDecChar (r : DecRegs) (char : Nat) : DecRegs :=
  let r1 := { r with pos := (r.pos + 1) % 3 }
  if r.err ≠ 0 then r1
  else
    match refDigit char with
    | none => { r1 with err := 2 }
    | some g =>
      if r.pos = 0 then { r1 with acc := g }
      else if r.pos = 1 then { r1 with acc := r.acc + 45 * g }
      else if r.acc + 2025 * g > 0xFFFF then { r1 with acc := 0, err := 3 }
      else { r1 with acc := 0, ov := true, oop := 2, od := r.acc + 2025 * g }

/-- The DEC.END lines of `dec_step` (R146). -/
def refDecEnd (r : DecRegs) : DecRegs :=
  let r2 := { r with endp := true, pos := 0, err := 0, acc := 0 }
  if r.pos = 1 then { r2 with est := 1 }
  else if r.err ≠ 0 then { r2 with est := r.err }
  else if r.pos = 2 then
    if r.acc > 0xFF then { r2 with est := 3 }
    else { r2 with est := 0, ov := true, oop := 1, od := r.acc }
  else { r2 with est := 0 }

/-- `dec_step` (R146), line for line. -/
def refDecStep (r : DecRegs) (c : CycleIn) : DecRegs :=
  if c.rst then ⟨0, 0, 0, false, 0, 0, false, 0⟩
  else if r.ov then
    if c.decOutReady then { r with ov := false } else r
  else if r.endp then
    if c.decOutReady then { r with endp := false } else r
  else if !c.decInValid then r
  else if c.decInEnd then refDecEnd r
  else refDecChar r c.decInChar.toNat

/-- The encoder's registers of a state. -/
def encRegs (s : State) : EncRegs := ⟨s.encQ.toNat, s.encCnt.toNat, s.encEndp⟩

/-- The decoder's registers of a state. -/
def decRegs (s : State) : DecRegs :=
  ⟨s.decAcc.toNat, s.decPos.toNat, s.decErr.toNat, s.decOv, s.decOop.toNat, s.decOd.toNat, s.decEndp, s.decEst.toNat⟩

end Sys2Proof.Machine
end

