-- ==== Sys2Proof/Machine/Messages.lean ====
section
/-! DEFINITION. Messages: how a buffer or string is framed as beats (20_memory.md R53) and how an output message is
read (R54). -/

namespace Sys2Proof.Machine

/-- `frame_bytes` (R53): PAIR for each full pair, SINGLE for an odd last byte, END. Ignored bits are written as 0
(30_encoding.md R87). -/
def frameBytes : List Byte → List Eiw
  | b0 :: b1 :: rest => mkEiw 2#2 (joinBytes b0 b1) :: frameBytes rest
  | [b] => [mkEiw 1#2 (joinBytes 0#8 b), mkEiw 0#2 0#16]
  | [] => [mkEiw 0#2 0#16]

/-- `unframe_bytes` (R53): the buffer of a well-framed `enc_in` message, `PAIR* SINGLE? END` with no RSVD3; `none` for
any other sequence. Ignored bits may hold anything. -/
def unframeBytes : List Eiw → Option (List Byte)
  | [] => none
  | w :: rest =>
    match decodeEiw w with
    | .encPair h l => (unframeBytes rest).map fun bs => h :: l :: bs
    | .encSingle _ l =>
      match rest.map decodeEiw with
      | [.encEnd _] => some [l]
      | _ => none
    | .encEnd _ => if rest.isEmpty then some [] else none
    | _ => none

/-- The word with 0 in every ignored bit (30_encoding.md R84, R87). -/
def clearIgnored (w : Eiw) : Eiw :=
  match decodeEiw w with
  | .encEnd _ => mkEiw 0#2 0#16
  | .encSingle _ l => mkEiw 1#2 (joinBytes 0#8 l)
  | .encRsvd3 _ => mkEiw 3#2 0#16
  | _ => w

/-- `frame_chars` (R53): one CHAR per code, then END. It is also the `enc_out` message of a string (R54). -/
def frameChars : List Byte → List Diw
  | c :: rest => mkCharWord false c :: frameChars rest
  | [] => [mkCharWord true 0#8]

/-- `unframe_chars` (R53): the string of a `dec_in` message `CHAR* END`. -/
def unframeChars : List Diw → Option (List Byte)
  | [] => none
  | w :: rest =>
    match decodeDiw w with
    | .decChar c => (unframeChars rest).map fun cs => c :: cs
    | .decEnd _ => if rest.isEmpty then some [] else none
    | _ => none

/-- What an END beat says of the message: its kind of error, or success with the bytes still to be put before
(R54, 30_encoding.md R79). -/
def resultOfStatus (st : BitVec 2) : Result :=
  match kindOfStatus st with
  | none => .ok []
  | some k => .err k

/-- `result(msg)` of a `dec_out` message `WORD* BYTE? END(status)` (R54); `none` for a sequence of another shape. The
data beats of a message whose status is not 0 are dropped. -/
def readResult : List Dow → Option Result
  | [] => none
  | w :: rest =>
    match decodeDow w with
    | .instr (.decoWord h l) => (readResult rest).map (prependBytes [h, l])
    | .instr (.decoByte b) =>
      match rest.map decodeDow with
      | [.instr (.decoEnd st)] => some (prependBytes [b] (resultOfStatus st))
      | _ => none
    | .instr (.decoEnd st) => if rest.isEmpty then some (resultOfStatus st) else none
    | _ => none

/-- The status code of a result (R79). -/
def resultStatus : Result → BitVec 2
  | .ok _ => statusOk
  | .err k => errCode k

/-- The data beats that end a message: one BYTE for the trailing pair of a string that decodes, nothing otherwise
(41_decoder.md R147). -/
def trailingBeats (s : List Nat) : List Dow :=
  match refDecode s with
  | .ok bytes =>
    if s.length % 3 = 2 then (bytes.getLast?.map fun b => mkDow 0#2 1#2 (joinBytes 0#8 b)).toList else []
  | .err _ => []

/-- The whole `dec_out` message of a string (R147): one WORD for each triplet before the first defect, the BYTE of a
good trailing pair, and END with the status of `decode`. -/
def decodeMessage (s : List Nat) : List Dow :=
  (refLeadingValues s).map (fun v => mkDow 0#2 2#2 (BitVec.ofNat 16 v)) ++ trailingBeats s ++
    [mkDow (resultStatus (refDecode s)) 0#2 0#16]

end Sys2Proof.Machine
end

