-- ==== Sys2Proof/Machine/Assembler.lean ====
section
/-! DEFINITION. The beat lines and pseudo-instructions of 30_encoding.md R87 and R88, as data: which words each line
writes. Reading the text itself is left to whoever writes the test vectors (log 19). -/

namespace Sys2Proof.Machine

/-- A line for a port. `endBytes`, `endChars` and `endStatus` are the three uses of the word END. -/
inductive AsmLine where
  | pair (hi lo : Byte)
  | single (b : Byte)
  | endBytes
  | rsvd3
  | char (c : Byte)
  | endChars
  | word (d : BitVec 16)
  | byte (b : Byte)
  | endStatus (r : Option ErrorKind)
  | msgb (bytes : List Byte)
  | msgs (codes : List Byte)
  | nopbeat
  deriving DecidableEq, Repr

/-- The words a line writes, with 0 in every ignored bit (R87), pseudo-instructions expanded (R88). -/
def assembleLine : AsmLine → List Nat
  | .pair hi lo => [encode (.encPair hi lo)]
  | .single b => [encode (.encSingle 0 b)]
  | .endBytes => [encode (.encEnd 0)]
  | .rsvd3 => [encode (.encRsvd3 0)]
  | .char c => [encode (.decChar c)]
  | .endChars => [encode (.decEnd 0)]
  | .word d => [encode (.decoWord (highByte d) (lowByte d))]
  | .byte b => [encode (.decoByte b)]
  | .endStatus none => [encode (.decoEnd statusOk)]
  | .endStatus (some k) => [encode (.decoEnd (errCode k))]
  | .msgb bytes => (frameBytes bytes).map BitVec.toNat
  | .msgs codes => (frameChars codes).map BitVec.toNat
  | .nopbeat => [encode (.encRsvd3 0)]

/-- The words of a program of lines, in order. -/
def assemble (lines : List AsmLine) : List Nat := lines.flatMap assembleLine

end Sys2Proof.Machine
end

