-- ==== Sys2Proof/Machine/Observe.lean ====
section
/-! DEFINITION. What an observer sees of a run: the beats transferred on each port, cycle by cycle (92_eei_decisions.md
D24; the "events of the cycle" of 40_encoder.md R113 and 41_decoder.md R146). -/

namespace Sys2Proof.Machine

/-- The beat transferred on `enc_in` in this cycle (20_memory.md R47). -/
def encInXfer (s : State) : Option Eiw :=
  if !(currentCycle s).rst && (currentCycle s).encInValid && encInReady s then some (encInWord (currentCycle s))
  else none

/-- The beat transferred on `enc_out` in this cycle (R47). -/
def encOutXfer (s : State) : Option Eow :=
  if !(currentCycle s).rst && (currentCycle s).encOutReady && encOutValid s then some (encOutWord s) else none

/-- The beat transferred on `dec_in` in this cycle (R47). -/
def decInXfer (s : State) : Option Diw :=
  if !(currentCycle s).rst && (currentCycle s).decInValid && decInReady s then some (decInWord (currentCycle s))
  else none

/-- The beat transferred on `dec_out` in this cycle (R47). -/
def decOutXfer (s : State) : Option Dow :=
  if !(currentCycle s).rst && (currentCycle s).decOutReady && decOutValid s then some (decOutWord s) else none

/-- The state after `k` cycles. -/
def runSteps : Nat → State → Answer
  | 0, s => .next s
  | k + 1, s => andThen (step s) (runSteps k)

/-- What `f` sees in the next `k` cycles, in order. -/
def collect {α : Type} (f : State → Option α) : Nat → State → List α
  | 0, _ => []
  | k + 1, s =>
    (f s).toList ++
      match step s with
      | .next t => collect f k t
      | .fault _ => []
      | .refused _ => []

/-- A property of the state that holds in each of the next `k` cycles. -/
def throughout (p : State → Bool) : Nat → State → Bool
  | 0, _ => true
  | k + 1, s =>
    p s &&
      match step s with
      | .next t => throughout p k t
      | .fault _ => true
      | .refused _ => true

/-- The characters a group still owes: `n` radix steps from the quotient `q` (40_encoder.md R111). -/
def groupBeats (q : BitVec 16) : Nat → List Eow
  | 0 => []
  | n + 1 => mkCharWord false (alphabetAt (quotientDigit q)) :: groupBeats (nextQuotient q) n

/-- The beats the encoder still owes its sink: the rest of the group, then a pending END (10_state.md R14, R26). -/
def encOwed (s : State) : List Eow :=
  groupBeats s.encQ s.encCnt.toNat ++ if s.encEndp then [mkCharWord true 0#8] else []

/-- The beats the decoder still owes its sink: the staged data beat, then a pending END (R18, R19, R26). -/
def decOwed (s : State) : List Dow :=
  (if s.decOv then [mkDow 0#2 s.decOop s.decOd] else []) ++ if s.decEndp then [mkDow s.decEst 0#2 0#16] else []

/-- The output beats one `enc_in` beat causes, whatever came before it (40_encoder.md R115). -/
def encBeatOutput (w : Eiw) : List Eow :=
  match decodeEiw w with
  | .encPair h l => groupBeats (pairValue h l) 3
  | .encSingle _ l => groupBeats (singleValue l) 2
  | .encEnd _ => [mkCharWord true 0#8]
  | _ => []

end Sys2Proof.Machine
end

