-- ==== Sys2Proof/WellFormed.lean ====
section
/-! DEFINITION. Which terms of `Instr`, and which sequences of them on an input port, the spec admits. -/

namespace Sys2Proof

/-- A beat kind is well formed when its word can appear on its port. Every word of an input port does (30_encoding.md
R73, R74); on `enc_out` a character is one of the 45 of the alphabet (R75); on `dec_out` every operand value is
possible (R76). -/
def Instr.wf : Instr → Bool
  | .encEnd _ => true
  | .encSingle _ _ => true
  | .encPair _ _ => true
  | .encRsvd3 _ => true
  | .encoChar c => Machine.alphabet.contains c
  | .encoEnd => true
  | .decChar _ => true
  | .decEnd _ => true
  | .decoEnd _ => true
  | .decoByte _ => true
  | .decoWord _ _ => true

/-- `PAIR* SINGLE? END` with no RSVD3 (20_memory.md R53): the shape of a well-framed `enc_in` message. -/
def wfEncMessage : List Instr → Bool
  | .encPair _ _ :: rest => wfEncMessage rest
  | [.encSingle _ _, .encEnd _] => true
  | [.encEnd _] => true
  | _ => false

/-- `CHAR* END` (R53): the shape of every `dec_in` message. -/
def wfDecMessage : List Instr → Bool
  | .decChar _ :: rest => wfDecMessage rest
  | [.decEnd _] => true
  | _ => false

end Sys2Proof
end

