-- ==== Sys2Proof/Safety.lean ====
section
/-! DEFINITION. The terms statements use: the invariant of 10_state.md R28, the states a message may start from, and
what is asked of an environment. -/

namespace Sys2Proof.Machine

/-- What R28 says of the encoder, with R26's `enc_q = 0` between groups. -/
abbrev encInv (s : State) : Prop :=
  (s.encCnt ≠ 0#2 → s.encEndp = false) ∧
  (s.encCnt = 2#2 → s.encQ.toNat ≤ 1456) ∧
  (s.encCnt = 1#2 → s.encQ.toNat ≤ 32) ∧
  (s.encCnt = 0#2 → s.encQ = 0#16)

/-- What the accumulator holds while a group is received without error (10_state.md R15). -/
abbrev accInv (s : State) : Prop :=
  (s.decPos = 0#2 → s.decAcc = 0#17) ∧
  (s.decPos = 1#2 → s.decAcc.toNat ≤ 44) ∧
  (s.decPos = 2#2 → s.decAcc.toNat ≤ 2024)

/-- What R28 says of the decoder, with the accumulator's bound by position. -/
abbrev decInv (s : State) : Prop :=
  s.decPos ≠ 3#2 ∧
  s.decErr ≠ 1#2 ∧
  s.decAcc.toNat ≤ 2024 ∧
  (s.decErr = 0#2 → accInv s) ∧
  (s.decErr = 3#2 → s.decAcc = 0#17) ∧
  (s.decOv = true → s.decOop = oopByte ∨ s.decOop = oopWord) ∧
  (s.decOv = true → s.decOop = oopByte → s.decOd.toNat ≤ 0x00FF ∧ s.decEndp = true) ∧
  (s.decOv = true → s.decOop = oopWord → s.decEndp = false) ∧
  (s.decEndp = true → s.decPos = 0#2 ∧ s.decErr = 0#2 ∧ s.decAcc = 0#17) ∧
  (s.decEst ≠ 0#2 → s.decEndp = true → s.decOv = false)

/-- The invariant of the core: it holds at reset and every step keeps it. -/
abbrev Inv (s : State) : Prop := encInv s ∧ decInv s

/-- The states R147 starts from: the decoder between two messages. -/
abbrev decFresh (s : State) : Prop := decInReady s = true ∧ s.decPos = 0#2 ∧ s.decErr = 0#2

/-- The encoder's registers agree. -/
abbrev sameEncoder (s t : State) : Prop := s.encQ = t.encQ ∧ s.encCnt = t.encCnt ∧ s.encEndp = t.encEndp

/-- The decoder's registers agree. -/
abbrev sameDecoder (s t : State) : Prop :=
  s.decAcc = t.decAcc ∧ s.decPos = t.decPos ∧ s.decErr = t.decErr ∧ s.decOv = t.decOv ∧ s.decOop = t.decOop ∧
    s.decOd = t.decOd ∧ s.decEndp = t.decEndp ∧ s.decEst = t.decEst

/-- The encoder's inputs of two cycles agree, with `rst`. -/
abbrev sameEncInputs (c d : CycleIn) : Prop :=
  c.rst = d.rst ∧ c.encInValid = d.encInValid ∧ c.encInOp = d.encInOp ∧ c.encInData = d.encInData ∧
    c.encOutReady = d.encOutReady

/-- The decoder's inputs of two cycles agree, with `rst`. -/
abbrev sameDecInputs (c d : CycleIn) : Prop :=
  c.rst = d.rst ∧ c.decInValid = d.decInValid ∧ c.decInEnd = d.decInEnd ∧ c.decInChar = d.decInChar ∧
    c.decOutReady = d.decOutReady

/-- In this cycle the encoder moves a beat whose word decodes to `i`, on either of its ports (20_memory.md R47). -/
abbrev encMoves (s : State) (i : Instr) : Prop :=
  (∃ w, encInXfer s = some w ∧ decode .encIn w.toNat = .instr i) ∨
  (∃ w, encOutXfer s = some w ∧ decode .encOut w.toNat = .instr i)

/-- In this cycle the encoder moves nothing. -/
abbrev encStill (s : State) : Prop := encInXfer s = none ∧ encOutXfer s = none

/-- In this cycle the decoder moves a beat whose word decodes to `i`, on either of its ports (R47). -/
abbrev decMoves (s : State) (i : Instr) : Prop :=
  (∃ w, decInXfer s = some w ∧ decode .decIn w.toNat = .instr i) ∨
  (∃ w, decOutXfer s = some w ∧ decode .decOut w.toNat = .instr i)

/-- In this cycle the decoder moves nothing. -/
abbrev decStill (s : State) : Prop := decInXfer s = none ∧ decOutXfer s = none

/-- `rst` is low in each of the next `k` cycles. -/
def noReset (k : Nat) (s : State) : Bool := (s.inputs.take k).all fun c => !c.rst

/-- In this cycle `enc_out` is wired to `dec_in`, `valid`, `ready`, `end` and `char` (41_decoder.md R148, 95 P4). -/
def loopbackNow (s : State) : Bool :=
  (currentCycle s).decInValid == encOutValid s && (currentCycle s).decInEnd == encOutEnd s &&
    (currentCycle s).decInChar == encOutChar s && (currentCycle s).encOutReady == decInReady s

/-- An `enc_in` source that always offers the next word of `msg`, and an `enc_out` sink that is always ready, for `k`
cycles (70_reset_and_hazards.md R216). After the message nothing is offered. -/
def eagerEncEnv : Nat → List Eiw → State → Bool
  | 0, _, _ => true
  | k + 1, msg, s =>
    (currentCycle s).encOutReady &&
      (if encInReady s then
        match msg with
        | w :: _ => (currentCycle s).encInValid && decide (encInWord (currentCycle s) = w)
        | [] => !(currentCycle s).encInValid
      else true) &&
      match step s with
      | .next t => eagerEncEnv k (if encInReady s then msg.tail else msg) t
      | .fault _ => true
      | .refused _ => true

/-- The same for the decoder's ports (R216). -/
def eagerDecEnv : Nat → List Diw → State → Bool
  | 0, _, _ => true
  | k + 1, msg, s =>
    (currentCycle s).decOutReady &&
      (if decInReady s then
        match msg with
        | w :: _ => (currentCycle s).decInValid && decide (decInWord (currentCycle s) = w)
        | [] => !(currentCycle s).decInValid
      else true) &&
      match step s with
      | .next t => eagerDecEnv k (if decInReady s then msg.tail else msg) t
      | .fault _ => true
      | .refused _ => true

end Sys2Proof.Machine
end

