-- ==== Sys2Proof/Certificates/Slice0/Obligations.lean ====
section
/-! DEFINITION. The statements for the provers. Each docstring names the rule of spec/ it formalises, or rests on where
the spec marks the sentence as its own derivation. -/

open Sys2Proof
open Sys2Proof.Machine

/-- R27 (part of it the spec's own derivation): what the registers and the outputs hold after reset. -/
def Obligations.ResetRegistersAndOutputs : Prop :=
  State.reset.encQ = 0x0000#16 ∧ State.reset.encCnt = 0#2 ∧ State.reset.encEndp = false ∧
  State.reset.decAcc = 0x00000#17 ∧ State.reset.decPos = 0#2 ∧ State.reset.decErr = 0#2 ∧
  State.reset.decOv = false ∧ State.reset.decOop = 0#2 ∧ State.reset.decOd = 0x0000#16 ∧
  State.reset.decEndp = false ∧ State.reset.decEst = 0#2 ∧
  encInReady State.reset = true ∧ encOutValid State.reset = false ∧ encOutEnd State.reset = false ∧
  encOutChar State.reset = 0x00#8 ∧
  decInReady State.reset = true ∧ decOutValid State.reset = false ∧ decOutOp State.reset = 0#2 ∧
  decOutData State.reset = 0x0000#16 ∧ decOutStatus State.reset = 0#2

/-- R200, R201: an edge with `rst` 1 puts every register to its reset value from every state, whatever `valid` and
`ready` are, and transfers nothing on any port. The schedule moves on by the cycle (log 16, the model's own). -/
def Obligations.ResetEdgeClearsEveryRegister : Prop :=
  ∀ s : State, (currentCycle s).rst = true →
    step s = .next { State.reset with inputs := s.inputs.tail } ∧
    (∀ t : State, step s = .next t →
      encInReady t = true ∧ encOutValid t = false ∧ encOutWord t = 0 ∧
      decInReady t = true ∧ decOutValid t = false ∧ decOutWord t = 0) ∧
    encInXfer s = none ∧ encOutXfer s = none ∧ decInXfer s = none ∧ decOutXfer s = none

/-- R14: the encoder's outputs, for every state; no input of the cycle reaches an output. -/
def Obligations.EncoderOutputFunctions : Prop :=
  ∀ s : State,
    (encInReady s = true ↔ s.encCnt = 0#2 ∧ s.encEndp = false) ∧
    (encOutValid s = true ↔ s.encCnt ≠ 0#2 ∨ s.encEndp = true) ∧
    (encOutEnd s = true ↔ s.encCnt = 0#2 ∧ s.encEndp = true) ∧
    (s.encCnt ≠ 0#2 → encOutChar s = refAlphabet (s.encQ.toNat % 45)) ∧
    (s.encCnt = 0#2 → encOutChar s = 0x00#8) ∧
    ∀ ins : List CycleIn,
      encInReady { s with inputs := ins } = encInReady s ∧ encOutWord { s with inputs := ins } = encOutWord s ∧
      encOutValid { s with inputs := ins } = encOutValid s

/-- R20: the decoder's outputs, for every state; no input of the cycle reaches an output. -/
def Obligations.DecoderOutputFunctions : Prop :=
  ∀ s : State,
    (decInReady s = true ↔ s.decOv = false ∧ s.decEndp = false) ∧
    (decOutValid s = true ↔ s.decOv = true ∨ s.decEndp = true) ∧
    (s.decOv = true → decOutOp s = s.decOop ∧ decOutData s = s.decOd ∧ decOutStatus s = 0#2) ∧
    (s.decOv = false → s.decEndp = true → decOutOp s = 0#2 ∧ decOutData s = 0#16 ∧ decOutStatus s = s.decEst) ∧
    (s.decOv = false → s.decEndp = false → decOutOp s = 0#2 ∧ decOutData s = 0#16 ∧ decOutStatus s = 0#2) ∧
    ∀ ins : List CycleIn,
      decInReady { s with inputs := ins } = decInReady s ∧ decOutWord { s with inputs := ins } = decOutWord s ∧
      decOutValid { s with inputs := ins } = decOutValid s

/-- A step runs the decoded beat: when `rst` is low, the step is `exec` of what the word transferred on a port of the
encoder decodes to, then of what the word transferred on a port of the decoder decodes to, at the state whose schedule
has moved on by the cycle. -/
def Obligations.StepRunsTheDecodedBeats : Prop :=
  ∀ (s : State) (i j : Instr), Inv s → (currentCycle s).rst = false →
    (encMoves s i → decStill s → step s = exec i (popCycle s)) ∧
    (encStill s → decMoves s j → step s = exec j (popCycle s)) ∧
    (encMoves s i → decMoves s j → step s = andThen (exec i (popCycle s)) (exec j)) ∧
    (encStill s → decStill s → step s = .next (popCycle s))

/-- The core never traps, hangs or stops (00_scope.md section 6 point 5; R116): from every state, with every input. -/
def Obligations.StepAlwaysAnswersNext : Prop :=
  ∀ s : State, ∃ t : State, step s = .next t ∧ t.inputs = s.inputs.tail

/-- R107, ENC.PAIR: the first byte is the more significant, and three characters follow, digit0, digit1, digit2. -/
def Obligations.EncPairLoadsThePair : Prop :=
  ∀ (s : State) (hi lo : Byte), encInReady s = true →
    ∃ t : State,
      exec (.encPair hi lo) s = .next t ∧
      t = { s with encQ := t.encQ, encCnt := 3#2 } ∧
      t.encQ.toNat = hi.toNat * 256 + lo.toNat ∧
      encInReady t = false ∧ encOutValid t = true ∧
      encOwed t =
        [mkCharWord false (refAlphabet (t.encQ.toNat % 45)), mkCharWord false (refAlphabet (t.encQ.toNat / 45 % 45)),
          mkCharWord false (refAlphabet (t.encQ.toNat / 2025 % 45))]

/-- R108, ENC.SINGLE: the high byte is ignored, and two characters follow, digit0 and digit1. -/
def Obligations.EncSingleLoadsTheByte : Prop :=
  ∀ (s : State) (ignored lo : Byte), encInReady s = true →
    ∃ t : State,
      exec (.encSingle ignored lo) s = .next t ∧
      t = { s with encQ := t.encQ, encCnt := 2#2 } ∧
      t.encQ.toNat = lo.toNat ∧
      encOwed t =
        [mkCharWord false (refAlphabet (t.encQ.toNat % 45)), mkCharWord false (refAlphabet (t.encQ.toNat / 45 % 45))]

/-- R109, ENC.END: `enc_endp` is set, nothing else changes, and one END beat follows, whatever the data bits are. -/
def Obligations.EncEndOpensTheEnd : Prop :=
  ∀ (s : State) (ignored : BitVec 16), encInReady s = true →
    ∃ t : State,
      exec (.encEnd ignored) s = .next t ∧ t = { s with encEndp := true } ∧ encOwed t = [0x100]

/-- R110, ENC.RSVD3: consumed, no register changes, nothing is emitted, ready again. -/
def Obligations.EncRsvd3ChangesNothing : Prop :=
  ∀ (s : State) (ignored : BitVec 16), encInReady s = true →
    exec (.encRsvd3 ignored) s = .next s ∧ encOwed s = []

/-- R111, ENCO.CHAR (part of it the spec's own derivation): the presented character and the radix step of its transfer;
without a transfer nothing changes; the last character of a group leaves `enc_q` 0. -/
def Obligations.EncoCharTakesARadixStep : Prop :=
  ∀ s : State, s.encCnt ≠ 0#2 →
    encOutValid s = true ∧ encOutEnd s = false ∧ encOutChar s = refAlphabet (s.encQ.toNat % 45) ∧
    (∃ t : State,
      exec (.encoChar (encOutChar s)) s = .next t ∧
      t = { s with encQ := t.encQ, encCnt := t.encCnt } ∧
      t.encQ.toNat = s.encQ.toNat / 45 ∧ t.encCnt.toNat + 1 = s.encCnt.toNat ∧
      (encInv s → s.encCnt = 1#2 → t.encQ = 0#16)) ∧
    (∀ t : State, (currentCycle s).rst = false → (currentCycle s).encOutReady = false → step s = .next t →
      sameEncoder s t)

/-- R112, ENCO.END (part of it the spec's own derivation): the presented END and its transfer; without a transfer
nothing changes; after it the encoder's registers are those of reset. -/
def Obligations.EncoEndClosesTheMessage : Prop :=
  ∀ s : State, s.encCnt = 0#2 → s.encEndp = true →
    encOutValid s = true ∧ encOutWord s = 0x100 ∧
    exec .encoEnd s = .next { s with encEndp := false } ∧
    (encInv s → sameEncoder { s with encEndp := false } State.reset) ∧
    (∀ t : State, (currentCycle s).rst = false → (currentCycle s).encOutReady = false → step s = .next t →
      sameEncoder s t)

/-- R137, DEC.CHAR, common part: the position advances modulo 3 in every case, and while an error is recorded (drain)
nothing else is written, whatever the character is. -/
def Obligations.DecCharAdvancesAndDrains : Prop :=
  ∀ (s : State) (c : Byte), decInReady s = true →
    ∃ t : State,
      exec (.decChar c) s = .next t ∧ t.decPos.toNat = (s.decPos.toNat + 1) % 3 ∧
      (s.decErr ≠ 0#2 → t = { s with decPos := t.decPos })

/-- R138, DEC.CHAR at group position 0: the accumulator is overwritten with the digit. -/
def Obligations.DecCharFirstDigit : Prop :=
  ∀ (s : State) (c : Byte) (g : Nat), decInReady s = true → s.decErr = 0#2 → s.decPos = 0#2 →
    refDigit c.toNat = some g →
    exec (.decChar c) s = .next { s with decPos := 1#2, decAcc := BitVec.ofNat 17 g } ∧
    (BitVec.ofNat 17 g).toNat = g ∧ g ≤ 44

/-- R139, DEC.CHAR at group position 1: `dec_acc + 45 * g`, at most 2024, with no bounds check and no output. -/
def Obligations.DecCharSecondDigit : Prop :=
  ∀ (s : State) (c : Byte) (g : Nat), Inv s → decInReady s = true → s.decErr = 0#2 → s.decPos = 1#2 →
    refDigit c.toNat = some g →
    ∃ a : BitVec 17,
      exec (.decChar c) s = .next { s with decPos := 2#2, decAcc := a } ∧
      a.toNat = s.decAcc.toNat + 45 * g ∧ a.toNat ≤ 2024

/-- R140, DEC.CHAR at group position 2: the triplet's value is emitted as a WORD when it fits 16 bits, and is recorded
as `InvalidValue` when it does not. -/
def Obligations.DecCharThirdDigit : Prop :=
  ∀ (s : State) (c : Byte) (g : Nat), Inv s → decInReady s = true → s.decErr = 0#2 → s.decPos = 2#2 →
    refDigit c.toNat = some g →
    s.decAcc.toNat + 2025 * g ≤ 91124 ∧
    (0xFFFF < s.decAcc.toNat + 2025 * g →
      exec (.decChar c) s = .next { s with decPos := 0#2, decAcc := 0#17, decErr := 3#2 }) ∧
    (s.decAcc.toNat + 2025 * g ≤ 0xFFFF →
      ∃ t : State,
        exec (.decChar c) s = .next t ∧
        t = { s with decPos := 0#2, decAcc := 0#17, decOv := true, decOop := 2#2, decOd := t.decOd } ∧
        t.decOd.toNat = s.decAcc.toNat + 2025 * g ∧ decInReady t = false ∧ decOutWord t = mkDow 0#2 2#2 t.decOd)

/-- R141, DEC.CHAR with a code outside the alphabet: `InvalidCharacter` is recorded and the accumulator is left, at any
position. -/
def Obligations.DecCharOutsideTheAlphabet : Prop :=
  ∀ (s : State) (c : Byte), decInReady s = true → s.decErr = 0#2 → refDigit c.toNat = none →
    ∃ p : BitVec 2,
      exec (.decChar c) s = .next { s with decPos := p, decErr := 2#2 } ∧ p.toNat = (s.decPos.toNat + 1) % 3

/-- R142, DEC.END: the status by the length, the recorded error, and the trailing pair's bound, in this order; a BYTE
for the good trailing pair; the message's registers cleared. The character bits are ignored. -/
def Obligations.DecEndChoosesTheStatus : Prop :=
  ∀ (s : State) (ignored : Byte), decInReady s = true →
    ∃ t : State,
      exec (.decEnd ignored) s = .next t ∧
      sameEncoder s t ∧ t.inputs = s.inputs ∧
      t.decEndp = true ∧ t.decPos = 0#2 ∧ t.decErr = 0#2 ∧ t.decAcc = 0#17 ∧
      (s.decPos = 1#2 → t.decEst = 1#2) ∧
      (s.decPos ≠ 1#2 → s.decErr ≠ 0#2 → t.decEst = s.decErr) ∧
      (s.decPos = 2#2 → s.decErr = 0#2 → 0xFF < s.decAcc.toNat → t.decEst = 3#2) ∧
      (s.decPos = 0#2 → s.decErr = 0#2 → t.decEst = 0#2) ∧
      (s.decPos = 2#2 → s.decErr = 0#2 → s.decAcc.toNat ≤ 0xFF →
        t.decEst = 0#2 ∧ t.decOv = true ∧ t.decOop = 1#2 ∧ t.decOd.toNat = s.decAcc.toNat) ∧
      (¬(s.decPos = 2#2 ∧ s.decErr = 0#2 ∧ s.decAcc.toNat ≤ 0xFF) →
        t.decOv = s.decOv ∧ t.decOop = s.decOop ∧ t.decOd = s.decOd)

/-- R143, DECO.WORD: what is presented, its transfer, and nothing without a transfer. -/
def Obligations.DecoWordIsTaken : Prop :=
  ∀ s : State, s.decOv = true → s.decOop = 2#2 →
    decOutValid s = true ∧ decOutOp s = 2#2 ∧ decOutData s = s.decOd ∧ decOutStatus s = 0#2 ∧
    exec (.decoWord (highByte s.decOd) (lowByte s.decOd)) s = .next { s with decOv := false } ∧
    s.decOd.toNat = (highByte s.decOd).toNat * 256 + (lowByte s.decOd).toNat ∧
    (∀ t : State, (currentCycle s).rst = false → (currentCycle s).decOutReady = false → step s = .next t →
      sameDecoder s t)

/-- R144, DECO.BYTE (part of it the spec's own derivation): what is presented, its transfer, and the END OK presented
next. -/
def Obligations.DecoByteIsTaken : Prop :=
  ∀ s : State, Inv s → s.decOv = true → s.decOop = 1#2 →
    decOutValid s = true ∧ decOutOp s = 1#2 ∧ decOutData s = s.decOd ∧ decOutStatus s = 0#2 ∧ highByte s.decOd = 0#8 ∧
    exec (.decoByte (lowByte s.decOd)) s = .next { s with decOv := false } ∧
    s.decEndp = true ∧ s.decEst = 0#2 ∧ decOutWord { s with decOv := false } = 0x00000 ∧
    (∀ t : State, (currentCycle s).rst = false → (currentCycle s).decOutReady = false → step s = .next t →
      sameDecoder s t)

/-- R145, DECO.END: the status becomes visible, its transfer clears `dec_endp`, and the decoder is ready for the next
message with its message registers 0. -/
def Obligations.DecoEndReportsTheStatus : Prop :=
  ∀ s : State, s.decOv = false → s.decEndp = true →
    decOutValid s = true ∧ decOutOp s = 0#2 ∧ decOutData s = 0#16 ∧ decOutStatus s = s.decEst ∧
    exec (.decoEnd s.decEst) s = .next { s with decEndp := false } ∧
    (Inv s → s.decPos = 0#2 ∧ s.decErr = 0#2 ∧ s.decAcc = 0#17) ∧
    decInReady { s with decEndp := false } = true

/-- Where a beat does not complete. A beat offered while the unit is not ready is not read and changes nothing (R48,
95_test_vectors.md section 2.9; log 4, DEDUCED). A beat a unit does not present cannot be taken from it: that refusal is
the model's own (log 5, DESIGN CHOICE), and it is the only way `exec` ever answers anything but a next state. -/
def Obligations.BeatsThatCannotTransfer : Prop :=
  ∀ (s : State) (i : Instr),
    (i.port = .encIn → encInReady s = false → exec i s = .next s) ∧
    (i.port = .decIn → decInReady s = false → exec i s = .next s) ∧
    ((∀ t, exec i s ≠ .next t) ↔
      (i.port = .encOut ∧ encPresented s ≠ some i) ∨ (i.port = .decOut ∧ decPresented s ≠ some i)) ∧
    ((∀ t, exec i s ≠ .next t) → exec i s = .refused .beatNotPresented)

/-- The frame of the encoder's beats: the decoder's registers and the schedule are unchanged, and of the encoder's
registers only those R107 to R112 name for the beat change. -/
def Obligations.EncoderBeatsFrame : Prop :=
  ∀ (s t : State) (i : Instr), i.port = .encIn ∨ i.port = .encOut → exec i s = .next t →
    sameDecoder s t ∧ t.inputs = s.inputs ∧
    (∀ d, i = .encEnd d → t.encQ = s.encQ ∧ t.encCnt = s.encCnt) ∧
    (∀ h l, i = .encSingle h l → t.encEndp = s.encEndp) ∧
    (∀ h l, i = .encPair h l → t.encEndp = s.encEndp) ∧
    (∀ d, i = .encRsvd3 d → t = s) ∧
    (∀ c, i = .encoChar c → t.encEndp = s.encEndp) ∧
    (i = .encoEnd → t.encQ = s.encQ ∧ t.encCnt = s.encCnt)

/-- The frame of the decoder's beats: the encoder's registers and the schedule are unchanged, and of the decoder's
registers only those R137 to R145 name for the beat change. -/
def Obligations.DecoderBeatsFrame : Prop :=
  ∀ (s t : State) (i : Instr), i.port = .decIn ∨ i.port = .decOut → exec i s = .next t →
    sameEncoder s t ∧ t.inputs = s.inputs ∧
    (∀ c, i = .decChar c → t.decEndp = s.decEndp ∧ t.decEst = s.decEst ∧
      (t.decOv = s.decOv → t.decOop = s.decOop ∧ t.decOd = s.decOd)) ∧
    (∀ c, i = .decEnd c → t.decOv = s.decOv → t.decOop = s.decOop ∧ t.decOd = s.decOd) ∧
    (∀ st, i = .decoEnd st → t = { s with decEndp := t.decEndp }) ∧
    (∀ b, i = .decoByte b → t = { s with decOv := t.decOv }) ∧
    (∀ h l, i = .decoWord h l → t = { s with decOv := t.decOv })

/-- R113: from every state, a step does to the encoder's registers what `enc_step` does, and the events of the cycle
are those of the rule. -/
def Obligations.EncoderStepIsTheReferenceStep : Prop :=
  ∀ s : State,
    (∃ t, step s = .next t ∧ encRegs t = refEncStep (encRegs s) (currentCycle s)) ∧
    (∀ w, encOutXfer s = some w ↔
      (currentCycle s).rst = false ∧ encOutValid s = true ∧ (currentCycle s).encOutReady = true ∧
        w = mkCharWord (encOutEnd s) (encOutChar s)) ∧
    (∀ w, encInXfer s = some w ↔
      (currentCycle s).rst = false ∧ encInReady s = true ∧ (currentCycle s).encInValid = true ∧
        w = mkEiw (currentCycle s).encInOp (currentCycle s).encInData)

/-- R146: from every state that meets the invariant, a step does to the decoder's registers what `dec_step` does in
exact numbers (R136: nothing wraps), and the events of the cycle are those of the rule. -/
def Obligations.DecoderStepIsTheReferenceStep : Prop :=
  ∀ s : State, Inv s →
    (∃ t, step s = .next t ∧ decRegs t = refDecStep (decRegs s) (currentCycle s)) ∧
    (∀ w, decOutXfer s = some w ↔
      (currentCycle s).rst = false ∧ decOutValid s = true ∧ (currentCycle s).decOutReady = true ∧
        w = mkDow (decOutStatus s) (decOutOp s) (decOutData s)) ∧
    (∀ w, decInXfer s = some w ↔
      (currentCycle s).rst = false ∧ decInReady s = true ∧ (currentCycle s).decInValid = true ∧
        w = mkCharWord (currentCycle s).decInEnd (currentCycle s).decInChar)

/-- The invariant holds at reset. -/
def Obligations.ResetMeetsTheInvariant : Prop := Inv State.reset

/-- Every step keeps the invariant, from every state that meets it. -/
def Obligations.StepKeepsTheInvariant : Prop := ∀ s t : State, Inv s → step s = .next t → Inv t

/-- R28 (derived in the spec): the invariants of every state reachable from reset, under every schedule of the
environment. The last two lines are the rule's bounds after a SINGLE. -/
def Obligations.ReachableStatesMeetTheSpecInvariants : Prop :=
  ∀ (ins : List CycleIn) (k : Nat) (t : State), runSteps k { State.reset with inputs := ins } = .next t →
    (t.encCnt ≠ 0#2 → t.encEndp = false) ∧
    (t.encCnt = 2#2 → t.encQ.toNat ≤ 1456) ∧ (t.encCnt = 1#2 → t.encQ.toNat ≤ 32) ∧
    t.decPos.toNat ≤ 2 ∧ (t.decErr = 0#2 ∨ t.decErr = 2#2 ∨ t.decErr = 3#2) ∧ t.decAcc.toNat ≤ 2024 ∧
    (t.decOv = true → t.decOop = 1#2 ∨ t.decOop = 2#2) ∧
    (t.decOv = true → t.decOop = 1#2 → t.decOd.toNat ≤ 0x00FF ∧ t.decEndp = true) ∧
    (t.decOv = true → t.decOop = 2#2 → t.decEndp = false) ∧
    (t.decEndp = true → t.decPos = 0#2 ∧ t.decErr = 0#2 ∧ t.decAcc = 0#17) ∧
    (t.decEst ≠ 0#2 → t.decEndp = true → t.decOv = false) ∧
    (∀ (x lo : Byte) (u v : State), encInReady t = true → exec (.encSingle x lo) t = .next u →
      u.encQ.toNat ≤ 255 ∧ (exec (.encoChar (encOutChar u)) u = .next v → v.encQ.toNat ≤ 5))

/-- Decoding the word of a beat kind gives it back, with every operand at every value: no bit is dropped. -/
def Obligations.DecodeOfEncodeIsTheInstruction : Prop :=
  ∀ i : Instr, decode i.port (encode i) = .instr i

/-- Every word that is a beat kind of its port is the word the encoder writes for it: no two words share a meaning. -/
def Obligations.EncodeOfDecodeIsTheWord : Prop :=
  ∀ (p : Port) (w : Nat) (i : Instr), decode p w = .instr i → i.port = p ∧ encode i = w

/-- Words written out in 30_encoding.md R87, R88 and in 95_test_vectors.md, one or more of every kind. -/
def Obligations.SampleWordsDecode : Prop :=
  decode .encIn 0x24142 = .instr (.encPair 0x41 0x42) ∧ decode .encIn 0x1AB21 = .instr (.encSingle 0xAB 0x21) ∧
  decode .encIn 0x0FFFF = .instr (.encEnd 0xFFFF) ∧ decode .encIn 0x3BEEF = .instr (.encRsvd3 0xBEEF) ∧
  decode .encOut 0x042 = .instr (.encoChar 0x42) ∧ decode .encOut 0x100 = .instr .encoEnd ∧
  decode .decIn 0x038 = .instr (.decChar 0x38) ∧ decode .decIn 0x1A5 = .instr (.decEnd 0xA5) ∧
  decode .decOut 0xC0000 = .instr (.decoEnd 3) ∧ decode .decOut 0x10021 = .instr (.decoByte 0x21) ∧
  decode .decOut 0x24142 = .instr (.decoWord 0x41 0x42) ∧ decode .decOut 0x34142 = .rejected .decoOp3

/-- R72, R73, R74: on every port a word is a beat kind exactly when it meets the kind's mask and match. -/
def Obligations.DecodingFollowsMaskAndMatch : Prop :=
  (∀ w : Eiw,
    ((∃ d, decodeEiw w = .encEnd d) ↔ w &&& 0x30000 = 0x00000) ∧
    ((∃ h l, decodeEiw w = .encSingle h l) ↔ w &&& 0x30000 = 0x10000) ∧
    ((∃ h l, decodeEiw w = .encPair h l) ↔ w &&& 0x30000 = 0x20000) ∧
    ((∃ d, decodeEiw w = .encRsvd3 d) ↔ w &&& 0x30000 = 0x30000)) ∧
  (∀ w : Diw,
    ((∃ c, decodeDiw w = .decChar c) ↔ w &&& 0x100 = 0x000) ∧
    ((∃ c, decodeDiw w = .decEnd c) ↔ w &&& 0x100 = 0x100)) ∧
  (∀ w : Eow,
    ((∃ c, decodeEow w = .instr (.encoChar c)) ↔ w &&& 0x100 = 0x000) ∧
    (decodeEow w = .instr .encoEnd ↔ w &&& 0x1FF = 0x100)) ∧
  (∀ w : Dow,
    ((∃ st, decodeDow w = .instr (.decoEnd st)) ↔ w &&& 0x3FFFF = 0x00000) ∧
    ((∃ b, decodeDow w = .instr (.decoByte b)) ↔ w &&& 0xFFF00 = 0x10000) ∧
    ((∃ h l, decodeDow w = .instr (.decoWord h l)) ↔ w &&& 0xF0000 = 0x20000))

/-- R75 (derived in the spec): the encoder only ever presents the 45 character words and the one END word. -/
def Obligations.EncoderPresentsFortySixWords : Prop :=
  ∀ s : State, encOutValid s = true →
    ((∃ i : Digit, encOutWord s = mkCharWord false (refAlphabet i.val)) ∨ encOutWord s = 0x100) ∧
    ∃ i : Instr, decodeEow (encOutWord s) = .instr i ∧ encPresented s = some i ∧ i.wf = true

/-- R76 (derived in the spec): the words the decoder presents, and the beat kind each one is. -/
def Obligations.DecoderPresentsThreeWordForms : Prop :=
  ∀ s : State, Inv s → decOutValid s = true →
    ((∃ v : BitVec 16, decOutWord s = mkDow 0#2 2#2 v) ∨ (∃ b : Byte, decOutWord s = mkDow 0#2 1#2 (joinBytes 0#8 b)) ∨
      (∃ st : BitVec 2, decOutWord s = mkDow st 0#2 0#16)) ∧
    ∃ i : Instr, decodeDow (decOutWord s) = .instr i ∧ decPresented s = some i

/-- R80, R81: the alphabet's contents, 45 distinct codes. The numeric codes are the spec's general knowledge G1
(log 9). -/
def Obligations.AlphabetContents : Prop :=
  alphabet.length = 45 ∧ alphabet.Nodup ∧ (∀ i : Digit, alphabetAt i = refAlphabet i.val) ∧
  alphabetAt 0 = 0x30 ∧ alphabetAt 10 = 0x41 ∧ alphabetAt 35 = 0x5A ∧ alphabetAt 36 = 0x20 ∧ alphabetAt 44 = 0x3A

/-- R82, R83, R85 (part of it the spec's own derivation): `INV` is the exact inverse of `ALPHABET`, in its closed form;
it holds the marker 63 for the 211 other codes, which are those the rule lists. -/
def Obligations.InverseTableContents : Prop :=
  (∀ i : Digit, invAt (alphabetAt i) = some i) ∧
  (∀ (c : Byte) (g : Digit), invAt c = some g → alphabetAt g = c) ∧
  (∀ c : Byte, (invAt c).map Fin.val = refDigit c.toNat) ∧
  (∀ c : Byte, invAt c = none → invRaw c = 63) ∧
  (∀ (c : Byte) (g : Digit), invAt c = some g → (invRaw c).toNat = g.val) ∧
  (∀ c : Byte, invAt c = none ↔
    c ≤ 0x1F ∨ (0x21 ≤ c ∧ c ≤ 0x23) ∨ (0x26 ≤ c ∧ c ≤ 0x29) ∨ c = 0x2C ∨ (0x3B ≤ c ∧ c ≤ 0x40) ∨ 0x5B ≤ c) ∧
  ((List.range 256).filter fun n => (invAt (BitVec.ofNat 8 n)).isNone).length = 211

/-- R101, R102 (part of it the spec's own derivation): after a PAIR the three successive transfers carry digit0,
digit1, digit2 of `d`, and after a SINGLE the two successive transfers carry digit0, digit1 of the byte, least
significant first; they are the base-45 expansion of the value, within their ranges, and the encoder is idle again with
`enc_q` 0. -/
def Obligations.GroupsEmitTheirDigitsInOrder : Prop :=
  (∀ (s t : State) (hi lo : Byte), encInReady s = true → exec (.encPair hi lo) s = .next t →
    ∃ (d0 d1 d2 : Nat) (t1 t2 t3 : State),
      exec (.encoChar (refAlphabet d0)) t = .next t1 ∧ exec (.encoChar (refAlphabet d1)) t1 = .next t2 ∧
      exec (.encoChar (refAlphabet d2)) t2 = .next t3 ∧
      d0 = t.encQ.toNat % 45 ∧ d1 = t.encQ.toNat / 45 % 45 ∧ d2 = t.encQ.toNat / 2025 % 45 ∧
      t.encQ.toNat = hi.toNat * 256 + lo.toNat ∧ t.encQ.toNat = d0 + 45 * d1 + 2025 * d2 ∧
      d0 ≤ 44 ∧ d1 ≤ 44 ∧ d2 ≤ 32 ∧ t3 = { s with encQ := 0#16, encCnt := 0#2 }) ∧
  (∀ (s t : State) (x lo : Byte), encInReady s = true → exec (.encSingle x lo) s = .next t →
    ∃ (d0 d1 : Nat) (t1 t2 : State),
      exec (.encoChar (refAlphabet d0)) t = .next t1 ∧ exec (.encoChar (refAlphabet d1)) t1 = .next t2 ∧
      d0 = lo.toNat % 45 ∧ d1 = lo.toNat / 45 % 45 ∧ lo.toNat = d0 + 45 * d1 ∧
      d0 ≤ 44 ∧ d1 ≤ 5 ∧ t2 = { s with encQ := 0#16, encCnt := 0#2 })

/-- R104 (part of it the spec's own derivation): the length law, of the reference function and of a well-framed message
on the ports. -/
def Obligations.EncodedLengthLaw : Prop :=
  (∀ b : List Byte, (refEncode b).length = b.length / 2 * 3 + if b.length % 2 = 1 then 2 else 0) ∧
  (∀ (s t : State) (k : Nat) (b : List Byte), encInReady s = true → noReset k s = true → runSteps k s = .next t →
    unframeBytes (collect encInXfer k s) = some b → encInReady t = true →
    (collect encOutXfer k s).length = (b.length / 2 * 3 + if b.length % 2 = 1 then 2 else 0) + 1)

/-- R105 (derived in the spec): every character of an encoded text is one of the 45 of the alphabet. -/
def Obligations.EncodedTextIsInTheAlphabet : Prop :=
  ∀ (b : List Byte) (c : Byte), c ∈ refEncode b → ∃ i : Digit, alphabetAt i = c

/-- R133, R135, R171: a string is refused for its length exactly when the length is 1 modulo 3, whatever its characters
are (the spec's reading D9 of the order of the checks, log 10), and a string that decodes gives two bytes for each
triplet and one for a trailing pair. -/
def Obligations.DecodedLengthLaw : Prop :=
  (∀ codes : List Nat, refDecode codes = .err .invalidLength ↔ codes.length % 3 = 1) ∧
  (∀ (codes : List Nat) (bytes : List Byte), refDecode codes = .ok bytes →
    bytes.length = codes.length / 3 * 2 + if codes.length % 3 = 2 then 1 else 0)

/-- R175 (part of it the spec's own derivation): which defect wins, for a string whose length is not 1 modulo 3: the
first in string order, a bad character of a group before the group's value. -/
def Obligations.FirstDefectWins : Prop :=
  ∀ (before after : List Nat) (bs : List Byte) (c0 c1 c2 : Nat),
    refDecode before = .ok bs → before.length % 3 = 0 →
    ((before ++ c0 :: c1 :: c2 :: after).length % 3 = 1 →
      refDecode (before ++ c0 :: c1 :: c2 :: after) = .err .invalidLength) ∧
    ((before ++ c0 :: c1 :: c2 :: after).length % 3 ≠ 1 →
      (refDigit c0 = none ∨ refDigit c1 = none ∨ refDigit c2 = none →
        refDecode (before ++ c0 :: c1 :: c2 :: after) = .err .invalidCharacter) ∧
      (∀ d0 d1 d2, refDigit c0 = some d0 → refDigit c1 = some d1 → refDigit c2 = some d2 →
        0xFFFF < d0 + 45 * d1 + 2025 * d2 →
        refDecode (before ++ c0 :: c1 :: c2 :: after) = .err .invalidValue)) ∧
    (refDigit c0 = none ∨ refDigit c1 = none → refDecode (before ++ [c0, c1]) = .err .invalidCharacter) ∧
    (∀ d0 d1, refDigit c0 = some d0 → refDigit c1 = some d1 → 0xFF < d0 + 45 * d1 →
      refDecode (before ++ [c0, c1]) = .err .invalidValue)

/-- R148 (a) (derived in the spec): decoding the encoding of a buffer gives it back. -/
def Obligations.DecodeOfEncodedBytes : Prop :=
  ∀ b : List Byte, refDecode ((refEncode b).map BitVec.toNat) = .ok b

/-- R148 (b) (derived in the spec): a string that decodes is the encoding of its bytes. -/
def Obligations.DecodableTextIsAnEncoding : Prop :=
  ∀ (codes : List Nat) (b : List Byte), refDecode codes = .ok b → codes = (refEncode b).map BitVec.toNat

/-- R114 (derived in the spec): from an idle encoder, when the beats transferred on `enc_in` are a framed buffer, at
any times and with any stalls, and the encoder is idle again, the beats transferred on `enc_out` are CHAR for each
character of `encode`, then END, and `enc_q` is 0. -/
def Obligations.EncoderRealisesEncode : Prop :=
  ∀ (s t : State) (k : Nat) (b : List Byte), encInReady s = true → noReset k s = true → runSteps k s = .next t →
    unframeBytes (collect encInXfer k s) = some b → encInReady t = true →
    collect encOutXfer k s = frameChars (refEncode b) ∧ (encInv s → t.encQ = 0#16)

/-- R147 (derived in the spec): from a fresh decoder, when the beats transferred on `dec_in` are a framed string, at
any times and with any stalls, and the decoder is ready again, the message on `dec_out` is one WORD for each triplet
before the first defect, the BYTE of a good trailing pair, and END; its result is that of `decode`; and the decoder is
fresh again. -/
def Obligations.DecoderRealisesDecode : Prop :=
  ∀ (s t : State) (k : Nat) (codes : List Byte), decFresh s → noReset k s = true → runSteps k s = .next t →
    unframeChars (collect decInXfer k s) = some codes → decInReady t = true →
    collect decOutXfer k s = decodeMessage (codes.map BitVec.toNat) ∧
    readResult (collect decOutXfer k s) = some (refDecode (codes.map BitVec.toNat)) ∧
    decFresh t

/-- R148, in hardware (derived in the spec): with `enc_out` wired to `dec_in`, a framed buffer comes back on `dec_out`
with status OK, beat for beat and field for field, the ignored bits of a SINGLE as 0 (log 17 on the wiring). -/
def Obligations.LoopbackReturnsTheBytes : Prop :=
  ∀ (s t : State) (k : Nat) (b : List Byte), encInReady s = true → decFresh s → noReset k s = true →
    throughout loopbackNow k s = true → runSteps k s = .next t →
    unframeBytes (collect encInXfer k s) = some b → encInReady t = true → decInReady t = true →
    collect decOutXfer k s = (frameBytes b).map (fun w => w.setWidth 20) ∧
    collect decOutXfer k s = (collect encInXfer k s).map (fun w => (clearIgnored w).setWidth 20) ∧
    readResult (collect decOutXfer k s) = some (.ok b)

/-- R55, R115 (derived in the spec): for every run without reset from every state, framed or not, what the encoder has
given its sink and still owes it is what it owed at the start and the output of each accepted beat, in order: nothing
is lost, added, reordered or dependent on the timing. -/
def Obligations.EncoderOutputIsItsInputsInOrder : Prop :=
  ∀ (s t : State) (k : Nat), noReset k s = true → runSteps k s = .next t →
    collect encOutXfer k s ++ encOwed t = encOwed s ++ (collect encInXfer k s).flatMap encBeatOutput

/-- R55 (derived in the spec): the output sequence of a unit is a function of its input sequence alone. Two runs of
different lengths, with different timing, that start from the same registers and end with nothing pending. -/
def Obligations.OutputsDoNotDependOnTiming : Prop :=
  ∀ (s1 s2 t1 t2 : State) (k1 k2 : Nat),
    noReset k1 s1 = true → noReset k2 s2 = true → runSteps k1 s1 = .next t1 → runSteps k2 s2 = .next t2 →
    (sameEncoder s1 s2 → collect encInXfer k1 s1 = collect encInXfer k2 s2 →
      encInReady t1 = true → encInReady t2 = true → collect encOutXfer k1 s1 = collect encOutXfer k2 s2) ∧
    (sameDecoder s1 s2 → collect decInXfer k1 s1 = collect decInXfer k2 s2 →
      decInReady t1 = true → decInReady t2 = true → collect decOutXfer k1 s1 = collect decOutXfer k2 s2)

/-- R52 (part of it the spec's own derivation): the messages of an input port are matched one for one, in order, by the
messages of the unit's output port. -/
def Obligations.MessagesAreMatchedInOrder : Prop :=
  ∀ (s t : State) (k : Nat) (msgs : List (List Byte)), noReset k s = true → runSteps k s = .next t →
    (encInReady s = true → encInReady t = true → collect encInXfer k s = msgs.flatMap frameBytes →
      collect encOutXfer k s = msgs.flatMap fun b => frameChars (refEncode b)) ∧
    (decFresh s → decInReady t = true → collect decInXfer k s = msgs.flatMap frameChars →
      collect decOutXfer k s = msgs.flatMap fun codes => decodeMessage (codes.map BitVec.toNat))

/-- R56: neither unit depends on the other. Two states that agree on one unit's registers and inputs step to states
that agree on them, whatever the other unit holds and sees. -/
def Obligations.UnitsDoNotInterfere : Prop :=
  ∀ s1 s2 t1 t2 : State, step s1 = .next t1 → step s2 = .next t2 →
    (sameEncoder s1 s2 → sameEncInputs (currentCycle s1) (currentCycle s2) → sameEncoder t1 t2) ∧
    (sameDecoder s1 s2 → sameDecInputs (currentCycle s1) (currentCycle s2) → sameDecoder t1 t2)

/-- R48 (part of it the spec's own derivation): no input of the cycle reaches an output, what a unit does not read has
no effect, a presented beat is held until it is taken, and `ready` stays 1 until an input transfer. -/
def Obligations.HandshakeHoldsStill : Prop :=
  ∀ s t : State, step s = .next t →
    (∀ ins : List CycleIn,
      encInReady { s with inputs := ins } = encInReady s ∧ encOutValid { s with inputs := ins } = encOutValid s ∧
      encOutWord { s with inputs := ins } = encOutWord s ∧ decInReady { s with inputs := ins } = decInReady s ∧
      decOutValid { s with inputs := ins } = decOutValid s ∧ decOutWord { s with inputs := ins } = decOutWord s) ∧
    (encInXfer s = none → encOutXfer s = none → (currentCycle s).rst = false → sameEncoder s t) ∧
    (decInXfer s = none → decOutXfer s = none → (currentCycle s).rst = false → sameDecoder s t) ∧
    (encOutValid s = true → encOutXfer s = none → (currentCycle s).rst = false →
      encOutValid t = true ∧ encOutWord t = encOutWord s) ∧
    (decOutValid s = true → decOutXfer s = none → (currentCycle s).rst = false →
      decOutValid t = true ∧ decOutWord t = decOutWord s) ∧
    (encInReady s = true → encInXfer s = none → (currentCycle s).rst = false → encInReady t = true) ∧
    (decInReady s = true → decInXfer s = none → (currentCycle s).rst = false → decInReady t = true)

/-- R53: framing is a bijection between buffers (strings) and well-framed messages, ignored bits apart. -/
def Obligations.FramingIsABijection : Prop :=
  (∀ b : List Byte, unframeBytes (frameBytes b) = some b) ∧
  (∀ (m : List Eiw) (b : List Byte), unframeBytes m = some b → m.map clearIgnored = frameBytes b) ∧
  (∀ m : List Eiw, (unframeBytes m).isSome = wfEncMessage (m.map decodeEiw)) ∧
  (∀ cs : List Byte, unframeChars (frameChars cs) = some cs) ∧
  (∀ (m : List Diw) (cs : List Byte), unframeChars m = some cs →
    ∃ x : Byte, m = cs.map (mkCharWord false) ++ [mkCharWord true x]) ∧
  (∀ m : List Diw, (unframeChars m).isSome = wfDecMessage (m.map decodeDiw))

/-- R57, R177 (part of it the spec's own derivation): when a unit has transferred the END beat of a message, every
register of it that is read before it is next written is 0, whatever the message was and whatever error it had. -/
def Obligations.NothingOfAMessageRemains : Prop :=
  ∀ (s t : State) (st : BitVec 2), Inv s →
    (exec .encoEnd s = .next t → t.encQ = 0#16 ∧ t.encCnt = 0#2 ∧ t.encEndp = false) ∧
    (exec (.decoEnd st) s = .next t →
      t.decAcc = 0#17 ∧ t.decPos = 0#2 ∧ t.decErr = 0#2 ∧ t.decOv = false ∧ t.decEndp = false)

/-- R151 (derived in the spec): the phases of the encoder and what leaves each one, for every cycle without reset. -/
def Obligations.EncoderPhases : Prop :=
  ∀ s t : State, Inv s → (currentCycle s).rst = false → step s = .next t →
    (encPhase s = .idle → encOutXfer s = none ∧
      (encInXfer s = none → encPhase t = .idle) ∧
      (∀ w h l, encInXfer s = some w → decodeEiw w = .encPair h l → encPhase t = .emit ∧ t.encCnt = 3#2) ∧
      (∀ w h l, encInXfer s = some w → decodeEiw w = .encSingle h l → encPhase t = .emit ∧ t.encCnt = 2#2) ∧
      (∀ w d, encInXfer s = some w → decodeEiw w = .encEnd d → encPhase t = .endp) ∧
      (∀ w d, encInXfer s = some w → decodeEiw w = .encRsvd3 d → encPhase t = .idle)) ∧
    (encPhase s = .emit → encInXfer s = none ∧
      (encOutXfer s = none → encPhase t = .emit) ∧
      (∀ w, encOutXfer s = some w → encPhase t = if s.encCnt = 1#2 then .idle else .emit)) ∧
    (encPhase s = .endp → encInXfer s = none ∧
      (encOutXfer s = none → encPhase t = .endp) ∧
      (∀ w, encOutXfer s = some w → encPhase t = .idle))

/-- R152 (derived in the spec): the phases of the decoder and what leaves each one, for every cycle without reset. -/
def Obligations.DecoderPhases : Prop :=
  ∀ s t : State, Inv s → (currentCycle s).rst = false → step s = .next t →
    (decPhase s = .idle → decOutXfer s = none ∧
      (decInXfer s = none → decPhase t = .idle) ∧
      (∀ w c, decInXfer s = some w → decodeDiw w = .decChar c →
        decPhase t =
          match refDigit c.toNat with
          | some g =>
            if s.decErr = 0#2 ∧ s.decPos = 2#2 ∧ s.decAcc.toNat + 2025 * g ≤ 0xFFFF then .data else .idle
          | none => .idle) ∧
      (∀ w x, decInXfer s = some w → decodeDiw w = .decEnd x → t.decEndp = true ∧
        decPhase t = if s.decErr = 0#2 ∧ s.decPos = 2#2 ∧ s.decAcc.toNat ≤ 0xFF then .data else .endp)) ∧
    (decPhase s = .data → decInXfer s = none ∧
      (decOutXfer s = none → decPhase t = .data) ∧
      (∀ w, decOutXfer s = some w → decPhase t = if s.decEndp then .endp else .idle)) ∧
    (decPhase s = .endp → decInXfer s = none ∧
      (decOutXfer s = none → decPhase t = .endp) ∧
      (∀ w, decOutXfer s = some w → decPhase t = .idle))

/-- R213 (derived in the spec): a unit whose sink takes as many beats as it owes is ready again and has delivered
exactly those, when its source is quiet; an accepted beat makes the encoder owe at most 3 and the decoder at most 2. -/
def Obligations.UnitsDrainWhenTheirSinksTake : Prop :=
  (∀ (s t : State) (k : Nat), noReset k s = true → runSteps k s = .next t →
    (throughout (fun u => !(currentCycle u).encInValid) k s = true →
      (encOwed s).length ≤ ((s.inputs.take k).filter fun c => c.encOutReady).length →
      encInReady t = true ∧ collect encOutXfer k s = encOwed s) ∧
    (throughout (fun u => !(currentCycle u).decInValid) k s = true →
      (decOwed s).length ≤ ((s.inputs.take k).filter fun c => c.decOutReady).length →
      decInReady t = true ∧ collect decOutXfer k s = decOwed s)) ∧
  (∀ (s t : State) (i : Instr), exec i s = .next t →
    (i.port = .encIn → encInReady s = true → (encOwed t).length ≤ 3) ∧
    (i.port = .decIn → decInReady s = true → (decOwed t).length ≤ 2))

/-- R216, the reference sequencing's cycle counts (not normative, log 12), and with them that a message completes: a
source that always offers its next beat and a sink that is always ready. -/
def Obligations.MessagesCompleteInTheStatedCycles : Prop :=
  (∀ (s : State) (b : List Byte) (k : Nat), k = 4 * (b.length / 2) + 3 * (b.length % 2) + 2 →
    encInReady s = true → noReset k s = true → eagerEncEnv k (frameBytes b) s = true →
    ∃ t : State, runSteps k s = .next t ∧ encInReady t = true ∧ collect encInXfer k s = frameBytes b ∧
      collect encOutXfer k s = frameChars (refEncode b)) ∧
  (∀ (s : State) (codes : List Byte) (bytes : List Byte) (k : Nat),
    refDecode (codes.map BitVec.toNat) = .ok bytes →
    k = codes.length + codes.length / 3 + 2 + (if codes.length % 3 = 2 then 1 else 0) →
    decFresh s → noReset k s = true → eagerDecEnv k (frameChars codes) s = true →
    ∃ t : State, runSteps k s = .next t ∧ decFresh t ∧ collect decInXfer k s = frameChars codes ∧
      readResult (collect decOutXfer k s) = some (.ok bytes))

/-- R218: a system with wider characters that presents each code below 256 as it is and each code of 256 or more as any
code for which `INV` gives INVALID leaves the result of every string what `decode` makes it; 0xFF and 0x00 are such
codes; truncation would accept 0x0130 as `'0'`. -/
def Obligations.WideCodesNarrowWithoutChange : Prop :=
  (∀ (f : Nat → Byte) (codes : List Nat),
    (∀ c, c < 256 → f c = BitVec.ofNat 8 c) → (∀ c, 256 ≤ c → invAt (f c) = none) →
    refDecode (codes.map fun c => (f c).toNat) = refDecode codes) ∧
  invAt 0xFF#8 = none ∧ invAt 0x00#8 = none ∧
  refDigit 0x0130 = none ∧ refDigit (BitVec.ofNat 8 0x0130).toNat = some 0

/-- R88: the expansions of the pseudo-instructions, and the rule's examples. -/
def Obligations.PseudoInstructionsExpand : Prop :=
  assembleLine (.msgb [0x41, 0x42]) = [0x24142, 0x00000] ∧
  assembleLine (.msgs [0x42, 0x42, 0x38]) = [0x042, 0x042, 0x038, 0x100] ∧
  assembleLine (.msgb []) = assembleLine .endBytes ∧ assembleLine .nopbeat = assembleLine .rsvd3 ∧
  (∀ b0 b1 rest, assembleLine (.msgb (b0 :: b1 :: rest)) = assembleLine (.pair b0 b1) ++ assembleLine (.msgb rest)) ∧
  (∀ b, assembleLine (.msgb [b]) = assembleLine (.single b) ++ assembleLine .endBytes) ∧
  (∀ c rest, assembleLine (.msgs (c :: rest)) = assembleLine (.char c) ++ assembleLine (.msgs rest)) ∧
  assembleLine (.msgs []) = assembleLine .endChars
end

