-- ==== Sys2Proof/Laws/Decode.lean ====
section
/-! SUPPORT. The fields of the words the encoder writes, and the words rebuilt from their fields, all by way of the
number a concatenation stands for. -/

namespace Sys2Proof

/-- A concatenation as a number: the first operand is the more significant (00_scope.md R7). -/
theorem toNat_append_eq {v w : Nat} (x : BitVec v) (y : BitVec w) :
    (x ++ y).toNat = x.toNat * 2 ^ w + y.toNat := by
  rw [BitVec.toNat_append, ← Nat.shiftLeft_add_eq_or_of_lt y.isLt, Nat.shiftLeft_eq]

/-- A field as a number. -/
theorem toNat_field {n : Nat} (start len : Nat) (x : BitVec n) :
    (x.extractLsb' start len).toNat = x.toNat / 2 ^ start % 2 ^ len := by
  rw [BitVec.extractLsb'_toNat, Nat.shiftRight_eq_div_pow]

theorem toNat_mkEiw (op : BitVec 2) (d : BitVec 16) : (mkEiw op d).toNat = op.toNat * 65536 + d.toNat :=
  toNat_append_eq op d

theorem toNat_joinBytes (h l : Byte) : (joinBytes h l).toNat = h.toNat * 256 + l.toNat :=
  toNat_append_eq h l

theorem toNat_mkCharWord (e : Bool) (c : Byte) : (mkCharWord e c).toNat = e.toNat * 256 + c.toNat := by
  have h := toNat_append_eq (BitVec.ofBool e) c
  rw [BitVec.toNat_ofBool] at h
  exact h

theorem toNat_mkDow (st op : BitVec 2) (d : BitVec 16) :
    (mkDow st op d).toNat = st.toNat * 262144 + op.toNat * 65536 + d.toNat := by
  have h := toNat_append_eq (st ++ op) d
  rw [toNat_append_eq st op] at h
  exact h.trans (by omega)

theorem toNat_eiwOp (w : Eiw) : (eiwOp w).toNat = w.toNat / 65536 := by
  have h := toNat_field 16 2 w
  have hw := w.isLt
  rw [eiwOp, h]
  omega

theorem toNat_eiwData (w : Eiw) : (eiwData w).toNat = w.toNat % 65536 := by
  rw [eiwData, toNat_field 0 16 w]
  omega

theorem toNat_eiwHi (w : Eiw) : (eiwHi w).toNat = w.toNat / 256 % 256 := toNat_field 8 8 w

theorem toNat_eiwLo (w : Eiw) : (eiwLo w).toNat = w.toNat % 256 := by
  rw [eiwLo, toNat_field 0 8 w]
  omega

theorem toNat_charWordChar (w : BitVec 9) : (charWordChar w).toNat = w.toNat % 256 := by
  rw [charWordChar, toNat_field 0 8 w]
  omega

theorem charWordEnd_iff (w : BitVec 9) : charWordEnd w = true ↔ 256 ≤ w.toNat := by
  have hw := w.isLt
  rw [charWordEnd, BitVec.getLsbD, Nat.testBit_eq_decide_div_mod_eq, decide_eq_true_iff]
  omega

theorem toNat_dowStatus (w : Dow) : (dowStatus w).toNat = w.toNat / 262144 := by
  have hw := w.isLt
  rw [dowStatus, toNat_field 18 2 w]
  omega

theorem toNat_dowOp (w : Dow) : (dowOp w).toNat = w.toNat / 65536 % 4 := toNat_field 16 2 w

theorem toNat_dowHi (w : Dow) : (dowHi w).toNat = w.toNat / 256 % 256 := toNat_field 8 8 w

theorem toNat_dowLo (w : Dow) : (dowLo w).toNat = w.toNat % 256 := by
  rw [dowLo, toNat_field 0 8 w]
  omega

@[simp] theorem eiwOp_mkEiw (op : BitVec 2) (d : BitVec 16) : eiwOp (mkEiw op d) = op := by
  apply BitVec.eq_of_toNat_eq
  have := d.isLt
  rw [toNat_eiwOp, toNat_mkEiw]
  omega

@[simp] theorem eiwData_mkEiw (op : BitVec 2) (d : BitVec 16) : eiwData (mkEiw op d) = d := by
  apply BitVec.eq_of_toNat_eq
  have := d.isLt
  rw [toNat_eiwData, toNat_mkEiw]
  omega

@[simp] theorem eiwHi_mkEiw_joinBytes (op : BitVec 2) (h l : Byte) : eiwHi (mkEiw op (joinBytes h l)) = h := by
  apply BitVec.eq_of_toNat_eq
  have := h.isLt
  have := l.isLt
  rw [toNat_eiwHi, toNat_mkEiw, toNat_joinBytes]
  omega

@[simp] theorem eiwLo_mkEiw_joinBytes (op : BitVec 2) (h l : Byte) : eiwLo (mkEiw op (joinBytes h l)) = l := by
  apply BitVec.eq_of_toNat_eq
  have := l.isLt
  rw [toNat_eiwLo, toNat_mkEiw, toNat_joinBytes]
  omega

@[simp] theorem charWordEnd_mkCharWord (e : Bool) (c : Byte) : charWordEnd (mkCharWord e c) = e := by
  have hc := c.isLt
  have h := charWordEnd_iff (mkCharWord e c)
  rw [toNat_mkCharWord] at h
  cases e
  · rw [Bool.eq_false_iff, Ne, h]
    simp only [Bool.toNat_false]
    omega
  · rw [h]
    simp only [Bool.toNat_true]
    omega

@[simp] theorem charWordChar_mkCharWord (e : Bool) (c : Byte) : charWordChar (mkCharWord e c) = c := by
  apply BitVec.eq_of_toNat_eq
  have := c.isLt
  rw [toNat_charWordChar, toNat_mkCharWord]
  omega

@[simp] theorem dowStatus_mkDow (st op : BitVec 2) (d : BitVec 16) : dowStatus (mkDow st op d) = st := by
  apply BitVec.eq_of_toNat_eq
  have := d.isLt
  have := op.isLt
  rw [toNat_dowStatus, toNat_mkDow]
  omega

@[simp] theorem dowOp_mkDow (st op : BitVec 2) (d : BitVec 16) : dowOp (mkDow st op d) = op := by
  apply BitVec.eq_of_toNat_eq
  have := d.isLt
  have := op.isLt
  rw [toNat_dowOp, toNat_mkDow]
  omega

@[simp] theorem dowHi_mkDow_joinBytes (st op : BitVec 2) (h l : Byte) : dowHi (mkDow st op (joinBytes h l)) = h := by
  apply BitVec.eq_of_toNat_eq
  have := h.isLt
  have := l.isLt
  rw [toNat_dowHi, toNat_mkDow, toNat_joinBytes]
  omega

@[simp] theorem dowLo_mkDow_joinBytes (st op : BitVec 2) (h l : Byte) : dowLo (mkDow st op (joinBytes h l)) = l := by
  apply BitVec.eq_of_toNat_eq
  have := l.isLt
  rw [toNat_dowLo, toNat_mkDow, toNat_joinBytes]
  omega

/-- A word is its fields put together (R70). -/
theorem mkEiw_fields (w : Eiw) : mkEiw (eiwOp w) (eiwData w) = w := by
  apply BitVec.eq_of_toNat_eq
  have := w.isLt
  rw [toNat_mkEiw, toNat_eiwOp, toNat_eiwData]
  omega

/-- The data of a word is its two bytes (R70, 20_memory.md R44). -/
theorem joinBytes_eiw (w : Eiw) : joinBytes (eiwHi w) (eiwLo w) = eiwData w := by
  apply BitVec.eq_of_toNat_eq
  rw [toNat_joinBytes, toNat_eiwHi, toNat_eiwLo, toNat_eiwData]
  omega

/-- A word is its fields put together (R70). -/
theorem mkCharWord_fields (w : BitVec 9) : mkCharWord (charWordEnd w) (charWordChar w) = w := by
  apply BitVec.eq_of_toNat_eq
  have hw := w.isLt
  have h := charWordEnd_iff w
  rw [toNat_mkCharWord, toNat_charWordChar]
  cases hE : charWordEnd w
  · rw [hE] at h
    simp only [Bool.false_eq_true, false_iff] at h
    simp only [Bool.toNat_false]
    omega
  · rw [hE] at h
    simp only [true_iff] at h
    simp only [Bool.toNat_true]
    omega

/-- A word is its fields put together (R70). -/
theorem mkDow_fields (w : Dow) : mkDow (dowStatus w) (dowOp w) (joinBytes (dowHi w) (dowLo w)) = w := by
  apply BitVec.eq_of_toNat_eq
  have := w.isLt
  rw [toNat_mkDow, toNat_joinBytes, toNat_dowStatus, toNat_dowOp, toNat_dowHi, toNat_dowLo]
  omega

end Sys2Proof
end

