-- ==== Sys2Proof/Laws/State.lean ====
section
/-! SUPPORT. One lemma per field per update, so that no proof unfolds a record update. -/

namespace Sys2Proof.Machine

variable (s : State)

@[simp] theorem loadGroup_encQ (d : BitVec 16) (n : BitVec 2) : (loadGroup d n s).encQ = d := rfl
@[simp] theorem loadGroup_encCnt (d : BitVec 16) (n : BitVec 2) : (loadGroup d n s).encCnt = n := rfl
@[simp] theorem loadGroup_encEndp (d : BitVec 16) (n : BitVec 2) : (loadGroup d n s).encEndp = s.encEndp := rfl
@[simp] theorem loadGroup_decAcc (d : BitVec 16) (n : BitVec 2) : (loadGroup d n s).decAcc = s.decAcc := rfl
@[simp] theorem loadGroup_decPos (d : BitVec 16) (n : BitVec 2) : (loadGroup d n s).decPos = s.decPos := rfl
@[simp] theorem loadGroup_decErr (d : BitVec 16) (n : BitVec 2) : (loadGroup d n s).decErr = s.decErr := rfl
@[simp] theorem loadGroup_decOv (d : BitVec 16) (n : BitVec 2) : (loadGroup d n s).decOv = s.decOv := rfl
@[simp] theorem loadGroup_decOop (d : BitVec 16) (n : BitVec 2) : (loadGroup d n s).decOop = s.decOop := rfl
@[simp] theorem loadGroup_decOd (d : BitVec 16) (n : BitVec 2) : (loadGroup d n s).decOd = s.decOd := rfl
@[simp] theorem loadGroup_decEndp (d : BitVec 16) (n : BitVec 2) : (loadGroup d n s).decEndp = s.decEndp := rfl
@[simp] theorem loadGroup_decEst (d : BitVec 16) (n : BitVec 2) : (loadGroup d n s).decEst = s.decEst := rfl
@[simp] theorem loadGroup_inputs (d : BitVec 16) (n : BitVec 2) : (loadGroup d n s).inputs = s.inputs := rfl

@[simp] theorem openEncEnd_encQ : (openEncEnd s).encQ = s.encQ := rfl
@[simp] theorem openEncEnd_encCnt : (openEncEnd s).encCnt = s.encCnt := rfl
@[simp] theorem openEncEnd_encEndp : (openEncEnd s).encEndp = true := rfl
@[simp] theorem openEncEnd_decAcc : (openEncEnd s).decAcc = s.decAcc := rfl
@[simp] theorem openEncEnd_decPos : (openEncEnd s).decPos = s.decPos := rfl
@[simp] theorem openEncEnd_decErr : (openEncEnd s).decErr = s.decErr := rfl
@[simp] theorem openEncEnd_decOv : (openEncEnd s).decOv = s.decOv := rfl
@[simp] theorem openEncEnd_decOop : (openEncEnd s).decOop = s.decOop := rfl
@[simp] theorem openEncEnd_decOd : (openEncEnd s).decOd = s.decOd := rfl
@[simp] theorem openEncEnd_decEndp : (openEncEnd s).decEndp = s.decEndp := rfl
@[simp] theorem openEncEnd_decEst : (openEncEnd s).decEst = s.decEst := rfl
@[simp] theorem openEncEnd_inputs : (openEncEnd s).inputs = s.inputs := rfl

@[simp] theorem radixStep_encQ : (radixStep s).encQ = nextQuotient s.encQ := rfl
@[simp] theorem radixStep_encCnt : (radixStep s).encCnt = s.encCnt - 1#2 := rfl
@[simp] theorem radixStep_encEndp : (radixStep s).encEndp = s.encEndp := rfl
@[simp] theorem radixStep_decAcc : (radixStep s).decAcc = s.decAcc := rfl
@[simp] theorem radixStep_decPos : (radixStep s).decPos = s.decPos := rfl
@[simp] theorem radixStep_decErr : (radixStep s).decErr = s.decErr := rfl
@[simp] theorem radixStep_decOv : (radixStep s).decOv = s.decOv := rfl
@[simp] theorem radixStep_decOop : (radixStep s).decOop = s.decOop := rfl
@[simp] theorem radixStep_decOd : (radixStep s).decOd = s.decOd := rfl
@[simp] theorem radixStep_decEndp : (radixStep s).decEndp = s.decEndp := rfl
@[simp] theorem radixStep_decEst : (radixStep s).decEst = s.decEst := rfl
@[simp] theorem radixStep_inputs : (radixStep s).inputs = s.inputs := rfl

@[simp] theorem takeEncEnd_encQ : (takeEncEnd s).encQ = s.encQ := rfl
@[simp] theorem takeEncEnd_encCnt : (takeEncEnd s).encCnt = s.encCnt := rfl
@[simp] theorem takeEncEnd_encEndp : (takeEncEnd s).encEndp = false := rfl
@[simp] theorem takeEncEnd_decAcc : (takeEncEnd s).decAcc = s.decAcc := rfl
@[simp] theorem takeEncEnd_decPos : (takeEncEnd s).decPos = s.decPos := rfl
@[simp] theorem takeEncEnd_decErr : (takeEncEnd s).decErr = s.decErr := rfl
@[simp] theorem takeEncEnd_decOv : (takeEncEnd s).decOv = s.decOv := rfl
@[simp] theorem takeEncEnd_decOop : (takeEncEnd s).decOop = s.decOop := rfl
@[simp] theorem takeEncEnd_decOd : (takeEncEnd s).decOd = s.decOd := rfl
@[simp] theorem takeEncEnd_decEndp : (takeEncEnd s).decEndp = s.decEndp := rfl
@[simp] theorem takeEncEnd_decEst : (takeEncEnd s).decEst = s.decEst := rfl
@[simp] theorem takeEncEnd_inputs : (takeEncEnd s).inputs = s.inputs := rfl

@[simp] theorem advancePos_encQ : (advancePos s).encQ = s.encQ := rfl
@[simp] theorem advancePos_encCnt : (advancePos s).encCnt = s.encCnt := rfl
@[simp] theorem advancePos_encEndp : (advancePos s).encEndp = s.encEndp := rfl
@[simp] theorem advancePos_decAcc : (advancePos s).decAcc = s.decAcc := rfl
@[simp] theorem advancePos_decPos : (advancePos s).decPos = nextPos s.decPos := rfl
@[simp] theorem advancePos_decErr : (advancePos s).decErr = s.decErr := rfl
@[simp] theorem advancePos_decOv : (advancePos s).decOv = s.decOv := rfl
@[simp] theorem advancePos_decOop : (advancePos s).decOop = s.decOop := rfl
@[simp] theorem advancePos_decOd : (advancePos s).decOd = s.decOd := rfl
@[simp] theorem advancePos_decEndp : (advancePos s).decEndp = s.decEndp := rfl
@[simp] theorem advancePos_decEst : (advancePos s).decEst = s.decEst := rfl
@[simp] theorem advancePos_inputs : (advancePos s).inputs = s.inputs := rfl

@[simp] theorem setAcc_encQ (a : BitVec 17) : (setAcc a s).encQ = s.encQ := rfl
@[simp] theorem setAcc_encCnt (a : BitVec 17) : (setAcc a s).encCnt = s.encCnt := rfl
@[simp] theorem setAcc_encEndp (a : BitVec 17) : (setAcc a s).encEndp = s.encEndp := rfl
@[simp] theorem setAcc_decAcc (a : BitVec 17) : (setAcc a s).decAcc = a := rfl
@[simp] theorem setAcc_decPos (a : BitVec 17) : (setAcc a s).decPos = s.decPos := rfl
@[simp] theorem setAcc_decErr (a : BitVec 17) : (setAcc a s).decErr = s.decErr := rfl
@[simp] theorem setAcc_decOv (a : BitVec 17) : (setAcc a s).decOv = s.decOv := rfl
@[simp] theorem setAcc_decOop (a : BitVec 17) : (setAcc a s).decOop = s.decOop := rfl
@[simp] theorem setAcc_decOd (a : BitVec 17) : (setAcc a s).decOd = s.decOd := rfl
@[simp] theorem setAcc_decEndp (a : BitVec 17) : (setAcc a s).decEndp = s.decEndp := rfl
@[simp] theorem setAcc_decEst (a : BitVec 17) : (setAcc a s).decEst = s.decEst := rfl
@[simp] theorem setAcc_inputs (a : BitVec 17) : (setAcc a s).inputs = s.inputs := rfl

@[simp] theorem recordError_encQ (k : ErrorKind) : (recordError k s).encQ = s.encQ := rfl
@[simp] theorem recordError_encCnt (k : ErrorKind) : (recordError k s).encCnt = s.encCnt := rfl
@[simp] theorem recordError_encEndp (k : ErrorKind) : (recordError k s).encEndp = s.encEndp := rfl
@[simp] theorem recordError_decAcc (k : ErrorKind) : (recordError k s).decAcc = s.decAcc := rfl
@[simp] theorem recordError_decPos (k : ErrorKind) : (recordError k s).decPos = s.decPos := rfl
@[simp] theorem recordError_decErr (k : ErrorKind) : (recordError k s).decErr = errCode k := rfl
@[simp] theorem recordError_decOv (k : ErrorKind) : (recordError k s).decOv = s.decOv := rfl
@[simp] theorem recordError_decOop (k : ErrorKind) : (recordError k s).decOop = s.decOop := rfl
@[simp] theorem recordError_decOd (k : ErrorKind) : (recordError k s).decOd = s.decOd := rfl
@[simp] theorem recordError_decEndp (k : ErrorKind) : (recordError k s).decEndp = s.decEndp := rfl
@[simp] theorem recordError_decEst (k : ErrorKind) : (recordError k s).decEst = s.decEst := rfl
@[simp] theorem recordError_inputs (k : ErrorKind) : (recordError k s).inputs = s.inputs := rfl

@[simp] theorem stageData_encQ (op : BitVec 2) (d : BitVec 16) : (stageData op d s).encQ = s.encQ := rfl
@[simp] theorem stageData_encCnt (op : BitVec 2) (d : BitVec 16) : (stageData op d s).encCnt = s.encCnt := rfl
@[simp] theorem stageData_encEndp (op : BitVec 2) (d : BitVec 16) : (stageData op d s).encEndp = s.encEndp := rfl
@[simp] theorem stageData_decAcc (op : BitVec 2) (d : BitVec 16) : (stageData op d s).decAcc = s.decAcc := rfl
@[simp] theorem stageData_decPos (op : BitVec 2) (d : BitVec 16) : (stageData op d s).decPos = s.decPos := rfl
@[simp] theorem stageData_decErr (op : BitVec 2) (d : BitVec 16) : (stageData op d s).decErr = s.decErr := rfl
@[simp] theorem stageData_decOv (op : BitVec 2) (d : BitVec 16) : (stageData op d s).decOv = true := rfl
@[simp] theorem stageData_decOop (op : BitVec 2) (d : BitVec 16) : (stageData op d s).decOop = op := rfl
@[simp] theorem stageData_decOd (op : BitVec 2) (d : BitVec 16) : (stageData op d s).decOd = d := rfl
@[simp] theorem stageData_decEndp (op : BitVec 2) (d : BitVec 16) : (stageData op d s).decEndp = s.decEndp := rfl
@[simp] theorem stageData_decEst (op : BitVec 2) (d : BitVec 16) : (stageData op d s).decEst = s.decEst := rfl
@[simp] theorem stageData_inputs (op : BitVec 2) (d : BitVec 16) : (stageData op d s).inputs = s.inputs := rfl

@[simp] theorem takeData_encQ : (takeData s).encQ = s.encQ := rfl
@[simp] theorem takeData_encCnt : (takeData s).encCnt = s.encCnt := rfl
@[simp] theorem takeData_encEndp : (takeData s).encEndp = s.encEndp := rfl
@[simp] theorem takeData_decAcc : (takeData s).decAcc = s.decAcc := rfl
@[simp] theorem takeData_decPos : (takeData s).decPos = s.decPos := rfl
@[simp] theorem takeData_decErr : (takeData s).decErr = s.decErr := rfl
@[simp] theorem takeData_decOv : (takeData s).decOv = false := rfl
@[simp] theorem takeData_decOop : (takeData s).decOop = s.decOop := rfl
@[simp] theorem takeData_decOd : (takeData s).decOd = s.decOd := rfl
@[simp] theorem takeData_decEndp : (takeData s).decEndp = s.decEndp := rfl
@[simp] theorem takeData_decEst : (takeData s).decEst = s.decEst := rfl
@[simp] theorem takeData_inputs : (takeData s).inputs = s.inputs := rfl

@[simp] theorem closeMessage_encQ (st : BitVec 2) : (closeMessage st s).encQ = s.encQ := rfl
@[simp] theorem closeMessage_encCnt (st : BitVec 2) : (closeMessage st s).encCnt = s.encCnt := rfl
@[simp] theorem closeMessage_encEndp (st : BitVec 2) : (closeMessage st s).encEndp = s.encEndp := rfl
@[simp] theorem closeMessage_decAcc (st : BitVec 2) : (closeMessage st s).decAcc = 0#17 := rfl
@[simp] theorem closeMessage_decPos (st : BitVec 2) : (closeMessage st s).decPos = 0#2 := rfl
@[simp] theorem closeMessage_decErr (st : BitVec 2) : (closeMessage st s).decErr = 0#2 := rfl
@[simp] theorem closeMessage_decOv (st : BitVec 2) : (closeMessage st s).decOv = s.decOv := rfl
@[simp] theorem closeMessage_decOop (st : BitVec 2) : (closeMessage st s).decOop = s.decOop := rfl
@[simp] theorem closeMessage_decOd (st : BitVec 2) : (closeMessage st s).decOd = s.decOd := rfl
@[simp] theorem closeMessage_decEndp (st : BitVec 2) : (closeMessage st s).decEndp = true := rfl
@[simp] theorem closeMessage_decEst (st : BitVec 2) : (closeMessage st s).decEst = st := rfl
@[simp] theorem closeMessage_inputs (st : BitVec 2) : (closeMessage st s).inputs = s.inputs := rfl

@[simp] theorem takeDecEnd_encQ : (takeDecEnd s).encQ = s.encQ := rfl
@[simp] theorem takeDecEnd_encCnt : (takeDecEnd s).encCnt = s.encCnt := rfl
@[simp] theorem takeDecEnd_encEndp : (takeDecEnd s).encEndp = s.encEndp := rfl
@[simp] theorem takeDecEnd_decAcc : (takeDecEnd s).decAcc = s.decAcc := rfl
@[simp] theorem takeDecEnd_decPos : (takeDecEnd s).decPos = s.decPos := rfl
@[simp] theorem takeDecEnd_decErr : (takeDecEnd s).decErr = s.decErr := rfl
@[simp] theorem takeDecEnd_decOv : (takeDecEnd s).decOv = s.decOv := rfl
@[simp] theorem takeDecEnd_decOop : (takeDecEnd s).decOop = s.decOop := rfl
@[simp] theorem takeDecEnd_decOd : (takeDecEnd s).decOd = s.decOd := rfl
@[simp] theorem takeDecEnd_decEndp : (takeDecEnd s).decEndp = false := rfl
@[simp] theorem takeDecEnd_decEst : (takeDecEnd s).decEst = s.decEst := rfl
@[simp] theorem takeDecEnd_inputs : (takeDecEnd s).inputs = s.inputs := rfl

@[simp] theorem clearRegisters_encQ : (clearRegisters s).encQ = 0#16 := rfl
@[simp] theorem clearRegisters_encCnt : (clearRegisters s).encCnt = 0#2 := rfl
@[simp] theorem clearRegisters_encEndp : (clearRegisters s).encEndp = false := rfl
@[simp] theorem clearRegisters_decAcc : (clearRegisters s).decAcc = 0#17 := rfl
@[simp] theorem clearRegisters_decPos : (clearRegisters s).decPos = 0#2 := rfl
@[simp] theorem clearRegisters_decErr : (clearRegisters s).decErr = 0#2 := rfl
@[simp] theorem clearRegisters_decOv : (clearRegisters s).decOv = false := rfl
@[simp] theorem clearRegisters_decOop : (clearRegisters s).decOop = 0#2 := rfl
@[simp] theorem clearRegisters_decOd : (clearRegisters s).decOd = 0#16 := rfl
@[simp] theorem clearRegisters_decEndp : (clearRegisters s).decEndp = false := rfl
@[simp] theorem clearRegisters_decEst : (clearRegisters s).decEst = 0#2 := rfl
@[simp] theorem clearRegisters_inputs : (clearRegisters s).inputs = s.inputs := rfl

@[simp] theorem popCycle_encQ : (popCycle s).encQ = s.encQ := rfl
@[simp] theorem popCycle_encCnt : (popCycle s).encCnt = s.encCnt := rfl
@[simp] theorem popCycle_encEndp : (popCycle s).encEndp = s.encEndp := rfl
@[simp] theorem popCycle_decAcc : (popCycle s).decAcc = s.decAcc := rfl
@[simp] theorem popCycle_decPos : (popCycle s).decPos = s.decPos := rfl
@[simp] theorem popCycle_decErr : (popCycle s).decErr = s.decErr := rfl
@[simp] theorem popCycle_decOv : (popCycle s).decOv = s.decOv := rfl
@[simp] theorem popCycle_decOop : (popCycle s).decOop = s.decOop := rfl
@[simp] theorem popCycle_decOd : (popCycle s).decOd = s.decOd := rfl
@[simp] theorem popCycle_decEndp : (popCycle s).decEndp = s.decEndp := rfl
@[simp] theorem popCycle_decEst : (popCycle s).decEst = s.decEst := rfl
@[simp] theorem popCycle_inputs : (popCycle s).inputs = s.inputs.tail := rfl

end Sys2Proof.Machine
end

