-- ==== Sys2Proof/Laws/Ops.lean ====
section
/-! SUPPORT. What each shared operation can do, said once: the arithmetic, the ports, the gates through which every
meaning answers, and the cases of a character and of an END beat. -/

namespace Sys2Proof.Machine

@[simp] theorem toNat_pairValue (hi lo : Byte) : (pairValue hi lo).toNat = hi.toNat * 256 + lo.toNat :=
  toNat_joinBytes hi lo

@[simp] theorem toNat_singleValue (lo : Byte) : (singleValue lo).toNat = lo.toNat := by
  have := lo.isLt
  simp only [singleValue, BitVec.toNat_setWidth]
  omega

@[simp] theorem quotientDigit_val (q : BitVec 16) : (quotientDigit q).val = q.toNat % 45 := rfl

/-- The radix step divides exactly: nothing wraps (40_encoder.md R106). -/
@[simp] theorem toNat_nextQuotient (q : BitVec 16) : (nextQuotient q).toNat = q.toNat / 45 := by
  have := q.isLt
  simp only [nextQuotient, Config.radix, BitVec.toNat_ofNat]
  omega

@[simp] theorem toNat_accOfDigit (g : Digit) : (accOfDigit g).toNat = g.val := by
  have := g.isLt
  simp only [accOfDigit, BitVec.toNat_ofNat]
  omega

/-- The second digit's sum fits 17 bits whenever the first digit's accumulator is a digit (41_decoder.md R136). -/
theorem toNat_accAddSecond {acc : BitVec 17} (g : Digit) (h : acc.toNat ≤ 44) :
    (accAddSecond acc g).toNat = acc.toNat + 45 * g.val := by
  have := g.isLt
  simp only [accAddSecond, Config.radix, BitVec.toNat_ofNat]
  omega

theorem tripletValue_eq (acc : BitVec 17) (g : Digit) : tripletValue acc g = acc.toNat + 2025 * g.val := rfl

theorem tripletOverflows_iff (v : Nat) : tripletOverflows v = true ↔ 0xFFFF < v := by
  exact decide_eq_true_iff

theorem pairOverflows_iff (acc : BitVec 17) : pairOverflows acc = true ↔ 0xFF < acc.toNat := by
  exact decide_eq_true_iff

theorem toNat_wordOfValue {v : Nat} (h : v ≤ 0xFFFF) : (wordOfValue v).toNat = v := by
  simp only [wordOfValue, BitVec.toNat_ofNat]
  omega

theorem toNat_byteOfAcc {acc : BitVec 17} (h : acc.toNat ≤ 0xFF) : (byteOfAcc acc).toNat = acc.toNat := by
  simp only [byteOfAcc, BitVec.toNat_setWidth, toNat_field]
  omega

@[simp] theorem toNat_nextPos (pos : BitVec 2) : (nextPos pos).toNat = (pos.toNat + 1) % 3 := by
  simp only [nextPos, BitVec.toNat_ofNat]
  omega

theorem encInReady_iff (s : State) : encInReady s = true ↔ s.encCnt = 0#2 ∧ s.encEndp = false := by
  simp [encInReady]

theorem decInReady_iff (s : State) : decInReady s = true ↔ s.decOv = false ∧ s.decEndp = false := by
  simp [decInReady]

theorem encOutValid_eq (s : State) : encOutValid s = !encInReady s := by
  by_cases h : s.encCnt = 0#2 <;> simp [encOutValid, encInReady, h]

theorem decOutValid_eq (s : State) : decOutValid s = !decInReady s := by
  simp [decOutValid, decInReady]

/-- What the gate of `enc_in` can answer. -/
theorem acceptEnc_next {f : State → State} {s t : State} (h : acceptEnc f s = .next t) :
    (encInReady s = true ∧ t = f s) ∨ (encInReady s = false ∧ t = s) := by
  simp only [acceptEnc, Host.Outcome.next.injEq] at h
  cases hr : encInReady s <;> simp_all

/-- What the gate of `dec_in` can answer. -/
theorem acceptDec_next {f : State → State} {s t : State} (h : acceptDec f s = .next t) :
    (decInReady s = true ∧ t = f s) ∨ (decInReady s = false ∧ t = s) := by
  simp only [acceptDec, Host.Outcome.next.injEq] at h
  cases hr : decInReady s <;> simp_all

/-- What taking a beat from `enc_out` can answer. -/
theorem produceEnc_next {i : Instr} {f : State → State} {s t : State} (h : produceEnc i f s = .next t) :
    encPresented s = some i ∧ t = f s := by
  unfold produceEnc at h
  split at h
  · exact ⟨‹_›, (Host.Outcome.next.inj h).symm⟩
  · cases h

/-- What taking a beat from `dec_out` can answer. -/
theorem produceDec_next {i : Instr} {f : State → State} {s t : State} (h : produceDec i f s = .next t) :
    decPresented s = some i ∧ t = f s := by
  unfold produceDec at h
  split at h
  · exact ⟨‹_›, (Host.Outcome.next.inj h).symm⟩
  · cases h

/-- A chain answers a next state only through a next state of its first part. -/
theorem andThen_next {r : Answer} {f : State → Answer} {t : State} (h : andThen r f = .next t) :
    ∃ u, r = .next u ∧ f u = .next t := by
  cases r with
  | next u => exact ⟨u, rfl, h⟩
  | fault e => cases h
  | refused e => cases h

@[simp] theorem andThen_of_next (s : State) (f : State → Answer) : andThen (.next s) f = f s := rfl

/-- What the encoder presents, by its registers. -/
theorem encPresented_cases {s : State} {i : Instr} (h : encPresented s = some i) :
    (s.encCnt ≠ 0#2 ∧ i = .encoChar (encOutChar s)) ∨ (s.encCnt = 0#2 ∧ s.encEndp = true ∧ i = .encoEnd) := by
  unfold encPresented at h
  split at h
  · exact .inl ⟨‹_›, (Option.some.inj h).symm⟩
  · split at h
    · exact .inr ⟨by simp_all, ‹_›, (Option.some.inj h).symm⟩
    · cases h

/-- What the decoder presents, by its registers. -/
theorem decPresented_cases {s : State} {i : Instr} (h : decPresented s = some i) :
    (s.decOv = true ∧ s.decOop = oopWord ∧ i = .decoWord (highByte s.decOd) (lowByte s.decOd)) ∨
    (s.decOv = true ∧ s.decOop = oopByte ∧ highByte s.decOd = 0#8 ∧ i = .decoByte (lowByte s.decOd)) ∨
    (s.decOv = false ∧ s.decEndp = true ∧ i = .decoEnd s.decEst) := by
  unfold decPresented at h
  split at h
  · split at h
    · exact .inl ⟨‹_›, ‹_›, (Option.some.inj h).symm⟩
    · split at h
      · rename_i hb
        exact .inr (.inl ⟨‹_›, hb.1, hb.2, (Option.some.inj h).symm⟩)
      · cases h
  · split at h
    · exact .inr (.inr ⟨by simp_all, ‹_›, (Option.some.inj h).symm⟩)
    · cases h

/-- The five cases of a character (41_decoder.md R137). -/
theorem takeChar_cases (c : Byte) (s : State) :
    (s.decErr ≠ 0#2 ∧ takeChar c s = advancePos s) ∨
    (s.decErr = 0#2 ∧ invAt c = none ∧ takeChar c s = recordError .invalidCharacter (advancePos s)) ∨
    (∃ g, s.decErr = 0#2 ∧ invAt c = some g ∧ s.decPos = 0#2 ∧
      takeChar c s = setAcc (accOfDigit g) (advancePos s)) ∨
    (∃ g, s.decErr = 0#2 ∧ invAt c = some g ∧ s.decPos = 1#2 ∧
      takeChar c s = setAcc (accAddSecond s.decAcc g) (advancePos s)) ∨
    (∃ g, s.decErr = 0#2 ∧ invAt c = some g ∧ s.decPos ≠ 0#2 ∧ s.decPos ≠ 1#2 ∧
      takeChar c s = closeTriplet (tripletValue s.decAcc g) (advancePos s)) := by
  unfold takeChar
  by_cases he : s.decErr = 0#2
  · cases hi : invAt c with
    | none => exact .inr (.inl ⟨he, rfl, by simp [he]⟩)
    | some g =>
      by_cases h0 : s.decPos = 0#2
      · exact .inr (.inr (.inl ⟨g, he, rfl, h0, by simp [he, takeDigit, h0]⟩))
      · by_cases h1 : s.decPos = 1#2
        · exact .inr (.inr (.inr (.inl ⟨g, he, rfl, h1, by simp [he, takeDigit, h1]⟩)))
        · exact .inr (.inr (.inr (.inr ⟨g, he, rfl, h0, h1, by simp [he, takeDigit, h0, h1]⟩)))
  · exact .inl ⟨he, by simp [he]⟩

/-- The two ends of a triplet (R140). -/
theorem closeTriplet_cases (v : Nat) (s : State) :
    (0xFFFF < v ∧ closeTriplet v s = recordError .invalidValue (setAcc 0#17 s)) ∨
    (v ≤ 0xFFFF ∧ closeTriplet v s = stageData oopWord (wordOfValue v) (setAcc 0#17 s)) := by
  by_cases h : 0xFFFF < v
  · exact .inl ⟨h, by simp [closeTriplet, (tripletOverflows_iff v).2 h]⟩
  · exact .inr ⟨by omega, by simp [closeTriplet, tripletOverflows, h]⟩

/-- A good trailing pair, by the registers (R142). -/
theorem goodTrailingPair_iff (s : State) :
    goodTrailingPair s = true ↔ s.decErr = 0#2 ∧ s.decPos = 2#2 ∧ s.decAcc.toNat ≤ 0xFF := by
  have hp : (!pairOverflows s.decAcc) = true ↔ s.decAcc.toNat ≤ 0xFF := by
    rw [Bool.not_eq_true', ← Bool.not_eq_true, pairOverflows_iff, Nat.not_lt]
  rw [goodTrailingPair, Bool.and_eq_true, Bool.and_eq_true, hp, decide_eq_true_iff, decide_eq_true_iff, and_assoc]

/-- The two ends of a message (R142). -/
theorem endMessage_cases (s : State) :
    (goodTrailingPair s = true ∧
      endMessage s = closeMessage statusOk (stageData oopByte (byteOfAcc s.decAcc) s)) ∨
    (goodTrailingPair s = false ∧ endMessage s = closeMessage (endStatus s) s) := by
  cases h : goodTrailingPair s
  · exact .inr ⟨rfl, by simp [endMessage, h]⟩
  · obtain ⟨he, hp, ha⟩ := (goodTrailingPair_iff s).1 h
    have hs : endStatus s = statusOk := by
      simp [endStatus, he, hp, pairOverflows, Nat.not_lt.2 ha]
    exact .inl ⟨rfl, by simp [endMessage, h, hs]⟩

/-- The choice of the status, one clause a case (R142, R175). -/
theorem endStatus_cases (s : State) :
    (s.decPos = 1#2 ∧ endStatus s = 1#2) ∨
    (s.decPos ≠ 1#2 ∧ s.decErr ≠ 0#2 ∧ endStatus s = s.decErr) ∨
    (s.decPos = 2#2 ∧ s.decErr = 0#2 ∧ 0xFF < s.decAcc.toNat ∧ endStatus s = 3#2) ∨
    (s.decPos ≠ 1#2 ∧ s.decErr = 0#2 ∧ (s.decPos = 2#2 → s.decAcc.toNat ≤ 0xFF) ∧ endStatus s = 0#2) := by
  by_cases h1 : s.decPos = 1#2
  · exact .inl ⟨h1, by simp [endStatus, h1, errCode]⟩
  · by_cases he : s.decErr = 0#2
    · by_cases h2 : s.decPos = 2#2 ∧ 0xFF < s.decAcc.toNat
      · exact .inr (.inr (.inl ⟨h2.1, he, h2.2, by simp [endStatus, he, h2.1, pairOverflows, h2.2, errCode]⟩))
      · refine .inr (.inr (.inr ⟨h1, he, fun hp => ?_, ?_⟩))
        · exact Nat.not_lt.1 fun hlt => h2 ⟨hp, hlt⟩
        · have : ¬(s.decPos = 2#2 ∧ pairOverflows s.decAcc = true) := fun hh =>
            h2 ⟨hh.1, (pairOverflows_iff _).1 hh.2⟩
          simp only [endStatus, h1, he, if_false, ne_eq, not_true, this, statusOk]
    · exact .inr (.inl ⟨h1, he, by simp [endStatus, h1, he]⟩)

end Sys2Proof.Machine
end

