-- ==== Sys2Proof/Laws/PerInstr.lean ====
section
/-! SUPPORT. Statements about every instruction as syntax, one lemma per constructor. Family `EncodeFits`: the word of
a beat kind has its port's width (30_encoding.md R70: every beat word has exactly one length). -/

namespace Sys2Proof.Laws.EncodeFits

/-- The word of `i` fits its port. -/
def Statement (i : Instr) : Prop := encode i < 2 ^ i.port.width

theorem encEnd (ignored : BitVec 16) : Statement (.encEnd ignored) := (mkEiw 0 ignored).isLt

theorem encSingle (ignored lo : Byte) : Statement (.encSingle ignored lo) := (mkEiw 1 (joinBytes ignored lo)).isLt

theorem encPair (hi lo : Byte) : Statement (.encPair hi lo) := (mkEiw 2 (joinBytes hi lo)).isLt

theorem encRsvd3 (ignored : BitVec 16) : Statement (.encRsvd3 ignored) := (mkEiw 3 ignored).isLt

theorem encoChar (char : Byte) : Statement (.encoChar char) := (mkCharWord false char).isLt

theorem encoEnd : Statement .encoEnd := (mkCharWord true 0).isLt

theorem decChar (char : Byte) : Statement (.decChar char) := (mkCharWord false char).isLt

theorem decEnd (ignored : Byte) : Statement (.decEnd ignored) := (mkCharWord true ignored).isLt

theorem decoEnd (status : BitVec 2) : Statement (.decoEnd status) := (mkDow status 0 0).isLt

theorem decoByte (lo : Byte) : Statement (.decoByte lo) := (mkDow 0 1 (joinBytes 0 lo)).isLt

theorem decoWord (hi lo : Byte) : Statement (.decoWord hi lo) := (mkDow 0 2 (joinBytes hi lo)).isLt

end Sys2Proof.Laws.EncodeFits
end

