-- ==== Sys2Proof/Laws/Step.lean ====
section
/-! SUPPORT. What a step can do, said once: the two edges, each by its cases, and their composition. -/

namespace Sys2Proof.Machine

/-- An accepted beat always has a next state, and leaves the schedule alone. -/
theorem exec_encIn_total {i : Instr} (hp : i.port = .encIn) (s : State) :
    ∃ t, exec i s = .next t := by
  cases i <;> first | exact ⟨_, rfl⟩ | cases hp

theorem exec_decIn_total {i : Instr} (hp : i.port = .decIn) (s : State) :
    ∃ t, exec i s = .next t := by
  cases i <;> first | exact ⟨_, rfl⟩ | cases hp

theorem decodeEiw_port (w : Eiw) : (decodeEiw w).port = .encIn := by
  unfold decodeEiw
  split
  · rfl
  · split
    · rfl
    · split <;> rfl

theorem decodeDiw_port (w : Diw) : (decodeDiw w).port = .decIn := by
  unfold decodeDiw
  split <;> rfl

/-- What the encoder's edge can do, in the terms of the shared operations. -/
theorem encEdge_cases (c : CycleIn) (s : State) :
    (s.encCnt ≠ 0#2 ∧ c.encOutReady = true ∧ encEdge c s = .next (radixStep s)) ∨
    (s.encCnt = 0#2 ∧ s.encEndp = true ∧ c.encOutReady = true ∧ encEdge c s = .next (takeEncEnd s)) ∨
    (encInReady s = false ∧ c.encOutReady = false ∧ encEdge c s = .next s) ∨
    (encInReady s = true ∧ c.encInValid = false ∧ encEdge c s = .next s) ∨
    (encInReady s = true ∧ c.encInValid = true ∧ encEdge c s = exec (decodeEiw (encInWord c)) s) := by
  cases hr : encInReady s with
  | true =>
    have hv : encOutValid s = false := by rw [encOutValid_eq, hr]; rfl
    cases hi : c.encInValid
    · exact .inr (.inr (.inr (.inl ⟨rfl, rfl, by simp [encEdge, encInstr, hv, hi]⟩)))
    · exact .inr (.inr (.inr (.inr ⟨rfl, rfl, by simp [encEdge, encInstr, hv, hi]⟩)))
  | false =>
    have hv : encOutValid s = true := by rw [encOutValid_eq, hr]; rfl
    cases ho : c.encOutReady
    · exact .inr (.inr (.inl ⟨rfl, rfl, by simp [encEdge, encInstr, hv, ho]⟩))
    · by_cases hc : s.encCnt = 0#2
      · have he : s.encEndp = true := by
          have h := hr
          simpa [encInReady, hc] using h
        exact .inr (.inl ⟨hc, he, rfl, by
          simp [encEdge, encInstr, hv, ho, encPresented, hc, he, exec, execEncoEnd, produceEnc]⟩)
      · exact .inl ⟨hc, rfl, by
          simp [encEdge, encInstr, hv, ho, encPresented, hc, exec, execEncoChar, produceEnc]⟩

/-- What the decoder's edge can do, in the terms of the shared operations. It holds in every state, those whose
registers present no beat kind among them (41_decoder.md R146). -/
theorem decEdge_cases (c : CycleIn) (s : State) :
    (s.decOv = true ∧ c.decOutReady = true ∧ decEdge c s = .next (takeData s)) ∨
    (s.decOv = false ∧ s.decEndp = true ∧ c.decOutReady = true ∧ decEdge c s = .next (takeDecEnd s)) ∨
    (decInReady s = false ∧ c.decOutReady = false ∧ decEdge c s = .next s) ∨
    (decInReady s = true ∧ c.decInValid = false ∧ decEdge c s = .next s) ∨
    (decInReady s = true ∧ c.decInValid = true ∧ decEdge c s = exec (decodeDiw (decInWord c)) s) := by
  cases hr : decInReady s with
  | true =>
    have hv : decOutValid s = false := by rw [decOutValid_eq, hr]; rfl
    have ho : s.decOv = false := ((decInReady_iff s).1 hr).1
    cases hi : c.decInValid
    · exact .inr (.inr (.inr (.inl ⟨rfl, rfl, by simp [decEdge, decInstr, hv, hi, ho]⟩)))
    · exact .inr (.inr (.inr (.inr ⟨rfl, rfl, by simp [decEdge, decInstr, hv, hi]⟩)))
  | false =>
    have hv : decOutValid s = true := by rw [decOutValid_eq, hr]; rfl
    cases hc : c.decOutReady
    · exact .inr (.inr (.inl ⟨rfl, rfl, by simp [decEdge, decInstr, hv, hc]⟩))
    · cases ho : s.decOv
      · have he : s.decEndp = true := by simpa [decInReady, ho] using hr
        exact .inr (.inl ⟨rfl, he, rfl, by
          simp [decEdge, decInstr, hv, hc, decPresented, ho, he, exec, execDecoEnd, produceDec]⟩)
      · refine .inl ⟨rfl, rfl, ?_⟩
        by_cases hw : s.decOop = oopWord
        · simp [decEdge, decInstr, hv, hc, decPresented, ho, hw, exec, execDecoWord, produceDec]
        · by_cases hb : s.decOop = oopByte ∧ highByte s.decOd = 0#8
          · have hbw : ¬oopByte = oopWord := by decide
            simp [decEdge, decInstr, hv, hc, decPresented, ho, hb.1, hb.2, hbw, exec, execDecoByte, produceDec]
          · have hp : decPresented s = none := by
              unfold decPresented
              rw [if_pos ho, if_neg hw, if_neg hb]
            simp [decEdge, decInstr, hv, hc, hp, ho]

/-- A step is the reset edge, or the encoder's edge and then the decoder's. -/
theorem step_cases (s : State) :
    ((currentCycle s).rst = true ∧ step s = .next (clearRegisters (popCycle s))) ∨
    ((currentCycle s).rst = false ∧
      step s = andThen (encEdge (currentCycle s) (popCycle s)) (decEdge (currentCycle s))) := by
  cases h : (currentCycle s).rst
  · exact .inr ⟨rfl, by simp [step, clockEdge, h]⟩
  · exact .inl ⟨rfl, by simp [step, clockEdge, h]⟩

theorem runSteps_succ (k : Nat) (s : State) : runSteps (k + 1) s = andThen (step s) (runSteps k) := rfl

/-- A run of one more cycle, by its first step. -/
theorem runSteps_succ_next {k : Nat} {s t : State} (h : runSteps (k + 1) s = .next t) :
    ∃ u, step s = .next u ∧ runSteps k u = .next t := andThen_next h

theorem collect_succ {α : Type} (f : State → Option α) (k : Nat) {s t : State} (h : step s = .next t) :
    collect f (k + 1) s = (f s).toList ++ collect f k t := by
  simp [collect, h]

theorem throughout_succ (p : State → Bool) (k : Nat) {s t : State} (h : step s = .next t) :
    throughout p (k + 1) s = (p s && throughout p k t) := by
  simp [throughout, h]

end Sys2Proof.Machine
end

