-- ==== Sys2Proof/Tests/Slice0.lean ====
section
/-! SUPPORT. The model's own tests. Expected results are taken from spec/95_test_vectors.md and from the words and tables
of spec/30_encoding.md, named at each test; a witness shows a concrete case that meets a statement's hypotheses. -/

namespace Sys2Proof.Tests

open Sys2Proof.Machine

/-- The next state, if there is one. -/
def nextOf : Answer → Option State
  | .next t => some t
  | .fault _ => none
  | .refused _ => none

/-- Encoder registers in the reset state. -/
def encSt (q : BitVec 16) (cnt : BitVec 2) (endp : Bool) : State :=
  { State.reset with encQ := q, encCnt := cnt, encEndp := endp }

/-- Decoder message registers in the reset state. -/
def decSt (acc : BitVec 17) (pos err : BitVec 2) : State :=
  { State.reset with decAcc := acc, decPos := pos, decErr := err }

/-- A staged data beat, with or without the END behind it. -/
def dataSt (oop : BitVec 2) (od : BitVec 16) (endp : Bool) : State :=
  { State.reset with decOv := true, decOop := oop, decOd := od, decEndp := endp }

/-- A pending END beat. -/
def endSt (est : BitVec 2) : State := { State.reset with decEndp := true, decEst := est }

/-- A state with a schedule. -/
def run (s : State) (ins : List CycleIn) : State := { s with inputs := ins }

/-- The four registers a DEC.CHAR row of 95 section 2.5 lists, and the staged data. -/
def decView (s : State) : Nat × Nat × Nat × Bool × Nat :=
  (s.decAcc.toNat, s.decPos.toNat, s.decErr.toNat, s.decOv, s.decOd.toNat)

/-- The encoder's registers. -/
def encView (s : State) : Nat × Nat × Bool := (s.encQ.toNat, s.encCnt.toNat, s.encEndp)

/-- Both units' sinks ready, nothing offered. -/
def sinksReady : CycleIn := { quietCycle with encOutReady := true, decOutReady := true }

/-- `rst` 1 with everything offered and every sink ready. -/
def resetCycle : CycleIn :=
  { rst := true, encInValid := true, encInOp := 2, encInData := 0x4142, encOutReady := true, decInValid := true,
    decInEnd := true, decInChar := 0, decOutReady := true }

/- Well-formedness: one ill-formed term for each check. -/

theorem test_wf_char_outside_alphabet_refused : (Instr.encoChar 0x61).wf = false := by decide

theorem test_wf_char_in_alphabet : (Instr.encoChar 0x20).wf = true := by decide

theorem test_wf_message_rsvd3_refused :
    wfEncMessage [.encPair 0x41 0x42, .encRsvd3 0, .encEnd 0] = false := by decide

theorem test_wf_message_data_after_single_refused :
    wfEncMessage [.encSingle 0 0x41, .encPair 0x42 0x43, .encEnd 0] = false := by decide

theorem test_wf_message_without_end_refused : wfEncMessage [.encPair 0x41 0x42] = false := by decide

theorem test_wf_message_hello : wfEncMessage [.encPair 0x6F 0x21, .encSingle 0xAB 0x21, .encEnd 0xFFFF] = true := by decide

theorem test_wf_chars_after_end_refused : wfDecMessage [.decEnd 0, .decChar 0x30] = false := by decide

/- Decoding: words written out bit by bit from 30_encoding.md R70 and R72. -/

theorem test_decode_encEnd : decode .encIn 0b00_10101010_00001111 = .instr (.encEnd 0xAA0F) := by decide

theorem test_decode_encSingle : decode .encIn 0b01_10101011_00100001 = .instr (.encSingle 0xAB 0x21) := by decide

theorem test_decode_encPair : decode .encIn 0b10_01000001_01000010 = .instr (.encPair 0x41 0x42) := by decide

theorem test_decode_encRsvd3 : decode .encIn 0b11_10111110_11101111 = .instr (.encRsvd3 0xBEEF) := by decide

theorem test_decode_encoChar : decode .encOut 0b0_01000010 = .instr (.encoChar 0x42) := by decide

theorem test_decode_encoEnd : decode .encOut 0b1_00000000 = .instr .encoEnd := by decide

theorem test_decode_decChar : decode .decIn 0b0_00100000 = .instr (.decChar 0x20) := by decide

theorem test_decode_decEnd : decode .decIn 0b1_10100101 = .instr (.decEnd 0xA5) := by decide

theorem test_decode_decoEnd : decode .decOut 0b11_00_00000000_00000000 = .instr (.decoEnd 3) := by decide

theorem test_decode_decoByte : decode .decOut 0b00_01_00000000_00100001 = .instr (.decoByte 0x21) := by decide

theorem test_decode_decoWord : decode .decOut 0b00_10_01000001_01000010 = .instr (.decoWord 0x41 0x42) := by decide

theorem test_decode_rejects_by_name :
    decode .encIn 0x40000 = .rejected .tooWide ∧ decode .encOut 0x101 = .rejected .encoEndChar ∧
    decode .decOut 0x30000 = .rejected .decoOp3 ∧ decode .decOut 0x64142 = .rejected .decoDataStatus ∧
    decode .decOut 0x10121 = .rejected .decoByteHigh ∧ decode .decOut 0x00001 = .rejected .decoEndData := by decide

theorem test_encode_words :
    encode (.encPair 0x41 0x42) = 0x24142 ∧ encode (.encSingle 0 0x21) = 0x10021 ∧ encode (.decChar 0x38) = 0x038 ∧
    encode (.decEnd 0) = 0x100 ∧ encode (.decoEnd 3) = 0xC0000 ∧ encode (.decoByte 0xFF) = 0x100FF := by decide

theorem test_table_words :
    decodeTableWord 24 0x24142 = some (.encPair 0x41 0x42) ∧ decodeTableWord 16 0x100 = some (.decEnd 0) ∧
    decodeTableWord 24 0xC0000 = some (.decoEnd 3) ∧ decodeTableWord 20 0x10021 = some (.decoByte 0x21) := by decide

/- The tables: 95 section 2.8. -/

theorem test_alphabet_reads :
    [alphabetAt 0, alphabetAt 9, alphabetAt 10, alphabetAt 35, alphabetAt 36, alphabetAt 41, alphabetAt 44] =
      [0x30, 0x39, 0x41, 0x5A, 0x20, 0x2D, 0x3A] := by decide

theorem test_inverse_reads :
    [invAt 0x30, invAt 0x3A, invAt 0x20, invAt 0x41, invAt 0x5A, invAt 0x2C, invAt 0x61, invAt 0xFF] =
      [some 0, some 44, some 36, some 10, some 35, none, none, none] := by decide

/- The encoder: 95 sections 2.1 to 2.3 and P1. -/

theorem test_pair_loads_big_endian :
    (nextOf (exec (.encPair 0xFF 0x00) State.reset)).map encView = some (65280, 3, false) := by decide

theorem test_pair_waits_while_emitting :
    (nextOf (exec (.encPair 0x41 0x42) (encSt 371 2 false))).map encView = some (371, 2, false) := by decide

theorem test_single_ignores_high_byte :
    (nextOf (exec (.encSingle 0xAB 0x21) State.reset)).map encView = some (33, 2, false) := by decide

theorem test_end_ignores_data :
    (nextOf (exec (.encEnd 0xFFFF) State.reset)).map encView = some (0, 0, true) := by decide

theorem test_rsvd3_leaves_no_trace : nextOf (exec (.encRsvd3 0xBEEF) State.reset) = some State.reset := by decide

theorem test_char_radix_step :
    (nextOf (exec (.encoChar 0x42) (encSt 16706 3 false))).map encView = some (371, 2, false) := by decide

theorem test_char_not_presented_refused :
    nextOf (exec (.encoChar 0x43) (encSt 16706 3 false)) = none := by decide

theorem test_last_char_of_a_group :
    (nextOf (exec (.encoChar 0x57) (encSt 32 1 false))).map encView = some (0, 0, false) := by decide

theorem test_encoEnd_closes :
    (nextOf (exec .encoEnd (encSt 0 0 true))).map encView = some (0, 0, false) := by decide

theorem test_step_takes_the_character :
    (nextOf (step (run (encSt 1456 2 false) [sinksReady]))).map encView = some (32, 1, false) := by decide

/- The decoder: 95 sections 2.5 and 2.6. -/

theorem test_decChar_second_digit :
    (nextOf (exec (.decChar 0x3A) (decSt 44 1 0))).map decView = some (2024, 2, 0, false, 0) := by decide

theorem test_decChar_largest_triplet :
    (nextOf (exec (.decChar 0x57) (decSt 735 2 0))).map decView = some (0, 0, 0, true, 65535) := by decide

theorem test_decChar_overflow :
    (nextOf (exec (.decChar 0x57) (decSt 736 2 0))).map decView = some (0, 0, 3, false, 0) := by decide

theorem test_decChar_invalid_keeps_acc :
    (nextOf (exec (.decChar 0xFF) (decSt 506 2 0))).map decView = some (506, 0, 2, false, 0) := by decide

theorem test_decChar_drain :
    (nextOf (exec (.decChar 0x21) (decSt 0 2 3))).map decView = some (0, 0, 3, false, 0) := by decide

theorem test_decEnd_length_wins :
    (nextOf (exec (.decEnd 0xA5) (decSt 0 1 2))).map (fun s => (s.decEst.toNat, s.decOv, s.decEndp)) =
      some (1, false, true) := by decide

theorem test_decEnd_largest_pair :
    (nextOf (exec (.decEnd 0) (decSt 255 2 0))).map (fun s => (s.decEst.toNat, s.decOop.toNat, s.decOd.toNat)) =
      some (0, 1, 255) := by decide

theorem test_decEnd_pair_overflow :
    (nextOf (exec (.decEnd 0) (decSt 256 2 0))).map (fun s => (s.decEst.toNat, s.decOv)) = some (3, false) := by decide

theorem test_decoWord_taken :
    (nextOf (exec (.decoWord 0x41 0x42) (dataSt 2 0x4142 false))).map (fun s => (s.decOv, s.decOd.toNat)) =
      some (false, 0x4142) := by decide

theorem test_decoByte_leaves_the_end :
    (nextOf (exec (.decoByte 0x21) (dataSt 1 0x0021 true))).map (fun s => (s.decOv, s.decEndp)) =
      some (false, true) := by decide

theorem test_decoEnd_status_shown : decOutWord (endSt 3) = 0xC0000 := by decide

theorem test_decoEnd_taken :
    (nextOf (exec (.decoEnd 3) (endSt 3))).map (fun s => (s.decEndp, s.decEst.toNat)) = some (false, 3) := by decide

/- Whole steps. -/

theorem test_reset_edge_wins :
    nextOf (step (run (encSt 8 1 false) [resetCycle])) = some State.reset := by decide

theorem test_both_units_in_one_cycle :
    (nextOf (step (run (encSt 371 2 false)
      [{ quietCycle with encOutReady := true, decInValid := true, decInChar := 0x42 }]))).map
        (fun s => (encView s, decView s)) = some ((8, 1, false), (11, 1, 0, false, 0)) := by decide

theorem test_fetch_word_runs_first :
    (nextOf (step (State.reset.withFetchWord 24 0x24142))).map encView = some (16706, 3, false) := by decide

theorem test_fetch_decoder_word_runs_first :
    (nextOf (step (State.reset.withFetchWord 16 0x042))).map decView = some (11, 1, 0, false, 0) := by decide

theorem test_fetch_produced_word_runs_first :
    (nextOf (step (State.reset.withFetchWord 20 0x24142))).map (fun s => (s.decOv, s.decOd.toNat)) =
      some (false, 0x4142) := by decide

/- The reference functions: B45's own vectors, 95 S6, S7, S10, S12, S13. -/

theorem test_encode_hello :
    refEncode [0x48, 0x65, 0x6C, 0x6C, 0x6F, 0x21, 0x21] =
      [0x25, 0x36, 0x39, 0x20, 0x56, 0x44, 0x39, 0x32, 0x45, 0x58, 0x30] := by decide

theorem test_decode_vectors :
    refDecode [0x42, 0x42, 0x38] = .ok [0x41, 0x42] ∧ refDecode [0x30, 0x30, 0x30, 0x30] = .err .invalidLength ∧
    refDecode [0x47, 0x47, 0x57] = .err .invalidValue ∧ refDecode [0x30, 0x30, 0x30, 0x56, 0x35] = .err .invalidValue ∧
    refDecode [0x30, 0x30, 0x61] = .err .invalidCharacter ∧ refDecode [0x55, 0x35] = .ok [0xFF] := by decide

theorem test_result_drops_void_beats :
    readResult [0x20000, 0xC0000] = some (.err .invalidValue) ∧
    readResult [0x24865, 0x10021, 0x00000] = some (.ok [0x48, 0x65, 0x21]) ∧ readResult [0x10021] = none := by decide

/- Witnesses: for each statement with hypotheses, a concrete case that meets them all. -/

theorem test_witness_ResetEdgeClearsEveryRegister :
    (currentCycle (run (encSt 8 1 false) [resetCycle])).rst = true := by decide

theorem test_witness_StepRunsTheDecodedBeats :
    (∃ s : State, Inv s ∧ (currentCycle s).rst = false ∧ encMoves s (.encPair 0x41 0x42) ∧ decStill s) ∧
    (∃ s : State, Inv s ∧ (currentCycle s).rst = false ∧ encStill s ∧ decMoves s (.decoEnd 3)) ∧
    (∃ s : State, Inv s ∧ (currentCycle s).rst = false ∧ encMoves s (.encoChar 0x42) ∧ decMoves s (.decoWord 0x41 0x42)) ∧
    (∃ s : State, Inv s ∧ (currentCycle s).rst = false ∧ encStill s ∧ decStill s) :=
  ⟨⟨run State.reset [cycleFor .encIn 0x24142], by decide, by decide, .inl ⟨0x24142, by decide, by decide⟩, by decide⟩,
    ⟨run (endSt 3) [sinksReady], by decide, by decide, by decide, .inr ⟨0xC0000, by decide, by decide⟩⟩,
    ⟨run { dataSt 2 0x4142 false with encQ := 371, encCnt := 2 } [sinksReady], by decide, by decide,
      .inr ⟨0x042, by decide, by decide⟩, .inr ⟨0x24142, by decide, by decide⟩⟩,
    ⟨State.reset, by decide, by decide, by decide, by decide⟩⟩

/-- One state for each case of EncoderOutputFunctions and of DecoderOutputFunctions. -/
theorem test_witness_OutputFunctions :
    (encSt 44 3 false).encCnt ≠ 0 ∧ State.reset.encCnt = 0 ∧ (dataSt 1 0x00FF true).decOv = true ∧
      ((endSt 3).decOv = false ∧ (endSt 3).decEndp = true) ∧
      (State.reset.decOv = false ∧ State.reset.decEndp = false) := by decide

/-- Codes on both sides of the ends of the listed ranges: InverseTableContents. -/
theorem test_witness_InverseTableContents :
    invAt 0x20 = some 36 ∧ invAt 0x3A = some 44 ∧ invAt 0x5A = some 35 ∧ invAt 0x1F = none ∧ invAt 0x21 = none ∧
      invAt 0x2C = none ∧ invAt 0x3B = none ∧ invAt 0x40 = none ∧ invAt 0x5B = none ∧ invAt 0xFF = none := by decide

/-- EncPairLoadsThePair, EncSingleLoadsTheByte, EncEndOpensTheEnd, EncRsvd3ChangesNothing. -/
theorem test_witness_encoder_ready : encInReady State.reset = true := by decide

theorem test_witness_EncoCharTakesARadixStep :
    ∃ s t : State, s.encCnt ≠ 0 ∧ encInv s ∧ s.encCnt = 1 ∧ (currentCycle s).rst = false ∧
      (currentCycle s).encOutReady = false ∧ step s = .next t :=
  ⟨encSt 32 1 false, _, by decide, by decide, by decide, by decide, by decide, rfl⟩

theorem test_witness_EncoEndClosesTheMessage :
    ∃ s t : State, s.encCnt = 0 ∧ s.encEndp = true ∧ encInv s ∧ (currentCycle s).rst = false ∧
      (currentCycle s).encOutReady = false ∧ step s = .next t :=
  ⟨encSt 0 0 true, _, by decide, by decide, by decide, by decide, by decide, rfl⟩

theorem test_witness_DecCharAdvancesAndDrains : decInReady (decSt 0 2 3) = true ∧ (decSt 0 2 3).decErr ≠ 0 := by decide

theorem test_witness_DecCharFirstDigit :
    decInReady State.reset = true ∧ State.reset.decErr = 0 ∧ State.reset.decPos = 0 ∧
      refDigit (0x3A : Byte).toNat = some 44 := by decide

theorem test_witness_DecCharSecondDigit :
    Inv (decSt 44 1 0) ∧ decInReady (decSt 44 1 0) = true ∧ (decSt 44 1 0).decErr = 0 ∧ (decSt 44 1 0).decPos = 1 ∧
      refDigit (0x3A : Byte).toNat = some 44 := ⟨by decide, by decide, by decide, by decide, by decide⟩

/-- The largest value that is emitted and the smallest that overflows: 735 + 2025 * 32 and 736 + 2025 * 32. -/
theorem test_witness_DecCharThirdDigit :
    (Inv (decSt 735 2 0) ∧ decInReady (decSt 735 2 0) = true ∧ (decSt 735 2 0).decErr = 0 ∧
      (decSt 735 2 0).decPos = 2 ∧ refDigit (0x57 : Byte).toNat = some 32 ∧
      (decSt 735 2 0).decAcc.toNat + 2025 * 32 ≤ 0xFFFF) ∧
    (Inv (decSt 736 2 0) ∧ decInReady (decSt 736 2 0) = true ∧ (decSt 736 2 0).decErr = 0 ∧
      (decSt 736 2 0).decPos = 2 ∧ 0xFFFF < (decSt 736 2 0).decAcc.toNat + 2025 * 32) :=
  ⟨⟨by decide, by decide, by decide, by decide, by decide, by decide⟩,
    by decide, by decide, by decide, by decide, by decide⟩

theorem test_witness_DecCharOutsideTheAlphabet :
    decInReady (decSt 506 2 0) = true ∧ (decSt 506 2 0).decErr = 0 ∧ refDigit (0xFF : Byte).toNat = none ∧
      refDigit (0x2C : Byte).toNat = none := by decide

/-- One state for each clause of DecEndChoosesTheStatus, the bound at 255 and 256. -/
theorem test_witness_DecEndChoosesTheStatus :
    (decInReady (decSt 5 1 0) = true ∧ (decSt 5 1 0).decPos = 1) ∧
    (decInReady (decSt 33 2 2) = true ∧ (decSt 33 2 2).decPos ≠ 1 ∧ (decSt 33 2 2).decErr ≠ 0) ∧
    (decInReady (decSt 256 2 0) = true ∧ 0xFF < (decSt 256 2 0).decAcc.toNat) ∧
    (decInReady (decSt 255 2 0) = true ∧ (decSt 255 2 0).decAcc.toNat ≤ 0xFF) ∧
    (decInReady (decSt 0 0 0) = true ∧ (decSt 0 0 0).decPos = 0 ∧ (decSt 0 0 0).decErr = 0) := by decide

theorem test_witness_DecoWordIsTaken :
    ∃ s t : State, s.decOv = true ∧ s.decOop = 2 ∧ (currentCycle s).rst = false ∧
      (currentCycle s).decOutReady = false ∧ step s = .next t :=
  ⟨dataSt 2 0x4142 false, _, by decide, by decide, by decide, by decide, rfl⟩

theorem test_witness_DecoByteIsTaken :
    ∃ s t : State, Inv s ∧ s.decOv = true ∧ s.decOop = 1 ∧ (currentCycle s).rst = false ∧
      (currentCycle s).decOutReady = false ∧ step s = .next t :=
  ⟨dataSt 1 0x00FF true, _, by decide, by decide, by decide, by decide, by decide, rfl⟩

theorem test_witness_DecoEndReportsTheStatus :
    (endSt 3).decOv = false ∧ (endSt 3).decEndp = true ∧ Inv (endSt 3) := by decide

theorem test_witness_BeatsThatCannotTransfer :
    encInReady (encSt 371 2 false) = false ∧ decInReady (endSt 1) = false ∧
      encPresented State.reset ≠ some .encoEnd ∧ decPresented (endSt 1) ≠ some (.decoEnd 2) ∧
      exec .encoEnd State.reset = .refused .beatNotPresented :=
  ⟨by decide, by decide, by decide, by decide, rfl⟩

/-- One beat of each kind with a next state: EncoderBeatsFrame. -/
theorem test_witness_EncoderBeatsFrame :
    (∃ t, exec (.encEnd 1) State.reset = .next t) ∧ (∃ t, exec (.encSingle 1 2) State.reset = .next t) ∧
    (∃ t, exec (.encPair 1 2) State.reset = .next t) ∧ (∃ t, exec (.encRsvd3 1) State.reset = .next t) ∧
    (∃ t, exec (.encoChar 0x42) (encSt 16706 3 false) = .next t) ∧ (∃ t, exec .encoEnd (encSt 0 0 true) = .next t) :=
  ⟨⟨_, rfl⟩, ⟨_, rfl⟩, ⟨_, rfl⟩, ⟨_, rfl⟩, ⟨_, rfl⟩, ⟨_, rfl⟩⟩

/-- One beat of each kind with a next state: DecoderBeatsFrame. -/
theorem test_witness_DecoderBeatsFrame :
    (∃ t, exec (.decChar 0x21) State.reset = .next t) ∧ (∃ t, exec (.decEnd 1) State.reset = .next t) ∧
    (∃ t, exec (.decoEnd 3) (endSt 3) = .next t) ∧ (∃ t, exec (.decoByte 0xFF) (dataSt 1 0x00FF true) = .next t) ∧
    (∃ t, exec (.decoWord 0x41 0x42) (dataSt 2 0x4142 false) = .next t) :=
  ⟨⟨_, rfl⟩, ⟨_, rfl⟩, ⟨_, rfl⟩, ⟨_, rfl⟩, ⟨_, rfl⟩⟩

/-- DecoderStepIsTheReferenceStep, StepKeepsTheInvariant, NothingOfAMessageRemains, on a state in the middle of a
message. -/
theorem test_witness_invariant_steps :
    ∃ s t : State, Inv s ∧ s.decAcc.toNat = 2024 ∧ step s = .next t :=
  ⟨run (decSt 2024 2 0) [cycleFor .decIn 0x03A], _, by decide, by decide, rfl⟩

theorem test_witness_NothingOfAMessageRemains :
    (∃ t, Inv (encSt 0 0 true) ∧ exec .encoEnd (encSt 0 0 true) = .next t) ∧
    (∃ t, Inv (endSt 2) ∧ exec (.decoEnd 2) (endSt 2) = .next t) :=
  ⟨⟨_, by decide, rfl⟩, ⟨_, by decide, rfl⟩⟩

/-- A reset edge and then a PAIR and a SINGLE: ReachableStatesMeetTheSpecInvariants. -/
theorem test_witness_ReachableStatesMeetTheSpecInvariants :
    (∃ t, runSteps 2 (run State.reset [resetCycle, cycleFor .encIn 0x2FFFF]) = .next t ∧ t.encCnt = 3) ∧
    (∃ u v, encInReady State.reset = true ∧ exec (.encSingle 0xAB 0xFF) State.reset = .next u ∧
      exec (.encoChar (encOutChar u)) u = .next v) :=
  ⟨⟨_, rfl, by decide⟩, ⟨_, _, by decide, rfl, rfl⟩⟩

theorem test_witness_EncodeOfDecodeIsTheWord : decode .decOut 0x24142 = .instr (.decoWord 0x41 0x42) := by decide

theorem test_witness_EncoderPresentsFortySixWords :
    encOutValid (encSt 44 3 false) = true ∧ encOutValid (encSt 0 0 true) = true := by decide

theorem test_witness_DecoderPresentsThreeWordForms :
    (Inv (dataSt 2 0xFFFF false) ∧ decOutValid (dataSt 2 0xFFFF false) = true) ∧
    (Inv (dataSt 1 0x00FF true) ∧ decOutValid (dataSt 1 0x00FF true) = true) ∧
    (Inv (endSt 1) ∧ decOutValid (endSt 1) = true) :=
  ⟨⟨by decide, by decide⟩, ⟨by decide, by decide⟩, by decide, by decide⟩

theorem test_witness_GroupsEmitTheirDigitsInOrder :
    (∃ t, exec (.encPair 0xFF 0xFF) State.reset = .next t) ∧ (∃ t, exec (.encSingle 0xAB 0xFF) State.reset = .next t) :=
  ⟨⟨_, rfl⟩, ⟨_, rfl⟩⟩

theorem test_witness_EncodedTextIsInTheAlphabet : (0x20 : Byte) ∈ refEncode [0x6C, 0x6C] := by decide

theorem test_witness_DecodedLengthLaw :
    refDecode [0x30, 0x30, 0x30, 0x55, 0x35] = .ok [0x00, 0x00, 0xFF] := by decide

/-- A bad character, a triplet at 65536 and a pair at 256 after a good triplet; a length of 1 modulo 3. -/
theorem test_witness_FirstDefectWins :
    refDecode [0x30, 0x30, 0x30] = .ok [0x00, 0x00] ∧ [0x30, 0x30, 0x30].length % 3 = 0 ∧
    refDigit 0x61 = none ∧ refDigit 0x47 = some 16 ∧ refDigit 0x57 = some 32 ∧ 0xFFFF < 16 + 45 * 16 + 2025 * 32 ∧
    refDigit 0x56 = some 31 ∧ refDigit 0x35 = some 5 ∧ 0xFF < 31 + 45 * 5 ∧
    ([0x30, 0x30, 0x30] ++ 0x47 :: 0x47 :: 0x57 :: [0x30]).length % 3 = 1 := by decide

theorem test_witness_DecodableTextIsAnEncoding : refDecode [0x42, 0x42, 0x38] = .ok [0x41, 0x42] := by decide

/-- A SINGLE with ignored bits and its END, with a stall: EncoderRealisesEncode, EncodedLengthLaw,
EncoderOutputIsItsInputsInOrder. -/
def encWitness : State :=
  run State.reset
    [cycleFor .encIn 0x1AB21, quietCycle, sinksReady, sinksReady, cycleFor .encIn 0x0FFFF, sinksReady]

theorem test_witness_EncoderRealisesEncode :
    ∃ t, encInReady encWitness = true ∧ noReset 6 encWitness = true ∧ runSteps 6 encWitness = .next t ∧
      unframeBytes (collect encInXfer 6 encWitness) = some [0x21] ∧ encInReady t = true ∧ encInv encWitness :=
  ⟨_, by decide, by decide, rfl, by decide, by decide, by decide⟩

/-- `"U5"` with a stall, and END with ignored bits: DecoderRealisesDecode. -/
def decWitness : State :=
  run State.reset
    [cycleFor .decIn 0x055, quietCycle, cycleFor .decIn 0x035, cycleFor .decIn 0x1A5, sinksReady, sinksReady]

theorem test_witness_DecoderRealisesDecode :
    ∃ t, decFresh decWitness ∧ noReset 6 decWitness = true ∧ runSteps 6 decWitness = .next t ∧
      unframeChars (collect decInXfer 6 decWitness) = some [0x55, 0x35] ∧ decInReady t = true :=
  ⟨_, by decide, by decide, rfl, by decide, by decide⟩

/-- The wired cycle of the loopback: the decoder's input signals follow the encoder's outputs. -/
def wired (valid isEnd : Bool) (char : Byte) (ready : Bool) (c : CycleIn) : CycleIn :=
  { c with decInValid := valid, decInEnd := isEnd, decInChar := char, encOutReady := ready, decOutReady := true }

/-- The byte 0x21 sent through both units: 95 P4, its last eight cycles. -/
def loopWitness : State :=
  run State.reset
    [wired false false 0 true (cycleFor .encIn 0x1AB21), wired true false 0x58 true quietCycle,
      wired true false 0x30 true quietCycle, wired false false 0 true (cycleFor .encIn 0x00000),
      wired true true 0 true quietCycle, wired false false 0 false quietCycle, wired false false 0 false quietCycle]

theorem test_witness_LoopbackReturnsTheBytes :
    ∃ t, encInReady loopWitness = true ∧ decFresh loopWitness ∧ noReset 7 loopWitness = true ∧
      throughout loopbackNow 7 loopWitness = true ∧ runSteps 7 loopWitness = .next t ∧
      unframeBytes (collect encInXfer 7 loopWitness) = some [0x21] ∧ encInReady t = true ∧ decInReady t = true :=
  ⟨_, by decide, by decide, by decide, by decide, rfl, by decide, by decide, by decide⟩

/-- The same words without the stall: the second run of OutputsDoNotDependOnTiming. -/
def encWitness2 : State :=
  run State.reset [cycleFor .encIn 0x1AB21, sinksReady, sinksReady, cycleFor .encIn 0x0FFFF, sinksReady]

/-- The same characters without the stall. -/
def decWitness2 : State :=
  run State.reset
    [cycleFor .decIn 0x055, cycleFor .decIn 0x035, cycleFor .decIn 0x1A5, sinksReady, sinksReady]

theorem test_witness_OutputsDoNotDependOnTiming :
    (∃ t1 t2, noReset 6 encWitness = true ∧ noReset 5 encWitness2 = true ∧ runSteps 6 encWitness = .next t1 ∧
      runSteps 5 encWitness2 = .next t2 ∧ sameEncoder encWitness encWitness2 ∧
      collect encInXfer 6 encWitness = collect encInXfer 5 encWitness2 ∧
      encInReady t1 = true ∧ encInReady t2 = true) ∧
    (∃ t1 t2, noReset 6 decWitness = true ∧ noReset 5 decWitness2 = true ∧ runSteps 6 decWitness = .next t1 ∧
      runSteps 5 decWitness2 = .next t2 ∧ sameDecoder decWitness decWitness2 ∧
      collect decInXfer 6 decWitness = collect decInXfer 5 decWitness2 ∧
      decInReady t1 = true ∧ decInReady t2 = true) :=
  ⟨⟨_, _, by decide, by decide, rfl, rfl, by decide, by decide, by decide, by decide⟩,
    ⟨_, _, by decide, by decide, rfl, rfl, by decide, by decide, by decide, by decide⟩⟩

/-- An empty message and then the byte 0x21 on both units. -/
def twoMessages : State :=
  run State.reset
    [cycleFor .encIn 0x00000, sinksReady, cycleFor .encIn 0x10021, sinksReady, sinksReady, cycleFor .encIn 0x00000,
      sinksReady]

/-- An empty string and then `"!"`, of the wrong length. -/
def twoStrings : State :=
  run State.reset [cycleFor .decIn 0x100, sinksReady, cycleFor .decIn 0x021, cycleFor .decIn 0x100, sinksReady]

theorem test_witness_MessagesAreMatchedInOrder :
    (∃ t, noReset 7 twoMessages = true ∧ runSteps 7 twoMessages = .next t ∧ encInReady twoMessages = true ∧
      encInReady t = true ∧ collect encInXfer 7 twoMessages = [[], [0x21]].flatMap frameBytes) ∧
    (∃ t, noReset 5 twoStrings = true ∧ runSteps 5 twoStrings = .next t ∧ decFresh twoStrings ∧
      decInReady t = true ∧ collect decInXfer 5 twoStrings = [[], [0x21]].flatMap frameChars) :=
  ⟨⟨_, by decide, rfl, by decide, by decide, by decide⟩, ⟨_, by decide, rfl, by decide, by decide, by decide⟩⟩

/-- Agreement on one unit with a different other unit. -/
theorem test_witness_UnitsDoNotInterfere :
    (∃ s1 s2 t1 t2 : State, s1 ≠ s2 ∧ step s1 = .next t1 ∧ step s2 = .next t2 ∧ sameEncoder s1 s2 ∧
      sameEncInputs (currentCycle s1) (currentCycle s2)) ∧
    (∃ s1 s2 t1 t2 : State, s1 ≠ s2 ∧ step s1 = .next t1 ∧ step s2 = .next t2 ∧ sameDecoder s1 s2 ∧
      sameDecInputs (currentCycle s1) (currentCycle s2)) :=
  ⟨⟨run State.reset [cycleFor .encIn 0x24142], run (decSt 44 1 0) [cycleFor .encIn 0x24142], _, _, by decide, rfl, rfl,
      by decide, by decide⟩,
    ⟨run State.reset [cycleFor .decIn 0x042], run (encSt 371 2 false) [cycleFor .decIn 0x042], _, _, by decide, rfl, rfl,
      by decide, by decide⟩⟩

/-- A quiet cycle in a state with output pending on both units, and in the reset state. -/
theorem test_witness_HandshakeHoldsStill :
    (∃ s t : State, step s = .next t ∧ (currentCycle s).rst = false ∧ encOutValid s = true ∧ encOutXfer s = none ∧
      encInXfer s = none ∧ decOutValid s = true ∧ decOutXfer s = none ∧ decInXfer s = none) ∧
    (∃ s t : State, step s = .next t ∧ (currentCycle s).rst = false ∧ encInReady s = true ∧ encInXfer s = none ∧
      decInReady s = true ∧ decInXfer s = none) :=
  ⟨⟨{ dataSt 2 0x4142 false with encQ := 371, encCnt := 2 }, _, rfl, by decide, by decide, by decide, by decide,
      by decide, by decide, by decide⟩,
    ⟨State.reset, _, rfl, by decide, by decide, by decide, by decide, by decide⟩⟩

theorem test_witness_FramingIsABijection :
    unframeBytes [0x24142, 0x1AB21, 0x0FFFF] = some [0x41, 0x42, 0x21] ∧
      unframeChars [0x042, 0x1A5] = some [0x42] := by decide

/-- One cycle out of each phase of the encoder. -/
theorem test_witness_EncoderPhases :
    (∃ s t : State, Inv s ∧ (currentCycle s).rst = false ∧ step s = .next t ∧ encPhase s = .idle ∧
      encInXfer s = some 0x10021 ∧ decodeEiw 0x10021 = .encSingle 0 0x21) ∧
    (∃ s t : State, Inv s ∧ (currentCycle s).rst = false ∧ step s = .next t ∧ encPhase s = .emit ∧
      encOutXfer s = some 0x057 ∧ s.encCnt = 1) ∧
    (∃ s t : State, Inv s ∧ (currentCycle s).rst = false ∧ step s = .next t ∧ encPhase s = .endp ∧
      encOutXfer s = some 0x100) :=
  ⟨⟨run State.reset [cycleFor .encIn 0x10021], _, by decide, by decide, rfl, by decide, by decide, by decide⟩,
    ⟨run (encSt 32 1 false) [sinksReady], _, by decide, by decide, rfl, by decide, by decide, by decide⟩,
    ⟨run (encSt 0 0 true) [sinksReady], _, by decide, by decide, rfl, by decide, by decide⟩⟩

/-- The other beats an idle encoder may take, and a quiet cycle in each phase. -/
theorem test_witness_EncoderPhases_other :
    encInXfer (run State.reset [cycleFor .encIn 0x24142]) = some 0x24142 ∧
    encInXfer (run State.reset [cycleFor .encIn 0x0FFFF]) = some 0x0FFFF ∧
    encInXfer (run State.reset [cycleFor .encIn 0x3BEEF]) = some 0x3BEEF ∧
    encInXfer State.reset = none ∧ encOutXfer (encSt 32 1 false) = none ∧ encOutXfer (encSt 0 0 true) = none ∧
    Inv (encSt 32 1 false) ∧ Inv (encSt 0 0 true) :=
  ⟨by decide, by decide, by decide, by decide, by decide, by decide, by decide, by decide⟩

/-- A quiet cycle in each phase of the decoder. -/
theorem test_witness_DecoderPhases_quiet :
    decInXfer State.reset = none ∧ decOutXfer (dataSt 2 0x4142 false) = none ∧ decOutXfer (endSt 3) = none ∧
    Inv (dataSt 2 0x4142 false) ∧ Inv (endSt 3) :=
  ⟨by decide, by decide, by decide, by decide, by decide⟩

/-- One cycle out of each phase of the decoder. -/
theorem test_witness_DecoderPhases :
    (∃ s t : State, Inv s ∧ (currentCycle s).rst = false ∧ step s = .next t ∧ decPhase s = .idle ∧
      decInXfer s = some 0x057 ∧ decodeDiw 0x057 = .decChar 0x57) ∧
    (∃ s t : State, Inv s ∧ (currentCycle s).rst = false ∧ step s = .next t ∧ decPhase s = .idle ∧
      decInXfer s = some 0x100 ∧ decodeDiw 0x100 = .decEnd 0) ∧
    (∃ s t : State, Inv s ∧ (currentCycle s).rst = false ∧ step s = .next t ∧ decPhase s = .data ∧
      decOutXfer s = some 0x100FF ∧ s.decEndp = true) ∧
    (∃ s t : State, Inv s ∧ (currentCycle s).rst = false ∧ step s = .next t ∧ decPhase s = .endp ∧
      decOutXfer s = some 0xC0000) :=
  ⟨⟨run (decSt 735 2 0) [cycleFor .decIn 0x057], _, by decide, by decide, rfl, by decide, by decide, by decide⟩,
    ⟨run (decSt 255 2 0) [cycleFor .decIn 0x100], _, by decide, by decide, rfl, by decide, by decide, by decide⟩,
    ⟨run (dataSt 1 0x00FF true) [sinksReady], _, by decide, by decide, rfl, by decide, by decide, by decide⟩,
    ⟨run (endSt 3) [sinksReady], _, by decide, by decide, rfl, by decide, by decide⟩⟩

/-- Both units owe two beats, and the sinks take two with a stall between. -/
def drainWitness : State :=
  run { dataSt 1 0x00FF true with encQ := 371, encCnt := 2 } [sinksReady, quietCycle, sinksReady]

theorem test_witness_UnitsDrainWhenTheirSinksTake :
    (∃ t, noReset 3 drainWitness = true ∧ runSteps 3 drainWitness = .next t ∧
      throughout (fun u => !(currentCycle u).encInValid) 3 drainWitness = true ∧
      throughout (fun u => !(currentCycle u).decInValid) 3 drainWitness = true ∧
      (encOwed drainWitness).length ≤ ((drainWitness.inputs.take 3).filter fun c => c.encOutReady).length ∧
      (decOwed drainWitness).length ≤ ((drainWitness.inputs.take 3).filter fun c => c.decOutReady).length) ∧
    (∃ t, exec (.encPair 1 2) State.reset = .next t ∧ encInReady State.reset = true) ∧
    (∃ t, exec (.decEnd 1) (decSt 255 2 0) = .next t ∧ decInReady (decSt 255 2 0) = true) :=
  ⟨⟨_, by decide, rfl, by decide, by decide, by decide, by decide⟩, ⟨_, rfl, by decide⟩, ⟨_, rfl, by decide⟩⟩

/-- The byte 0x21 in 5 cycles, and `"X0"` in 5 cycles (70 R216). -/
def eagerWitness : State :=
  run State.reset
    [{ cycleFor .encIn 0x10021 with encOutReady := true }, sinksReady, sinksReady,
      { cycleFor .encIn 0x00000 with encOutReady := true }, sinksReady]

/-- The decoder's side. -/
def eagerDecWitness : State :=
  run State.reset
    [{ cycleFor .decIn 0x058 with decOutReady := true }, { cycleFor .decIn 0x030 with decOutReady := true },
      { cycleFor .decIn 0x100 with decOutReady := true }, sinksReady, sinksReady]

theorem test_witness_MessagesCompleteInTheStatedCycles :
    (5 = 4 * ([0x21] : List Byte).length.div 2 + 3 * (([0x21] : List Byte).length % 2) + 2 ∧
      encInReady eagerWitness = true ∧ noReset 5 eagerWitness = true ∧
      eagerEncEnv 5 (frameBytes [0x21]) eagerWitness = true) ∧
    (refDecode (([0x58, 0x30] : List Byte).map BitVec.toNat) = .ok [0x21] ∧ decFresh eagerDecWitness ∧
      noReset 5 eagerDecWitness = true ∧ eagerDecEnv 5 (frameChars [0x58, 0x30]) eagerDecWitness = true) := by decide

/-- The narrowing that sends every wide code to 0xFF. -/
theorem test_witness_WideCodesNarrowWithoutChange :
    ∃ f : Nat → Byte, (∀ c, c < 256 → f c = BitVec.ofNat 8 c) ∧ (∀ c, 256 ≤ c → invAt (f c) = none) :=
  ⟨fun c => if c < 256 then BitVec.ofNat 8 c else 0xFF, fun c h => if_pos h, fun c h => by
    simp only [if_neg (Nat.not_lt.2 h)]
    decide⟩

end Sys2Proof.Tests
end

section
/-! PROOF. The output functions of both units (10_state.md R14, R20): what each output is in each case of the
registers, and that the schedule reaches none of them. -/

namespace Sys2Proof.Machine

/-- The ROM the machine reads holds the closed form of R81, entry by entry. -/
theorem alphabetAt_eq_refAlphabet : ∀ i : Digit, alphabetAt i = refAlphabet i.val := by decide

section EncoderOutputs

variable (s : State)

theorem encOutValid_iff : encOutValid s = true ↔ s.encCnt ≠ 0#2 ∨ s.encEndp = true := by
  simp [encOutValid]

theorem encOutEnd_iff : encOutEnd s = true ↔ s.encCnt = 0#2 ∧ s.encEndp = true := by
  simp [encOutEnd]

@[simp] theorem encInReady_withInputs (ins : List CycleIn) :
    encInReady { s with inputs := ins } = encInReady s := rfl

@[simp] theorem encOutValid_withInputs (ins : List CycleIn) :
    encOutValid { s with inputs := ins } = encOutValid s := rfl

@[simp] theorem encOutWord_withInputs (ins : List CycleIn) :
    encOutWord { s with inputs := ins } = encOutWord s := rfl

variable {s}

/-- While characters are owed, the one presented is that of the quotient's lowest digit. -/
theorem encOutChar_of_encCnt_ne_zero (h : s.encCnt ≠ 0#2) : encOutChar s = refAlphabet (s.encQ.toNat % 45) :=
  calc encOutChar s
    _ = alphabetAt (quotientDigit s.encQ) := if_pos h
    _ = refAlphabet (quotientDigit s.encQ).val := alphabetAt_eq_refAlphabet _
    _ = refAlphabet (s.encQ.toNat % 45) := by rw [quotientDigit_val]

theorem encOutChar_of_encCnt_eq_zero (h : s.encCnt = 0#2) : encOutChar s = 0x00#8 :=
  if_neg (not_not_intro h)

end EncoderOutputs

section DecoderOutputs

variable (s : State)

theorem decOutValid_iff : decOutValid s = true ↔ s.decOv = true ∨ s.decEndp = true := by
  simp [decOutValid]

@[simp] theorem decInReady_withInputs (ins : List CycleIn) :
    decInReady { s with inputs := ins } = decInReady s := rfl

@[simp] theorem decOutValid_withInputs (ins : List CycleIn) :
    decOutValid { s with inputs := ins } = decOutValid s := rfl

@[simp] theorem decOutWord_withInputs (ins : List CycleIn) :
    decOutWord { s with inputs := ins } = decOutWord s := rfl

variable {s}

theorem decOutOp_of_decOv (h : s.decOv = true) : decOutOp s = s.decOop := if_pos h

theorem decOutOp_of_not_decOv (h : s.decOv = false) : decOutOp s = 0#2 := by
  simp [decOutOp, h]

theorem decOutData_of_decOv (h : s.decOv = true) : decOutData s = s.decOd := if_pos h

theorem decOutData_of_not_decOv (h : s.decOv = false) : decOutData s = 0#16 := by
  simp [decOutData, h]

theorem decOutStatus_of_decOv (h : s.decOv = true) : decOutStatus s = 0#2 := if_pos h

/-- The status is read out once no data beat stands before the END beat. -/
theorem decOutStatus_of_decEndp (hov : s.decOv = false) (hendp : s.decEndp = true) : decOutStatus s = s.decEst := by
  simp [decOutStatus, hov, hendp]

theorem decOutStatus_of_nothing_pending (hov : s.decOv = false) (hendp : s.decEndp = false) :
    decOutStatus s = 0#2 := by
  simp [decOutStatus, hov, hendp]

end DecoderOutputs

/-- Settles O3: the four formulas of R14, output by output, and the encoder's outputs with another schedule. -/
theorem encoderOutputFunctions : Obligations.EncoderOutputFunctions := fun s =>
  ⟨encInReady_iff s, encOutValid_iff s, encOutEnd_iff s,
    encOutChar_of_encCnt_ne_zero, encOutChar_of_encCnt_eq_zero,
    fun ins => ⟨encInReady_withInputs s ins, encOutWord_withInputs s ins, encOutValid_withInputs s ins⟩⟩

/-- Settles O4: the three cases of R20 (data beat pending, END beat pending, nothing pending), and the decoder's
outputs with another schedule. -/
theorem decoderOutputFunctions : Obligations.DecoderOutputFunctions := by
  intro s
  refine ⟨decInReady_iff s, decOutValid_iff s, fun hov => ?data, fun hov hendp => ?endBeat, fun hov hendp => ?idle,
    fun ins => ⟨decInReady_withInputs s ins, decOutWord_withInputs s ins, decOutValid_withInputs s ins⟩⟩
  case data => exact ⟨decOutOp_of_decOv hov, decOutData_of_decOv hov, decOutStatus_of_decOv hov⟩
  case endBeat =>
    exact ⟨decOutOp_of_not_decOv hov, decOutData_of_not_decOv hov, decOutStatus_of_decEndp hov hendp⟩
  case idle =>
    exact ⟨decOutOp_of_not_decOv hov, decOutData_of_not_decOv hov, decOutStatus_of_nothing_pending hov hendp⟩

end Sys2Proof.Machine
end

section
/-! PROOF. One clock edge as a function of the state, unit by unit, and the independence of the two units
(20_memory.md R56). Each unit's registers are cut out of the state by a view; the unit's own edge commutes with its
view, and the other unit's edge does not move it. -/

namespace Sys2Proof.Machine

/-- What a beat accepted on `enc_in` does to the registers of a ready encoder (40_encoder.md R107 to R110). -/
def encInEffect : Instr → State → State
  | .encPair hi lo => loadGroup (pairValue hi lo) 3#2
  | .encSingle _ lo => loadGroup (singleValue lo) 2#2
  | .encEnd _ => openEncEnd
  | _ => id

/-- What a beat accepted on `dec_in` does to the registers of a ready decoder (41_decoder.md R137 to R142). -/
def decInEffect : Instr → State → State
  | .decChar char => takeChar char
  | .decEnd _ => endMessage
  | _ => id

/-- The state after the encoder's part of the edge, branch by branch as R113 lists them. -/
def encNext (c : CycleIn) (s : State) : State :=
  if s.encCnt ≠ 0#2 then (if c.encOutReady then radixStep s else s)
  else if s.encEndp then (if c.encOutReady then takeEncEnd s else s)
  else if c.encInValid then encInEffect (decodeEiw (encInWord c)) s else s

/-- The state after the decoder's part of the edge, branch by branch as R146 lists them. -/
def decNext (c : CycleIn) (s : State) : State :=
  if s.decOv then (if c.decOutReady then takeData s else s)
  else if s.decEndp then (if c.decOutReady then takeDecEnd s else s)
  else if c.decInValid then decInEffect (decodeDiw (decInWord c)) s else s

theorem exec_encIn {i : Instr} (hp : i.port = .encIn) (s : State) :
    exec i s = acceptEnc (encInEffect i) s := by
  cases i with
  | encEnd | encSingle | encPair | encRsvd3 => rfl
  | encoChar | encoEnd | decChar | decEnd | decoEnd | decoByte | decoWord => cases hp

theorem exec_decIn {i : Instr} (hp : i.port = .decIn) (s : State) :
    exec i s = acceptDec (decInEffect i) s := by
  cases i with
  | decChar | decEnd => rfl
  | encEnd | encSingle | encPair | encRsvd3 | encoChar | encoEnd | decoEnd | decoByte | decoWord => cases hp

theorem encEdge_eq_next (c : CycleIn) (s : State) : encEdge c s = .next (encNext c s) := by
  obtain ⟨hcnt, hout, h⟩ | ⟨hcnt, hendp, hout, h⟩ | ⟨hready, hout, h⟩ | ⟨hready, hin, h⟩ | ⟨hready, hin, h⟩ :=
    encEdge_cases c s
  · simp [h, encNext, hcnt, hout]
  · simp [h, encNext, hcnt, hendp, hout]
  · have hpending : s.encCnt = 0#2 → s.encEndp = true := by simpa [encInReady] using hready
    by_cases hcnt : s.encCnt = 0#2
    · simp [h, encNext, hcnt, hpending hcnt, hout]
    · simp [h, encNext, hcnt, hout]
  · obtain ⟨hcnt, hendp⟩ := (encInReady_iff s).1 hready
    simp [h, encNext, hcnt, hendp, hin]
  · obtain ⟨hcnt, hendp⟩ := (encInReady_iff s).1 hready
    rw [h, exec_encIn (decodeEiw_port _)]
    simp [acceptEnc, hready, encNext, hcnt, hendp, hin]

theorem decEdge_eq_next (c : CycleIn) (s : State) : decEdge c s = .next (decNext c s) := by
  obtain ⟨hov, hout, h⟩ | ⟨hov, hendp, hout, h⟩ | ⟨hready, hout, h⟩ | ⟨hready, hin, h⟩ | ⟨hready, hin, h⟩ :=
    decEdge_cases c s
  · simp [h, decNext, hov, hout]
  · simp [h, decNext, hov, hendp, hout]
  · have hpending : s.decOv = false → s.decEndp = true := by simpa [decInReady] using hready
    cases hov : s.decOv
    · simp [h, decNext, hov, hpending hov, hout]
    · simp [h, decNext, hov, hout]
  · obtain ⟨hov, hendp⟩ := (decInReady_iff s).1 hready
    simp [h, decNext, hov, hendp, hin]
  · obtain ⟨hov, hendp⟩ := (decInReady_iff s).1 hready
    rw [h, exec_decIn (decodeDiw_port _)]
    simp [acceptDec, hready, decNext, hov, hendp, hin]

/-- The state after the rising edge (70_reset_and_hazards.md R200; 00_scope.md section 6 point 1). -/
def stepNext (c : CycleIn) (s : State) : State :=
  if c.rst then clearRegisters s else decNext c (encNext c s)

theorem step_eq_next (s : State) : step s = .next (stepNext (currentCycle s) (popCycle s)) := by
  obtain ⟨hrst, h⟩ | ⟨hrst, h⟩ := step_cases s
  · simp [h, stepNext, hrst]
  · simp [h, stepNext, hrst, encEdge_eq_next, decEdge_eq_next]

theorem eq_stepNext_of_step {s t : State} (h : step s = .next t) :
    t = stepNext (currentCycle s) (popCycle s) :=
  Host.Outcome.next.inj (h.symm.trans (step_eq_next s))

section EncoderView

/-- The encoder's registers, with everything else of the state at its reset value. -/
def encView (s : State) : State :=
  { State.reset with encQ := s.encQ, encCnt := s.encCnt, encEndp := s.encEndp }

theorem encView_eq_iff {s t : State} : encView s = encView t ↔ sameEncoder s t := by
  simp [encView]

/-- What the encoder's registers become in one cycle (R113). -/
def encStep (c : CycleIn) (s : State) : State := if c.rst then clearRegisters s else encNext c s

theorem encStep_congr {c d : CycleIn} (h : sameEncInputs c d) (s : State) : encStep c s = encStep d s := by
  obtain ⟨hrst, hvalid, hop, hdata, hready⟩ := h
  simp only [encStep, encNext, encInWord, hrst, hvalid, hop, hdata, hready]

variable (s : State)

theorem encView_popCycle : encView (popCycle s) = encView s := rfl

theorem encView_encInEffect (i : Instr) : encView (encInEffect i s) = encInEffect i (encView s) := by
  cases i <;> rfl

theorem encView_encNext (c : CycleIn) : encView (encNext c s) = encNext c (encView s) := by
  unfold encNext
  simp only [apply_ite encView, encView_encInEffect]
  rfl

theorem encView_closeTriplet (v : Nat) : encView (closeTriplet v s) = encView s := by
  obtain ⟨-, h⟩ | ⟨-, h⟩ := closeTriplet_cases v s <;> rw [h] <;> rfl

theorem encView_takeChar (c : Byte) : encView (takeChar c s) = encView s := by
  obtain ⟨-, h⟩ | ⟨-, -, h⟩ | ⟨g, -, -, -, h⟩ | ⟨g, -, -, -, h⟩ | ⟨g, -, -, -, -, h⟩ := takeChar_cases c s <;> rw [h]
  case inr.inr.inr.inr => exact encView_closeTriplet (advancePos s) _
  all_goals rfl

theorem encView_endMessage : encView (endMessage s) = encView s := by
  obtain ⟨-, h⟩ | ⟨-, h⟩ := endMessage_cases s <;> rw [h] <;> rfl

theorem encView_decInEffect (i : Instr) : encView (decInEffect i s) = encView s := by
  cases i with
  | decChar char => exact encView_takeChar s char
  | decEnd => exact encView_endMessage s
  | _ => rfl

/-- The decoder's part of the edge does not move the encoder. -/
theorem encView_decNext (c : CycleIn) : encView (decNext c s) = encView s := by
  have hdata : encView (takeData s) = encView s := rfl
  have hend : encView (takeDecEnd s) = encView s := rfl
  simp only [decNext, apply_ite encView, hdata, hend, encView_decInEffect, ite_self]

variable {s}

/-- The encoder runs on its own registers and inputs alone. -/
theorem encView_step {t : State} (h : step s = .next t) : encView t = encStep (currentCycle s) (encView s) := by
  rw [eq_stepNext_of_step h, stepNext, encStep, apply_ite encView, encView_decNext, encView_encNext, encView_popCycle]
  rfl

theorem encoder_noninterference {s1 s2 t1 t2 : State} (h1 : step s1 = .next t1) (h2 : step s2 = .next t2)
    (hs : sameEncoder s1 s2) (hc : sameEncInputs (currentCycle s1) (currentCycle s2)) : sameEncoder t1 t2 :=
  encView_eq_iff.1 <|
    calc encView t1
      _ = encStep (currentCycle s1) (encView s1) := encView_step h1
      _ = encStep (currentCycle s2) (encView s2) := by rw [encStep_congr hc, encView_eq_iff.2 hs]
      _ = encView t2 := (encView_step h2).symm

end EncoderView

section DecoderView

/-- The decoder's registers, with everything else of the state at its reset value. -/
def decView (s : State) : State :=
  { s with encQ := 0#16, encCnt := 0#2, encEndp := false, inputs := [] }

theorem decView_eq_iff {s t : State} : decView s = decView t ↔ sameDecoder s t := by
  simp [decView]

/-- What the decoder's registers become in one cycle (R146). -/
def decStep (c : CycleIn) (s : State) : State := if c.rst then clearRegisters s else decNext c s

theorem decStep_congr {c d : CycleIn} (h : sameDecInputs c d) (s : State) : decStep c s = decStep d s := by
  obtain ⟨hrst, hvalid, hend, hchar, hready⟩ := h
  simp only [decStep, decNext, decInWord, hrst, hvalid, hend, hchar, hready]

variable (s : State)

theorem decView_popCycle : decView (popCycle s) = decView s := rfl

theorem decView_closeTriplet (v : Nat) : decView (closeTriplet v s) = closeTriplet v (decView s) := by
  unfold closeTriplet
  rw [apply_ite decView]
  rfl

theorem decView_takeDigit (pos : BitVec 2) (g : Digit) :
    decView (takeDigit pos g s) = takeDigit pos g (decView s) := by
  unfold takeDigit
  rw [apply_ite decView, apply_ite decView, decView_closeTriplet]
  rfl

theorem decView_takeChar (c : Byte) : decView (takeChar c s) = takeChar c (decView s) := by
  unfold takeChar
  rw [apply_ite decView]
  cases invAt c with
  | none => rfl
  | some g =>
    rw [decView_takeDigit]
    rfl

theorem decView_endMessage : decView (endMessage s) = endMessage (decView s) := by
  have hgood : goodTrailingPair (decView s) = goodTrailingPair s := rfl
  unfold endMessage
  rw [hgood]
  cases goodTrailingPair s <;> rfl

theorem decView_decInEffect (i : Instr) : decView (decInEffect i s) = decInEffect i (decView s) := by
  cases i with
  | decChar char => exact decView_takeChar s char
  | decEnd => exact decView_endMessage s
  | _ => rfl

theorem decView_decNext (c : CycleIn) : decView (decNext c s) = decNext c (decView s) := by
  unfold decNext
  simp only [apply_ite decView, decView_decInEffect]
  rfl

theorem decView_encInEffect (i : Instr) : decView (encInEffect i s) = decView s := by
  cases i <;> rfl

/-- The encoder's part of the edge does not move the decoder. -/
theorem decView_encNext (c : CycleIn) : decView (encNext c s) = decView s := by
  have hchar : decView (radixStep s) = decView s := rfl
  have hend : decView (takeEncEnd s) = decView s := rfl
  simp only [encNext, apply_ite decView, hchar, hend, decView_encInEffect, ite_self]

variable {s}

/-- The decoder runs on its own registers and inputs alone. -/
theorem decView_step {t : State} (h : step s = .next t) : decView t = decStep (currentCycle s) (decView s) := by
  rw [eq_stepNext_of_step h, stepNext, decStep, apply_ite decView, decView_decNext, decView_encNext, decView_popCycle]
  rfl

theorem decoder_noninterference {s1 s2 t1 t2 : State} (h1 : step s1 = .next t1) (h2 : step s2 = .next t2)
    (hs : sameDecoder s1 s2) (hc : sameDecInputs (currentCycle s1) (currentCycle s2)) : sameDecoder t1 t2 :=
  decView_eq_iff.1 <|
    calc decView t1
      _ = decStep (currentCycle s1) (decView s1) := decView_step h1
      _ = decStep (currentCycle s2) (decView s2) := by rw [decStep_congr hc, decView_eq_iff.2 hs]
      _ = decView t2 := (decView_step h2).symm

end DecoderView

/-- Settles O51: each unit's registers after a step are one function of its registers and inputs before it. -/
theorem unitsDoNotInterfere : Obligations.UnitsDoNotInterfere := fun _ _ _ _ h1 h2 =>
  ⟨encoder_noninterference h1 h2, decoder_noninterference h1 h2⟩

end Sys2Proof.Machine
end

section
/-! PROOF. Framing is a bijection (20_memory.md R53): the words of the input ports by their form, the two readers of
messages on each form of first word, and the bijection by induction over the buffer or the message. -/

namespace Sys2Proof.Machine

section BufferMessages

@[simp] theorem decodeEiw_end (d : BitVec 16) : decodeEiw (mkEiw 0#2 d) = .encEnd d := by
  simp [decodeEiw]

@[simp] theorem decodeEiw_single (x l : Byte) : decodeEiw (mkEiw 1#2 (joinBytes x l)) = .encSingle x l := by
  simp [decodeEiw]

@[simp] theorem decodeEiw_pair (h l : Byte) : decodeEiw (mkEiw 2#2 (joinBytes h l)) = .encPair h l := by
  simp [decodeEiw]

@[simp] theorem decodeEiw_rsvd3 (d : BitVec 16) : decodeEiw (mkEiw 3#2 d) = .encRsvd3 d := by
  simp [decodeEiw]

/-- The four forms of an `enc_in` word (30_encoding.md R73). -/
theorem eiw_cases (w : Eiw) :
    (∃ d, w = mkEiw 0#2 d) ∨ (∃ x l, w = mkEiw 1#2 (joinBytes x l)) ∨
    (∃ h l, w = mkEiw 2#2 (joinBytes h l)) ∨ (∃ d, w = mkEiw 3#2 d) := by
  have hw := mkEiw_fields w
  have hop : eiwOp w = 0#2 ∨ eiwOp w = 1#2 ∨ eiwOp w = 2#2 ∨ eiwOp w = 3#2 := by bv_omega
  obtain hop | hop | hop | hop := hop <;> rw [hop] at hw
  · exact .inl ⟨_, hw.symm⟩
  · exact .inr (.inl ⟨eiwHi w, eiwLo w, by rw [joinBytes_eiw, hw]⟩)
  · exact .inr (.inr (.inl ⟨eiwHi w, eiwLo w, by rw [joinBytes_eiw, hw]⟩))
  · exact .inr (.inr (.inr ⟨_, hw.symm⟩))

/-- Only a word with `op` 0 is an END beat. -/
theorem eq_mkEiw_of_decodeEiw_end {w : Eiw} {d : BitVec 16} (h : decodeEiw w = .encEnd d) : w = mkEiw 0#2 d := by
  obtain ⟨d', rfl⟩ | ⟨x, l, rfl⟩ | ⟨x, l, rfl⟩ | ⟨d', rfl⟩ := eiw_cases w <;> simp_all

variable (rest : List Eiw)

@[simp] theorem unframeBytes_end (d : BitVec 16) :
    unframeBytes (mkEiw 0#2 d :: rest) = if rest.isEmpty then some [] else none := by
  simp [unframeBytes]

@[simp] theorem unframeBytes_pair (h l : Byte) :
    unframeBytes (mkEiw 2#2 (joinBytes h l) :: rest) = (unframeBytes rest).map fun bs => h :: l :: bs := by
  simp [unframeBytes]

@[simp] theorem unframeBytes_rsvd3 (d : BitVec 16) : unframeBytes (mkEiw 3#2 d :: rest) = none := by
  simp [unframeBytes]

variable {rest}

theorem map_decodeEiw_eq_end_iff {d : BitVec 16} : rest.map decodeEiw = [.encEnd d] ↔ rest = [mkEiw 0#2 d] := by
  constructor
  · intro h
    obtain ⟨w, rfl, hw⟩ := List.map_eq_singleton_iff.1 h
    rw [eq_mkEiw_of_decodeEiw_end hw]
  · rintro rfl
    simp

/-- A SINGLE beat is read only when END is all that follows it. -/
theorem unframeBytes_single_eq_some {x l : Byte} {b : List Byte} :
    unframeBytes (mkEiw 1#2 (joinBytes x l) :: rest) = some b ↔ (∃ d, rest = [mkEiw 0#2 d]) ∧ b = [l] := by
  constructor
  · intro h
    simp only [unframeBytes, decodeEiw_single] at h
    split at h
    next d hd => exact ⟨⟨d, map_decodeEiw_eq_end_iff.1 hd⟩, (Option.some.inj h).symm⟩
    next => cases h
  · rintro ⟨⟨d, rfl⟩, rfl⟩
    simp [unframeBytes]

/-- The shape allows a SINGLE beat only when END is all that follows it. -/
theorem wfEncMessage_single {x l : Byte} {is : List Instr} :
    wfEncMessage (.encSingle x l :: is) = true ↔ ∃ d, is = [.encEnd d] := by
  constructor
  · intro h
    unfold wfEncMessage at h
    split at h
    next hd => cases hd
    next d hd => exact ⟨d, (List.cons.inj hd).2⟩
    next hd => cases hd
    next => cases h
  · rintro ⟨d, rfl⟩
    rfl

theorem unframeBytes_frameBytes (b : List Byte) : unframeBytes (frameBytes b) = some b := by
  fun_induction frameBytes b with
  | case1 b0 b1 rest ih => simp [ih]
  | case2 b => exact unframeBytes_single_eq_some.2 ⟨⟨_, rfl⟩, rfl⟩
  | case3 => simp

@[simp] theorem clearIgnored_end (d : BitVec 16) : clearIgnored (mkEiw 0#2 d) = mkEiw 0#2 0#16 := by
  simp [clearIgnored]

@[simp] theorem clearIgnored_single (x l : Byte) :
    clearIgnored (mkEiw 1#2 (joinBytes x l)) = mkEiw 1#2 (joinBytes 0#8 l) := by
  simp [clearIgnored]

@[simp] theorem clearIgnored_pair (h l : Byte) :
    clearIgnored (mkEiw 2#2 (joinBytes h l)) = mkEiw 2#2 (joinBytes h l) := by
  simp [clearIgnored]

theorem map_clearIgnored_of_unframeBytes {m : List Eiw} {b : List Byte} (hm : unframeBytes m = some b) :
    m.map clearIgnored = frameBytes b := by
  induction m generalizing b with
  | nil => cases hm
  | cons w rest ih =>
    obtain ⟨d, rfl⟩ | ⟨x, l, rfl⟩ | ⟨h, l, rfl⟩ | ⟨d, rfl⟩ := eiw_cases w
    · simp only [unframeBytes_end, List.isEmpty_iff, Option.ite_none_right_eq_some, Option.some.injEq] at hm
      obtain ⟨rfl, rfl⟩ := hm
      simp [frameBytes]
    · obtain ⟨⟨d, rfl⟩, rfl⟩ := unframeBytes_single_eq_some.1 hm
      simp [frameBytes]
    · rw [unframeBytes_pair, Option.map_eq_some_iff] at hm
      obtain ⟨bs, hbs, rfl⟩ := hm
      simp [frameBytes, ih hbs]
    · simp at hm

theorem isSome_unframeBytes (m : List Eiw) : (unframeBytes m).isSome = wfEncMessage (m.map decodeEiw) := by
  induction m with
  | nil => rfl
  | cons w rest ih =>
    obtain ⟨d, rfl⟩ | ⟨x, l, rfl⟩ | ⟨h, l, rfl⟩ | ⟨d, rfl⟩ := eiw_cases w
    · cases rest <;> simp [wfEncMessage]
    · rw [List.map_cons, decodeEiw_single, Bool.eq_iff_iff, wfEncMessage_single, Option.isSome_iff_exists]
      simp only [unframeBytes_single_eq_some, map_decodeEiw_eq_end_iff, exists_and_left, exists_eq, and_true]
    · simp [wfEncMessage, ih]
    · simp [wfEncMessage]

end BufferMessages

section StringMessages

@[simp] theorem decodeDiw_char (c : Byte) : decodeDiw (mkCharWord false c) = .decChar c := by
  simp [decodeDiw]

@[simp] theorem decodeDiw_end (x : Byte) : decodeDiw (mkCharWord true x) = .decEnd x := by
  simp [decodeDiw]

/-- The two forms of a `dec_in` word (30_encoding.md R74). -/
theorem diw_cases (w : Diw) : (∃ c, w = mkCharWord false c) ∨ (∃ x, w = mkCharWord true x) := by
  have hw := mkCharWord_fields w
  cases hend : charWordEnd w <;> rw [hend] at hw
  · exact .inl ⟨_, hw.symm⟩
  · exact .inr ⟨_, hw.symm⟩

variable (rest : List Diw)

@[simp] theorem unframeChars_char (c : Byte) :
    unframeChars (mkCharWord false c :: rest) = (unframeChars rest).map fun cs => c :: cs := by
  simp [unframeChars]

@[simp] theorem unframeChars_end (x : Byte) :
    unframeChars (mkCharWord true x :: rest) = if rest.isEmpty then some [] else none := by
  simp [unframeChars]

theorem unframeChars_frameChars (cs : List Byte) : unframeChars (frameChars cs) = some cs := by
  induction cs with
  | nil => simp [frameChars]
  | cons c rest ih => simp [frameChars, ih]

/-- Only the ignored bits `x` of the END beat are not told by the string. -/
theorem eq_chars_end_of_unframeChars {m : List Diw} {cs : List Byte} (hm : unframeChars m = some cs) :
    ∃ x : Byte, m = cs.map (mkCharWord false) ++ [mkCharWord true x] := by
  induction m generalizing cs with
  | nil => cases hm
  | cons w rest ih =>
    obtain ⟨c, rfl⟩ | ⟨x, rfl⟩ := diw_cases w
    · rw [unframeChars_char, Option.map_eq_some_iff] at hm
      obtain ⟨cs', hcs', rfl⟩ := hm
      obtain ⟨x, rfl⟩ := ih hcs'
      exact ⟨x, rfl⟩
    · simp only [unframeChars_end, List.isEmpty_iff, Option.ite_none_right_eq_some, Option.some.injEq] at hm
      obtain ⟨rfl, rfl⟩ := hm
      exact ⟨x, rfl⟩

theorem isSome_unframeChars (m : List Diw) : (unframeChars m).isSome = wfDecMessage (m.map decodeDiw) := by
  induction m with
  | nil => rfl
  | cons w rest ih =>
    obtain ⟨c, rfl⟩ | ⟨x, rfl⟩ := diw_cases w
    · simp [wfDecMessage, ih]
    · cases rest <;> simp [wfDecMessage]

end StringMessages

/-- Settles O53: frame then read is the identity, reading fixes every bit but the ignored ones, and what can be read
is what has the shape of a message; for buffers, then for strings. -/
theorem framingIsABijection : Obligations.FramingIsABijection :=
  ⟨unframeBytes_frameBytes, fun _ _ => map_clearIgnored_of_unframeBytes, isSome_unframeBytes,
    unframeChars_frameChars, fun _ _ => eq_chars_end_of_unframeChars, isSome_unframeChars⟩

end Sys2Proof.Machine
end

section
/-! PROOF. Mask and match (30_encoding.md R72 to R74). On each port, a mask and a match that are written field by field
compare the word field by field, and the decoder asks the same of the fields; R72's row of a beat kind follows from the
two. -/

namespace Sys2Proof

open Machine

theorem append_eq_append_iff {v w : Nat} {x x' : BitVec v} {y y' : BitVec w} :
    x ++ y = x' ++ y' ↔ x = x' ∧ y = y' := by
  constructor
  · intro h
    have hx := congrArg (BitVec.extractLsb' w v) h
    have hy := congrArg (BitVec.extractLsb' 0 w) h
    rw [BitVec.extractLsb'_append_eq_left, BitVec.extractLsb'_append_eq_left] at hx
    rw [BitVec.extractLsb'_append_eq_right, BitVec.extractLsb'_append_eq_right] at hy
    exact ⟨hx, hy⟩
  · rintro ⟨rfl, rfl⟩
    rfl

section EncoderInput

variable {w : Eiw}

theorem mkEiw_and (op m : BitVec 2) (d n : BitVec 16) : mkEiw op d &&& mkEiw m n = mkEiw (op &&& m) (d &&& n) :=
  BitVec.and_append

theorem eiw_and_eq_iff {m op : BitVec 2} {n d : BitVec 16} :
    w &&& mkEiw m n = mkEiw op d ↔ eiwOp w &&& m = op ∧ eiwData w &&& n = d := by
  have hand := mkEiw_and (eiwOp w) m (eiwData w) n
  rw [mkEiw_fields] at hand
  rw [hand]
  exact append_eq_append_iff

/-- The mask 0x30000 keeps `op` and nothing else. -/
theorem eiw_and_opMask_eq_iff {op : BitVec 2} : w &&& 0x30000#18 = mkEiw op 0#16 ↔ eiwOp w = op := by
  rw [show 0x30000#18 = mkEiw (.allOnes 2) 0#16 from rfl, eiw_and_eq_iff, BitVec.and_allOnes, BitVec.and_zero,
    and_iff_left rfl]

theorem decodeEiw_isEnd_iff : (∃ d, decodeEiw w = .encEnd d) ↔ eiwOp w = 0#2 := by
  obtain ⟨d, rfl⟩ | ⟨x, l, rfl⟩ | ⟨h, l, rfl⟩ | ⟨d, rfl⟩ := eiw_cases w <;> simp

theorem decodeEiw_isSingle_iff : (∃ h l, decodeEiw w = .encSingle h l) ↔ eiwOp w = 1#2 := by
  obtain ⟨d, rfl⟩ | ⟨x, l, rfl⟩ | ⟨h, l, rfl⟩ | ⟨d, rfl⟩ := eiw_cases w <;> simp

theorem decodeEiw_isPair_iff : (∃ h l, decodeEiw w = .encPair h l) ↔ eiwOp w = 2#2 := by
  obtain ⟨d, rfl⟩ | ⟨x, l, rfl⟩ | ⟨h, l, rfl⟩ | ⟨d, rfl⟩ := eiw_cases w <;> simp

theorem decodeEiw_isRsvd3_iff : (∃ d, decodeEiw w = .encRsvd3 d) ↔ eiwOp w = 3#2 := by
  obtain ⟨d, rfl⟩ | ⟨x, l, rfl⟩ | ⟨h, l, rfl⟩ | ⟨d, rfl⟩ := eiw_cases w <;> simp

end EncoderInput

section CharacterWords

variable {w : BitVec 9}

theorem mkCharWord_and (e m : Bool) (c n : Byte) :
    mkCharWord e c &&& mkCharWord m n = mkCharWord (e && m) (c &&& n) :=
  BitVec.and_append.trans (congrArg (· ++ (c &&& n)) BitVec.ofBool_and_ofBool)

theorem charWord_and_eq_iff {m e : Bool} {n c : Byte} :
    w &&& mkCharWord m n = mkCharWord e c ↔ (charWordEnd w && m) = e ∧ charWordChar w &&& n = c := by
  have hand := mkCharWord_and (charWordEnd w) m (charWordChar w) n
  rw [mkCharWord_fields] at hand
  rw [hand, ← BitVec.ofBool_eq_iff_eq]
  exact append_eq_append_iff

/-- The mask 0x100 keeps `end` and nothing else. -/
theorem charWord_and_endMask_eq_iff {e : Bool} : w &&& 0x100#9 = mkCharWord e 0#8 ↔ charWordEnd w = e := by
  rw [show 0x100#9 = mkCharWord true 0#8 from rfl, charWord_and_eq_iff, Bool.and_true, BitVec.and_zero,
    and_iff_left rfl]

/-- The mask 0x1FF keeps the whole word. -/
theorem charWord_and_wordMask_eq_iff : w &&& 0x1FF#9 = 0x100#9 ↔ charWordEnd w = true ∧ charWordChar w = 0#8 := by
  rw [show 0x1FF#9 = mkCharWord true (.allOnes 8) from rfl, show 0x100#9 = mkCharWord true 0#8 from rfl,
    charWord_and_eq_iff, Bool.and_true, BitVec.and_allOnes]

theorem decodeDiw_isChar_iff : (∃ c, decodeDiw w = .decChar c) ↔ charWordEnd w = false := by
  obtain ⟨c, rfl⟩ | ⟨x, rfl⟩ := diw_cases w <;> simp

theorem decodeDiw_isEnd_iff : (∃ c, decodeDiw w = .decEnd c) ↔ charWordEnd w = true := by
  obtain ⟨c, rfl⟩ | ⟨x, rfl⟩ := diw_cases w <;> simp

@[simp] theorem decodeEow_char (c : Byte) : decodeEow (mkCharWord false c) = .instr (.encoChar c) := by
  simp [decodeEow]

@[simp] theorem decodeEow_end (x : Byte) :
    decodeEow (mkCharWord true x) = if x = 0#8 then .instr .encoEnd else .rejected .encoEndChar := by
  simp [decodeEow]

theorem decodeEow_isChar_iff : (∃ c, decodeEow w = .instr (.encoChar c)) ↔ charWordEnd w = false := by
  obtain ⟨c, rfl⟩ | ⟨x, rfl⟩ := diw_cases w
  · simp
  · by_cases hx : x = 0#8 <;> simp [hx]

theorem decodeEow_eq_end_iff : decodeEow w = .instr .encoEnd ↔ charWordEnd w = true ∧ charWordChar w = 0#8 := by
  obtain ⟨c, rfl⟩ | ⟨x, rfl⟩ := diw_cases w <;> simp

end CharacterWords

section DecoderOutput

variable {w : Dow}

theorem mkDow_and (st ms op mo : BitVec 2) (d n : BitVec 16) :
    mkDow st op d &&& mkDow ms mo n = mkDow (st &&& ms) (op &&& mo) (d &&& n) :=
  BitVec.and_append.trans (congrArg (· ++ (d &&& n)) BitVec.and_append)

theorem joinBytes_and (h mh l ml : Byte) : joinBytes h l &&& joinBytes mh ml = joinBytes (h &&& mh) (l &&& ml) :=
  BitVec.and_append

theorem dow_and_eq_iff {ms mo st op : BitVec 2} {mh ml hi lo : Byte} :
    w &&& mkDow ms mo (joinBytes mh ml) = mkDow st op (joinBytes hi lo) ↔
      dowStatus w &&& ms = st ∧ dowOp w &&& mo = op ∧ dowHi w &&& mh = hi ∧ dowLo w &&& ml = lo := by
  have hand := mkDow_and (dowStatus w) ms (dowOp w) mo (joinBytes (dowHi w) (dowLo w)) (joinBytes mh ml)
  rw [mkDow_fields, joinBytes_and] at hand
  rw [hand, ← and_assoc, ← append_eq_append_iff, ← append_eq_append_iff]
  exact append_eq_append_iff

/-- The mask 0x3FFFF keeps every field but `status`. -/
theorem dow_and_endMask_eq_iff : w &&& 0x3FFFF#20 = 0x00000#20 ↔ dowOp w = 0#2 ∧ dowHi w = 0#8 ∧ dowLo w = 0#8 := by
  rw [show 0x3FFFF#20 = mkDow 0#2 (.allOnes 2) (joinBytes (.allOnes 8) (.allOnes 8)) from rfl,
    show 0x00000#20 = mkDow 0#2 0#2 (joinBytes 0#8 0#8) from rfl, dow_and_eq_iff]
  simp only [BitVec.and_allOnes, BitVec.and_zero, true_and]

/-- The mask 0xFFF00 keeps every field but `lo`. -/
theorem dow_and_byteMask_eq_iff :
    w &&& 0xFFF00#20 = 0x10000#20 ↔ dowStatus w = 0#2 ∧ dowOp w = 1#2 ∧ dowHi w = 0#8 := by
  rw [show 0xFFF00#20 = mkDow (.allOnes 2) (.allOnes 2) (joinBytes (.allOnes 8) 0#8) from rfl,
    show 0x10000#20 = mkDow 0#2 1#2 (joinBytes 0#8 0#8) from rfl, dow_and_eq_iff]
  simp only [BitVec.and_allOnes, BitVec.and_zero, and_true]

/-- The mask 0xF0000 keeps `status` and `op`. -/
theorem dow_and_wordMask_eq_iff : w &&& 0xF0000#20 = 0x20000#20 ↔ dowStatus w = 0#2 ∧ dowOp w = 2#2 := by
  rw [show 0xF0000#20 = mkDow (.allOnes 2) (.allOnes 2) (joinBytes 0#8 0#8) from rfl,
    show 0x20000#20 = mkDow 0#2 2#2 (joinBytes 0#8 0#8) from rfl, dow_and_eq_iff]
  simp only [BitVec.and_allOnes, BitVec.and_zero, and_true]

/-- The only words that are beat kinds, each with its beat: END, BYTE and WORD (30_encoding.md R72, R76). -/
theorem decodeDow_eq_instr_iff {i : Instr} : decodeDow w = .instr i ↔
    ((dowOp w = 0#2 ∧ dowHi w = 0#8 ∧ dowLo w = 0#8) ∧ .decoEnd (dowStatus w) = i) ∨
    ((dowStatus w = 0#2 ∧ dowOp w = 1#2 ∧ dowHi w = 0#8) ∧ .decoByte (dowLo w) = i) ∨
    ((dowStatus w = 0#2 ∧ dowOp w = 2#2) ∧ .decoWord (dowHi w) (dowLo w) = i) := by
  have hop : dowOp w = 0#2 ∨ dowOp w = 1#2 ∨ dowOp w = 2#2 ∨ dowOp w = 3#2 := by bv_omega
  obtain hop | hop | hop | hop := hop
  · by_cases hdata : dowHi w = 0#8 ∧ dowLo w = 0#8 <;> simp [decodeDow, hop, hdata]
  · by_cases hst : dowStatus w = 0#2 <;> by_cases hhi : dowHi w = 0#8 <;> simp [decodeDow, hop, hst, hhi]
  · by_cases hst : dowStatus w = 0#2 <;> simp [decodeDow, hop, hst]
  · simp [decodeDow, hop]

theorem decodeDow_isEnd_iff :
    (∃ st, decodeDow w = .instr (.decoEnd st)) ↔ dowOp w = 0#2 ∧ dowHi w = 0#8 ∧ dowLo w = 0#8 := by
  simp [decodeDow_eq_instr_iff]

theorem decodeDow_isByte_iff :
    (∃ b, decodeDow w = .instr (.decoByte b)) ↔ dowStatus w = 0#2 ∧ dowOp w = 1#2 ∧ dowHi w = 0#8 := by
  simp [decodeDow_eq_instr_iff]

theorem decodeDow_isWord_iff :
    (∃ h l, decodeDow w = .instr (.decoWord h l)) ↔ dowStatus w = 0#2 ∧ dowOp w = 2#2 := by
  simp [decodeDow_eq_instr_iff]

end DecoderOutput

/-- Settles O33: each row of R72 by the fields its mask keeps, port by port. -/
theorem decodingFollowsMaskAndMatch : Obligations.DecodingFollowsMaskAndMatch :=
  ⟨fun _ => ⟨decodeEiw_isEnd_iff.trans eiw_and_opMask_eq_iff.symm,
      decodeEiw_isSingle_iff.trans eiw_and_opMask_eq_iff.symm,
      decodeEiw_isPair_iff.trans eiw_and_opMask_eq_iff.symm,
      decodeEiw_isRsvd3_iff.trans eiw_and_opMask_eq_iff.symm⟩,
    fun _ => ⟨decodeDiw_isChar_iff.trans charWord_and_endMask_eq_iff.symm,
      decodeDiw_isEnd_iff.trans charWord_and_endMask_eq_iff.symm⟩,
    fun _ => ⟨decodeEow_isChar_iff.trans charWord_and_endMask_eq_iff.symm,
      decodeEow_eq_end_iff.trans charWord_and_wordMask_eq_iff.symm⟩,
    fun _ => ⟨decodeDow_isEnd_iff.trans dow_and_endMask_eq_iff.symm,
      decodeDow_isByte_iff.trans dow_and_byteMask_eq_iff.symm,
      decodeDow_isWord_iff.trans dow_and_wordMask_eq_iff.symm⟩⟩

end Sys2Proof
end

section
/-! PROOF. The beats of `enc_in` and the encoder's step (40_encoder.md R107 to R110, R113): what a ready encoder does
with an offered beat, which beats it owes its sink afterwards, and that a step is `enc_step` on the registers as
numbers. -/

namespace Sys2Proof.Machine

section AcceptedBeats

variable {s : State}

theorem exec_encIn_of_ready {i : Instr} (hp : i.port = .encIn) (hr : encInReady s = true) :
    exec i s = .next (encInEffect i s) := by
  rw [exec_encIn hp, acceptEnc, if_pos hr]

/-- While characters of the group are owed, no further beat is accepted. -/
theorem encInReady_loadGroup {d : BitVec 16} {n : BitVec 2} (hn : n ≠ 0#2) :
    encInReady (loadGroup d n s) = false := by
  simp [encInReady, hn]

/-- A radix step presents the lowest digit and leaves the quotient (R111). -/
theorem groupBeats_succ (q : BitVec 16) (n : Nat) :
    groupBeats q (n + 1) = mkCharWord false (refAlphabet (q.toNat % 45)) :: groupBeats (nextQuotient q) n := by
  rw [groupBeats, alphabetAt_eq_refAlphabet, quotientDigit_val]

theorem groupBeats_two (q : BitVec 16) :
    groupBeats q 2 =
      [mkCharWord false (refAlphabet (q.toNat % 45)), mkCharWord false (refAlphabet (q.toNat / 45 % 45))] := by
  rw [groupBeats_succ, groupBeats_succ, toNat_nextQuotient, groupBeats]

theorem groupBeats_three (q : BitVec 16) :
    groupBeats q 3 =
      [mkCharWord false (refAlphabet (q.toNat % 45)), mkCharWord false (refAlphabet (q.toNat / 45 % 45)),
        mkCharWord false (refAlphabet (q.toNat / 2025 % 45))] := by
  rw [groupBeats_succ, groupBeats_two, toNat_nextQuotient, Nat.div_div_eq_div_mul]

theorem encOwed_of_encInReady (hr : encInReady s = true) : encOwed s = [] := by
  obtain ⟨hcnt, hendp⟩ := (encInReady_iff s).1 hr
  simp [encOwed, groupBeats, hcnt, hendp]

/-- A ready encoder has no END beat pending, so a new group is all it owes. -/
theorem encOwed_loadGroup (hr : encInReady s = true) (d : BitVec 16) (n : BitVec 2) :
    encOwed (loadGroup d n s) = groupBeats d n.toNat := by
  obtain ⟨-, hendp⟩ := (encInReady_iff s).1 hr
  simp [encOwed, hendp]

/-- A ready encoder owes no character, so the END beat is all it owes. -/
theorem encOwed_openEncEnd (hr : encInReady s = true) : encOwed (openEncEnd s) = [mkCharWord true 0#8] := by
  obtain ⟨hcnt, -⟩ := (encInReady_iff s).1 hr
  simp [encOwed, groupBeats, hcnt]

end AcceptedBeats

/-- Settles O7: the pair's group of three characters. -/
theorem encPairLoadsThePair : Obligations.EncPairLoadsThePair := by
  intro s hi lo hr
  have hbusy : encInReady (loadGroup (pairValue hi lo) 3#2 s) = false := encInReady_loadGroup (by decide)
  refine ⟨loadGroup (pairValue hi lo) 3#2 s, exec_encIn_of_ready rfl hr, rfl, toNat_pairValue hi lo, hbusy, ?_, ?_⟩
  · rw [encOutValid_eq, hbusy, Bool.not_false]
  · exact (encOwed_loadGroup hr _ _).trans (groupBeats_three _)

/-- Settles O8: the byte's group of two characters. -/
theorem encSingleLoadsTheByte : Obligations.EncSingleLoadsTheByte := fun s _ lo hr =>
  ⟨loadGroup (singleValue lo) 2#2 s, exec_encIn_of_ready rfl hr, rfl, toNat_singleValue lo,
    (encOwed_loadGroup hr _ _).trans (groupBeats_two _)⟩

/-- Settles O9: nothing but the END beat is owed after an END beat. -/
theorem encEndOpensTheEnd : Obligations.EncEndOpensTheEnd := fun s _ hr =>
  ⟨openEncEnd s, exec_encIn_of_ready rfl hr, rfl, encOwed_openEncEnd hr⟩

/-- Settles O10: the reserved beat's effect is the identity, and a ready encoder owes nothing. -/
theorem encRsvd3ChangesNothing : Obligations.EncRsvd3ChangesNothing := fun _ _ hr =>
  ⟨exec_encIn_of_ready rfl hr, encOwed_of_encInReady hr⟩

section ReferenceStep

variable {c : CycleIn} {s : State}

theorem encRegs_radixStep (h : s.encCnt ≠ 0#2) :
    encRegs (radixStep s) = ⟨s.encQ.toNat / 45, s.encCnt.toNat - 1, s.encEndp⟩ := by
  have hcnt : (s.encCnt - 1#2).toNat = s.encCnt.toNat - 1 := by bv_omega
  simp [encRegs, hcnt]

/-- The transfer of an offered beat, by the four forms of its word (30_encoding.md R73). -/
theorem encRegs_encInEffect (hrst : c.rst = false) (hr : encInReady s = true) (hin : c.encInValid = true) :
    encRegs (encInEffect (decodeEiw (encInWord c)) s) = refEncStep (encRegs s) c := by
  obtain ⟨hcnt, hendp⟩ := (encInReady_iff s).1 hr
  obtain ⟨d, hw⟩ | ⟨x, l, hw⟩ | ⟨h, l, hw⟩ | ⟨d, hw⟩ := eiw_cases (encInWord c) <;>
    obtain ⟨hop, hdata⟩ := append_eq_append_iff.1 hw
  case inl => simp [hw, encInEffect, refEncStep, encRegs, hrst, hcnt, hendp, hin, hop]
  case inr.inl =>
    have hlow : c.encInData.toNat % 256 = l.toNat := by
      have hl := l.isLt
      have hjoin := toNat_joinBytes x l
      rw [hdata]
      omega
    simp [hw, encInEffect, refEncStep, encRegs, hrst, hcnt, hendp, hin, hop, hlow]
  case inr.inr.inl =>
    simp [hw, encInEffect, refEncStep, encRegs, hrst, hcnt, hendp, hin, hop, hdata, toNat_joinBytes]
  case inr.inr.inr => simp [hw, encInEffect, refEncStep, encRegs, hrst, hcnt, hendp, hin, hop]

/-- The encoder's registers after a cycle: the branches of `enc_step` in its order (R113). -/
theorem encRegs_encStep (c : CycleIn) (s : State) : encRegs (encStep c s) = refEncStep (encRegs s) c := by
  cases hrst : c.rst with
  | true => simp [encStep, refEncStep, hrst, clearRegisters, encRegs, State.reset]
  | false =>
    rw [encStep, hrst, if_neg Bool.false_ne_true]
    by_cases hcnt : s.encCnt = 0#2
    · cases hendp : s.encEndp with
      | true => cases hout : c.encOutReady <;> simp [encNext, refEncStep, encRegs, hrst, hcnt, hendp, hout]
      | false =>
        cases hin : c.encInValid with
        | true =>
          rw [← encRegs_encInEffect hrst ((encInReady_iff s).2 ⟨hcnt, hendp⟩) hin]
          simp [encNext, hcnt, hendp, hin]
        | false => simp [encNext, refEncStep, encRegs, hrst, hcnt, hendp, hin]
    · have hpos : s.encCnt.toNat ≠ 0 := fun h => hcnt (BitVec.eq_of_toNat_eq h)
      cases hout : c.encOutReady with
      | true =>
        rw [encNext, if_pos hcnt, if_pos hout, encRegs_radixStep hcnt]
        simp [refEncStep, encRegs, hrst, hpos, hout]
      | false => simp [encNext, refEncStep, encRegs, hrst, hcnt, hpos, hout]

/-- The encoder's registers of a state are those of its view. -/
theorem encRegs_encView (s : State) : encRegs (encView s) = encRegs s := rfl

theorem encRegs_step {t : State} (h : step s = .next t) :
    encRegs t = refEncStep (encRegs s) (currentCycle s) :=
  calc encRegs t
    _ = encRegs (encView t) := (encRegs_encView t).symm
    _ = encRegs (encStep (currentCycle s) (encView s)) := by rw [encView_step h]
    _ = refEncStep (encRegs (encView s)) (currentCycle s) := encRegs_encStep _ _
    _ = refEncStep (encRegs s) (currentCycle s) := by rw [encRegs_encView]

end ReferenceStep

section Events

/-- When a port's transfer shows the word `w` (20_memory.md R47): `own` is the unit's side of the handshake and `env`
the environment's. -/
theorem ite_transfer_eq_some_iff {α : Type} {rst env own : Bool} {x w : α} :
    (if !rst && env && own then some x else none) = some w ↔ rst = false ∧ own = true ∧ env = true ∧ w = x := by
  rw [Option.ite_none_right_eq_some, Bool.and_eq_true, Bool.and_eq_true, Bool.not_eq_true', and_assoc, and_assoc,
    Option.some_inj, eq_comm (a := x), and_left_comm (a := env = true)]

theorem encOutXfer_eq_some_iff {s : State} {w : Eow} :
    encOutXfer s = some w ↔ (currentCycle s).rst = false ∧ encOutValid s = true ∧
      (currentCycle s).encOutReady = true ∧ w = encOutWord s :=
  ite_transfer_eq_some_iff

theorem encInXfer_eq_some_iff {s : State} {w : Eiw} :
    encInXfer s = some w ↔ (currentCycle s).rst = false ∧ encInReady s = true ∧
      (currentCycle s).encInValid = true ∧ w = encInWord (currentCycle s) :=
  ite_transfer_eq_some_iff

end Events

/-- Settles O25: every step answers next, its registers are those of `enc_step`, and the two events are read off the
handshakes. -/
theorem encoderStepIsTheReferenceStep : Obligations.EncoderStepIsTheReferenceStep := fun s =>
  ⟨⟨_, step_eq_next s, encRegs_step (step_eq_next s)⟩,
    fun _ => encOutXfer_eq_some_iff, fun _ => encInXfer_eq_some_iff⟩

end Sys2Proof.Machine
end

section
/-! PROOF. The beats of the decoder and its step (41_decoder.md R137 to R146): the digits the ROM stores, what a ready
decoder does with a character or an END beat, what its sink takes, and that a step is `dec_step` on the registers as
numbers. -/

namespace Sys2Proof.Machine

section DigitTable

/-- The ROM the machine reads holds the closed form of R82, entry by entry. -/
theorem invAt_eq_refDigit : ∀ c : Byte, (invAt c).map Fin.val = refDigit c.toNat := by decide

variable {c : Byte} {g : Nat}

theorem invAt_eq_none_of_refDigit (h : refDigit c.toNat = none) : invAt c = none :=
  Option.map_eq_none_iff.1 ((invAt_eq_refDigit c).trans h)

theorem exists_invAt_of_refDigit (h : refDigit c.toNat = some g) : ∃ d : Digit, invAt c = some d ∧ d.val = g :=
  Option.map_eq_some_iff.1 ((invAt_eq_refDigit c).trans h)

end DigitTable

section Characters

variable {s : State} {c : Byte} {d : Digit}

theorem exec_decIn_of_ready {i : Instr} (hp : i.port = .decIn) (hr : decInReady s = true) :
    exec i s = .next (decInEffect i s) := by
  rw [exec_decIn hp, acceptDec, if_pos hr]

/-- The position advances in every case of a character. -/
theorem takeChar_decPos (c : Byte) (s : State) : (takeChar c s).decPos = nextPos s.decPos := by
  obtain ⟨-, h⟩ | ⟨-, -, h⟩ | ⟨g, -, -, -, h⟩ | ⟨g, -, -, -, h⟩ | ⟨g, -, -, -, -, h⟩ := takeChar_cases c s <;> rw [h]
  case inr.inr.inr.inr =>
    obtain ⟨-, h'⟩ | ⟨-, h'⟩ := closeTriplet_cases (tripletValue s.decAcc g) (advancePos s) <;> rw [h'] <;> rfl
  all_goals rfl

theorem advancePos_of_decPos {p : BitVec 2} (h : s.decPos = p) : advancePos s = { s with decPos := nextPos p } := by
  rw [← h, advancePos]

/-- The drain case (R137). -/
theorem takeChar_of_decErr (he : s.decErr ≠ 0#2) : takeChar c s = advancePos s := if_pos he

theorem takeChar_of_invAt_none (he : s.decErr = 0#2) (hc : invAt c = none) :
    takeChar c s = recordError .invalidCharacter (advancePos s) := by
  rw [takeChar, if_neg (not_not_intro he), hc]

theorem takeChar_of_invAt_some (he : s.decErr = 0#2) (hc : invAt c = some d) :
    takeChar c s = takeDigit s.decPos d (advancePos s) := by
  rw [takeChar, if_neg (not_not_intro he), hc]

theorem takeChar_first (he : s.decErr = 0#2) (hp : s.decPos = 0#2) (hc : invAt c = some d) :
    takeChar c s = { s with decPos := 1#2, decAcc := accOfDigit d } := by
  rw [takeChar_of_invAt_some he hc, advancePos_of_decPos hp, hp]
  rfl

theorem takeChar_second (he : s.decErr = 0#2) (hp : s.decPos = 1#2) (hc : invAt c = some d) :
    takeChar c s = { s with decPos := 2#2, decAcc := accAddSecond s.decAcc d } := by
  rw [takeChar_of_invAt_some he hc, advancePos_of_decPos hp, hp]
  rfl

theorem takeChar_third (he : s.decErr = 0#2) (hp : s.decPos = 2#2) (hc : invAt c = some d) :
    takeChar c s = closeTriplet (s.decAcc.toNat + 2025 * d.val) { s with decPos := 0#2 } := by
  rw [takeChar_of_invAt_some he hc, advancePos_of_decPos hp, hp]
  rfl

theorem closeTriplet_of_fits {v : Nat} (h : v ≤ 0xFFFF) :
    closeTriplet v s = stageData oopWord (wordOfValue v) (setAcc 0#17 s) :=
  if_neg (mt (tripletOverflows_iff v).1 (Nat.not_lt.2 h))

theorem closeTriplet_of_overflows {v : Nat} (h : 0xFFFF < v) :
    closeTriplet v s = recordError .invalidValue (setAcc 0#17 s) :=
  if_pos ((tripletOverflows_iff v).2 h)

end Characters

/-- Settles O13: the effect of a character, its position in every case and the whole of it in the drain case. -/
theorem decCharAdvancesAndDrains : Obligations.DecCharAdvancesAndDrains := by
  intro s c hr
  refine ⟨takeChar c s, exec_decIn_of_ready rfl hr, ?_, fun he => ?_⟩
  · rw [takeChar_decPos, toNat_nextPos]
  · rw [takeChar_of_decErr he]
    rfl

/-- Settles O14: at the first position the accumulator is the digit. -/
theorem decCharFirstDigit : Obligations.DecCharFirstDigit := by
  intro s c g hr he hp hc
  obtain ⟨d, hd, rfl⟩ := exists_invAt_of_refDigit hc
  refine ⟨?_, toNat_accOfDigit d, by omega⟩
  rw [exec_decIn_of_ready rfl hr, decInEffect, takeChar_first he hp hd]
  rfl

/-- Settles O15: the invariant bounds the first digit, so that the sum of two fits. -/
theorem decCharSecondDigit : Obligations.DecCharSecondDigit := by
  rintro s c g ⟨-, -, -, -, hacc, -⟩ hr he hp hc
  obtain ⟨d, hd, rfl⟩ := exists_invAt_of_refDigit hc
  obtain ⟨-, hfirst, -⟩ := hacc he
  have hle := hfirst hp
  refine ⟨accAddSecond s.decAcc d, ?_, toNat_accAddSecond d hle, ?_⟩
  · rw [exec_decIn_of_ready rfl hr, decInEffect, takeChar_second he hp hd]
  · rw [toNat_accAddSecond d hle]
    omega

/-- Settles O16: the triplet's value by its bound, recorded as an error or staged as a WORD. -/
theorem decCharThirdDigit : Obligations.DecCharThirdDigit := by
  rintro s c g ⟨-, -, -, -, hacc, -⟩ hr he hp hc
  obtain ⟨d, hd, rfl⟩ := exists_invAt_of_refDigit hc
  obtain ⟨-, -, hpair⟩ := hacc he
  have hle := hpair hp
  have hexec : exec (.decChar c) s =
      .next (closeTriplet (s.decAcc.toNat + 2025 * d.val) { s with decPos := 0#2 }) := by
    rw [exec_decIn_of_ready rfl hr, decInEffect, takeChar_third he hp hd]
  refine ⟨by omega, fun hover => ?_, fun hfits => ?_⟩
  · rw [hexec, closeTriplet_of_overflows hover]
    rfl
  · rw [closeTriplet_of_fits hfits] at hexec
    exact ⟨_, hexec, rfl, toNat_wordOfValue hfits, rfl, rfl⟩

/-- Settles O17: the error is recorded beside the advanced position. -/
theorem decCharOutsideTheAlphabet : Obligations.DecCharOutsideTheAlphabet := by
  intro s c hr he hc
  refine ⟨nextPos s.decPos, ?_, toNat_nextPos _⟩
  rw [exec_decIn_of_ready rfl hr, decInEffect, takeChar_of_invAt_none he (invAt_eq_none_of_refDigit hc)]
  rfl

section EndBeat

variable {s : State}

theorem endStatus_of_decPos_one (hp : s.decPos = 1#2) : endStatus s = 1#2 := if_pos hp

theorem endStatus_of_decErr (hp : s.decPos ≠ 1#2) (he : s.decErr ≠ 0#2) : endStatus s = s.decErr := by
  rw [endStatus, if_neg hp, if_pos he]

theorem endStatus_of_large_pair (hp : s.decPos = 2#2) (he : s.decErr = 0#2) (ha : 0xFF < s.decAcc.toNat) :
    endStatus s = 3#2 := by
  simp [endStatus, hp, he, (pairOverflows_iff _).2 ha, errCode]

theorem endStatus_of_no_pair (hp : s.decPos ≠ 1#2) (hp2 : s.decPos ≠ 2#2) (he : s.decErr = 0#2) :
    endStatus s = 0#2 := by
  simp [endStatus, hp, hp2, he, statusOk]

theorem endMessage_of_good (h : goodTrailingPair s = true) :
    endMessage s = closeMessage statusOk (stageData oopByte (byteOfAcc s.decAcc) s) := by
  obtain ⟨-, h'⟩ | ⟨hn, -⟩ := endMessage_cases s
  · exact h'
  · simp [h] at hn

theorem endMessage_of_not_good (h : goodTrailingPair s = false) :
    endMessage s = closeMessage (endStatus s) s := by
  rw [endMessage, h, if_neg Bool.false_ne_true]

theorem sameEncoder_endMessage (s : State) : sameEncoder s (endMessage s) :=
  encView_eq_iff.1 (encView_endMessage s).symm

theorem endMessage_inputs (s : State) : (endMessage s).inputs = s.inputs := by
  obtain ⟨-, h⟩ | ⟨-, h⟩ := endMessage_cases s <;> rw [h] <;> rfl

end EndBeat

/-- Settles O18: the status clause by clause, and the staged byte by whether a good trailing pair is there. -/
theorem decEndChoosesTheStatus : Obligations.DecEndChoosesTheStatus := by
  intro s ignored hr
  refine ⟨endMessage s, exec_decIn_of_ready rfl hr, sameEncoder_endMessage s, endMessage_inputs s, rfl, rfl, rfl, rfl,
    endStatus_of_decPos_one, endStatus_of_decErr, endStatus_of_large_pair, fun hp he => ?noPair,
    fun hp he ha => ?goodPair, fun hn => ?nothingStaged⟩
  case noPair => exact endStatus_of_no_pair (by simp [hp]) (by simp [hp]) he
  case goodPair =>
    rw [endMessage_of_good ((goodTrailingPair_iff s).2 ⟨he, hp, ha⟩)]
    exact ⟨rfl, rfl, rfl, toNat_byteOfAcc ha⟩
  case nothingStaged =>
    have hbad : goodTrailingPair s = false := by
      rw [Bool.eq_false_iff, Ne, goodTrailingPair_iff]
      exact fun ⟨he, hp, ha⟩ => hn ⟨hp, he, ha⟩
    rw [endMessage_of_not_good hbad]
    exact ⟨rfl, rfl, rfl⟩

section ProducedBeats

variable {s : State}

theorem exec_decOut_of_presented {i : Instr} {f : State → State} (hi : exec i s = produceDec i f s)
    (hp : decPresented s = some i) : exec i s = .next (f s) := by
  rw [hi, produceDec, if_pos hp]

theorem decPresented_of_word (hov : s.decOv = true) (hop : s.decOop = 2#2) :
    decPresented s = some (.decoWord (highByte s.decOd) (lowByte s.decOd)) := by
  rw [decPresented, if_pos hov, hop]
  rfl

theorem decPresented_of_end (hov : s.decOv = false) (hendp : s.decEndp = true) :
    decPresented s = some (.decoEnd s.decEst) := by
  simp [decPresented, hov, hendp]

/-- A word is its two bytes, the high one the more significant (30_encoding.md R78). -/
theorem toNat_eq_highByte_lowByte (d : BitVec 16) : d.toNat = (highByte d).toNat * 256 + (lowByte d).toNat := by
  have := d.isLt
  rw [highByte, lowByte, toNat_field, toNat_field]
  omega

/-- Without a ready sink a pending beat holds the decoder as it is (20_memory.md R48). -/
theorem decStep_of_stalled {c : CycleIn} (hrst : c.rst = false) (hout : c.decOutReady = false)
    (hv : decOutValid s = true) : decStep c s = s := by
  obtain hov | hendp := (decOutValid_iff s).1 hv
  · simp [decStep, decNext, hrst, hout, hov]
  · simp [decStep, decNext, hrst, hout, hendp]

theorem sameDecoder_of_stalled {t : State} (hrst : (currentCycle s).rst = false)
    (hout : (currentCycle s).decOutReady = false) (hv : decOutValid s = true) (h : step s = .next t) :
    sameDecoder s t :=
  decView_eq_iff.1 <|
    calc decView s
      _ = decStep (currentCycle s) (decView s) := (decStep_of_stalled (s := decView s) hrst hout hv).symm
      _ = decView t := (decView_step h).symm

end ProducedBeats

/-- Settles O19: the outputs with a data beat pending, the WORD's transfer, and the stall. -/
theorem decoWordIsTaken : Obligations.DecoWordIsTaken := by
  intro s hov hop
  have hv : decOutValid s = true := (decOutValid_iff s).2 (.inl hov)
  exact ⟨hv, (decOutOp_of_decOv hov).trans hop, decOutData_of_decOv hov, decOutStatus_of_decOv hov,
    exec_decOut_of_presented (f := takeData) rfl (decPresented_of_word hov hop), toNat_eq_highByte_lowByte s.decOd,
    fun _ hrst hout => sameDecoder_of_stalled hrst hout hv⟩

/-- Settles O21: the outputs with the END beat pending, its transfer, and the ready decoder left by it. -/
theorem decoEndReportsTheStatus : Obligations.DecoEndReportsTheStatus := by
  intro s hov hendp
  refine ⟨(decOutValid_iff s).2 (.inr hendp), decOutOp_of_not_decOv hov, decOutData_of_not_decOv hov,
    decOutStatus_of_decEndp hov hendp,
    exec_decOut_of_presented (f := takeDecEnd) rfl (decPresented_of_end hov hendp), fun hinv => ?_,
    (decInReady_iff _).2 ⟨hov, rfl⟩⟩
  obtain ⟨-, -, -, -, -, -, -, -, -, hcleared, -⟩ := hinv
  exact hcleared hendp

section ReferenceStep

variable {c : CycleIn} {s : State}

/-- A character on the registers as numbers, case by case (R137 to R141). Only the second digit's sum could wrap, and
`hsum` says that it does not. -/
theorem decRegs_takeChar (char : Byte) (hsum : s.decErr = 0#2 → s.decPos = 1#2 → s.decAcc.toNat ≤ 44) :
    decRegs (takeChar char s) = refDecChar (decRegs s) char.toNat := by
  obtain ⟨he, h⟩ | ⟨he, hi, h⟩ | ⟨g, he, hi, hp, h⟩ | ⟨g, he, hi, hp, h⟩ | ⟨g, he, hi, hp0, hp1, h⟩ :=
    takeChar_cases char s <;> rw [h]
  case inl => simp [refDecChar, decRegs, BitVec.toNat_eq_nat, he]
  all_goals
    have hdigit := invAt_eq_refDigit char
    rw [hi] at hdigit
  case inr.inl => simp [refDecChar, decRegs, he, ← hdigit, errCode]
  case inr.inr.inl => simp [refDecChar, decRegs, he, hp, ← hdigit]
  case inr.inr.inr.inl => simp [refDecChar, decRegs, he, hp, ← hdigit, toNat_accAddSecond g (hsum he hp)]
  case inr.inr.inr.inr =>
    obtain ⟨hv, h'⟩ | ⟨hv, h'⟩ := closeTriplet_cases (tripletValue s.decAcc g) (advancePos s) <;> rw [h']
    · rw [tripletValue_eq] at hv
      simp [refDecChar, decRegs, BitVec.toNat_eq_nat, he, hp0, hp1, ← hdigit, hv, errCode]
    · have hword := toNat_wordOfValue hv
      rw [tripletValue_eq] at hv hword
      simp [refDecChar, decRegs, BitVec.toNat_eq_nat, he, hp0, hp1, ← hdigit, Nat.not_lt.2 hv, hword, tripletValue_eq,
        oopWord]

/-- An END beat on the registers as numbers: the good trailing pair, then the clauses of the status (R142). -/
theorem decRegs_endMessage (s : State) : decRegs (endMessage s) = refDecEnd (decRegs s) := by
  obtain ⟨hgood, h⟩ | ⟨hbad, h⟩ := endMessage_cases s <;> rw [h]
  · obtain ⟨he, hp, ha⟩ := (goodTrailingPair_iff s).1 hgood
    simp [refDecEnd, decRegs, he, hp, Nat.not_lt.2 ha, toNat_byteOfAcc ha, statusOk, oopByte]
  · rw [Bool.eq_false_iff, Ne, goodTrailingPair_iff] at hbad
    obtain ⟨hp, hst⟩ | ⟨hp, he, hst⟩ | ⟨hp, he, ha, hst⟩ | ⟨hp, he, ha, hst⟩ := endStatus_cases s <;> rw [hst]
    · simp [refDecEnd, decRegs, hp]
    · simp [refDecEnd, decRegs, BitVec.toNat_eq_nat, hp, he]
    · simp [refDecEnd, decRegs, hp, he, ha]
    · have hp2 : s.decPos ≠ 2#2 := fun hp2 => hbad ⟨he, hp2, ha hp2⟩
      simp [refDecEnd, decRegs, BitVec.toNat_eq_nat, hp, hp2, he]

/-- The decoder's registers after a cycle: the branches of `dec_step` in its order (R146). -/
theorem decRegs_decStep (c : CycleIn) (hsum : s.decErr = 0#2 → s.decPos = 1#2 → s.decAcc.toNat ≤ 44) :
    decRegs (decStep c s) = refDecStep (decRegs s) c := by
  cases hrst : c.rst with
  | true => simp [decStep, refDecStep, hrst, decRegs]
  | false =>
    rw [decStep, hrst, if_neg Bool.false_ne_true]
    cases hov : s.decOv with
    | true => cases hout : c.decOutReady <;> simp [decNext, refDecStep, decRegs, hrst, hov, hout]
    | false =>
      cases hendp : s.decEndp with
      | true => cases hout : c.decOutReady <;> simp [decNext, refDecStep, decRegs, hrst, hov, hendp, hout]
      | false =>
        cases hin : c.decInValid with
        | false => simp [decNext, refDecStep, decRegs, hrst, hov, hendp, hin]
        | true =>
          have hnext : decNext c s = decInEffect (decodeDiw (decInWord c)) s := by simp [decNext, hov, hendp, hin]
          have href : refDecStep (decRegs s) c =
              if c.decInEnd then refDecEnd (decRegs s) else refDecChar (decRegs s) c.decInChar.toNat := by
            simp [refDecStep, decRegs, hrst, hov, hendp, hin]
          rw [hnext, href, decInWord]
          cases hend : c.decInEnd with
          | true => rw [decodeDiw_end, decInEffect, decRegs_endMessage, if_pos rfl]
          | false => rw [decodeDiw_char, decInEffect, decRegs_takeChar _ hsum, if_neg Bool.false_ne_true]

/-- The decoder's registers of a state are those of its view. -/
theorem decRegs_decView (s : State) : decRegs (decView s) = decRegs s := rfl

theorem decRegs_step {t : State} (hinv : decInv s) (h : step s = .next t) :
    decRegs t = refDecStep (decRegs s) (currentCycle s) := by
  obtain ⟨-, -, -, hacc, -⟩ := hinv
  have hsum (he : s.decErr = 0#2) : s.decPos = 1#2 → s.decAcc.toNat ≤ 44 := by
    obtain ⟨-, hfirst, -⟩ := hacc he
    exact hfirst
  calc decRegs t
    _ = decRegs (decView t) := (decRegs_decView t).symm
    _ = decRegs (decStep (currentCycle s) (decView s)) := by rw [decView_step h]
    _ = refDecStep (decRegs (decView s)) (currentCycle s) := decRegs_decStep _ hsum
    _ = refDecStep (decRegs s) (currentCycle s) := by rw [decRegs_decView]

end ReferenceStep

section Events

variable {s : State}

theorem decOutXfer_eq_some_iff {w : Dow} :
    decOutXfer s = some w ↔ (currentCycle s).rst = false ∧ decOutValid s = true ∧
      (currentCycle s).decOutReady = true ∧ w = decOutWord s :=
  ite_transfer_eq_some_iff

theorem decInXfer_eq_some_iff {w : Diw} :
    decInXfer s = some w ↔ (currentCycle s).rst = false ∧ decInReady s = true ∧
      (currentCycle s).decInValid = true ∧ w = decInWord (currentCycle s) :=
  ite_transfer_eq_some_iff

end Events

/-- Settles O26: every step answers next, under the invariant its registers are those of `dec_step`, and the two
events are read off the handshakes. -/
theorem decoderStepIsTheReferenceStep : Obligations.DecoderStepIsTheReferenceStep := fun s ⟨_, hinv⟩ =>
  ⟨⟨_, step_eq_next s, decRegs_step hinv (step_eq_next s)⟩,
    fun _ => decOutXfer_eq_some_iff, fun _ => decInXfer_eq_some_iff⟩

end Sys2Proof.Machine
end

section
/-! PROOF. The reset edge (70_reset_and_hazards.md R200, R201): what it leaves on the outputs, and that no port transfers
a beat in its cycle. -/

namespace Sys2Proof.Machine

/-- The outputs of a state with every register cleared are those of the reset state (10_state.md R27): they do not read
the schedule (R14, R20). -/
theorem clearRegisters_encOutputs (s : State) :
    encInReady (clearRegisters s) = true ∧ encOutValid (clearRegisters s) = false ∧
      encOutWord (clearRegisters s) = 0 := by
  rw [clearRegisters, encInReady_withInputs, encOutValid_withInputs, encOutWord_withInputs]
  decide

theorem clearRegisters_decOutputs (s : State) :
    decInReady (clearRegisters s) = true ∧ decOutValid (clearRegisters s) = false ∧
      decOutWord (clearRegisters s) = 0 := by
  rw [clearRegisters, decInReady_withInputs, decOutValid_withInputs, decOutWord_withInputs]
  decide

/-- A port shows no transfer while `rst` is 1, whatever the two sides of its handshake are (R200). -/
theorem ite_transfer_of_rst {α : Type} {rst env own : Bool} {x : α} (hrst : rst = true) :
    (if !rst && env && own then some x else none) = none := by
  rw [hrst, Bool.not_true, Bool.false_and, Bool.false_and, if_neg Bool.false_ne_true]

theorem step_of_rst {s : State} (hrst : (currentCycle s).rst = true) :
    step s = .next (clearRegisters (popCycle s)) := by
  rw [step_eq_next, stepNext, if_pos hrst]

/-- Settles O2: with `rst` 1 the edge clears the registers, the outputs are then those of the reset state, and the
gate on `rst` shuts each port's handshake. -/
theorem resetEdgeClearsEveryRegister : Obligations.ResetEdgeClearsEveryRegister := by
  intro s hrst
  refine ⟨step_of_rst hrst, fun t ht => ?outputs, ite_transfer_of_rst hrst, ite_transfer_of_rst hrst,
    ite_transfer_of_rst hrst, ite_transfer_of_rst hrst⟩
  case outputs =>
    obtain rfl : clearRegisters (popCycle s) = t := Host.Outcome.next.inj ((step_of_rst hrst).symm.trans ht)
    obtain ⟨hir, hov, how⟩ := clearRegisters_encOutputs (popCycle s)
    exact ⟨hir, hov, how, clearRegisters_decOutputs (popCycle s)⟩

end Sys2Proof.Machine
end

section
/-! PROOF. One cycle without reset, unit by unit: the five things a unit can do in it, each with its events and its
registers after it (40_encoder.md R113, 41_decoder.md R146), and the schedule's one cycle. -/

namespace Sys2Proof.Machine

section Schedule

variable (s : State)

theorem encInEffect_inputs (i : Instr) : (encInEffect i s).inputs = s.inputs := by
  cases i <;> rfl

theorem takeChar_inputs (c : Byte) : (takeChar c s).inputs = s.inputs := by
  obtain ⟨-, h⟩ | ⟨-, -, h⟩ | ⟨g, -, -, -, h⟩ | ⟨g, -, -, -, h⟩ | ⟨g, -, -, -, -, h⟩ := takeChar_cases c s <;> rw [h]
  case inr.inr.inr.inr =>
    obtain ⟨-, h'⟩ | ⟨-, h'⟩ := closeTriplet_cases (tripletValue s.decAcc g) (advancePos s) <;> rw [h'] <;> rfl
  all_goals rfl

theorem decInEffect_inputs (i : Instr) : (decInEffect i s).inputs = s.inputs := by
  cases i with
  | decChar c => exact takeChar_inputs s c
  | decEnd => exact endMessage_inputs s
  | _ => rfl

theorem encNext_inputs (c : CycleIn) : (encNext c s).inputs = s.inputs := by
  simp only [encNext, apply_ite State.inputs, encInEffect_inputs, radixStep_inputs, takeEncEnd_inputs, ite_self]

theorem decNext_inputs (c : CycleIn) : (decNext c s).inputs = s.inputs := by
  simp only [decNext, apply_ite State.inputs, decInEffect_inputs, takeData_inputs, takeDecEnd_inputs, ite_self]

theorem stepNext_inputs (c : CycleIn) : (stepNext c s).inputs = s.inputs := by
  simp only [stepNext, apply_ite State.inputs, decNext_inputs, encNext_inputs, clearRegisters_inputs, ite_self]

variable {s}

theorem inputs_of_step {t : State} (h : step s = .next t) : t.inputs = s.inputs.tail := by
  rw [eq_stepNext_of_step h, stepNext_inputs, popCycle_inputs]

end Schedule

/-- Settles O6: a step is a function of the state, and its schedule is the tail of the one before. -/
theorem stepAlwaysAnswersNext : Obligations.StepAlwaysAnswersNext := fun s =>
  ⟨_, step_eq_next s, inputs_of_step (step_eq_next s)⟩

/-- When a port shows no transfer although `rst` is low: one side of the handshake is low (20_memory.md R47). -/
theorem ite_transfer_eq_none_iff {α : Type} {rst env own : Bool} {x : α} (hrst : rst = false) :
    (if !rst && env && own then some x else none) = none ↔ own = false ∨ env = false := by
  cases env <;> cases own <;> simp [hrst]

section EncoderCycle

variable {s t : State}

/-- What the encoder can do in a cycle without reset (R113): the events on its two ports, and its registers after
it. -/
inductive EncMove (s t : State) : Prop where
  | char (hcnt : s.encCnt ≠ 0#2) (hsink : (currentCycle s).encOutReady = true)
      (hout : encOutXfer s = some (mkCharWord false (encOutChar s))) (hin : encInXfer s = none)
      (hregs : sameEncoder (radixStep s) t)
  | endBeat (hcnt : s.encCnt = 0#2) (hendp : s.encEndp = true) (hsink : (currentCycle s).encOutReady = true)
      (hout : encOutXfer s = some (mkCharWord true 0#8)) (hin : encInXfer s = none)
      (hregs : sameEncoder (takeEncEnd s) t)
  | stall (hready : encInReady s = false) (hsink : (currentCycle s).encOutReady = false)
      (hout : encOutXfer s = none) (hin : encInXfer s = none) (hregs : sameEncoder s t)
  | wait (hready : encInReady s = true) (hsource : (currentCycle s).encInValid = false)
      (hout : encOutXfer s = none) (hin : encInXfer s = none) (hregs : sameEncoder s t)
  | accept (w : Eiw) (hready : encInReady s = true) (hsource : (currentCycle s).encInValid = true)
      (hout : encOutXfer s = none) (hin : encInXfer s = some w)
      (hregs : sameEncoder (encInEffect (decodeEiw w) s) t)

theorem encInXfer_eq_none_iff (hrst : (currentCycle s).rst = false) :
    encInXfer s = none ↔ encInReady s = false ∨ (currentCycle s).encInValid = false :=
  ite_transfer_eq_none_iff hrst

theorem encOutXfer_eq_none_iff (hrst : (currentCycle s).rst = false) :
    encOutXfer s = none ↔ encOutValid s = false ∨ (currentCycle s).encOutReady = false :=
  ite_transfer_eq_none_iff hrst

/-- A unit that presents a beat is not ready, and a ready unit presents none (R14). -/
theorem encOutValid_eq_false (hready : encInReady s = true) : encOutValid s = false := by
  rw [encOutValid_eq, hready, Bool.not_true]

theorem encInReady_eq_false (hvalid : encOutValid s = true) : encInReady s = false := by
  rwa [encOutValid_eq, Bool.not_eq_true'] at hvalid

theorem encOutWord_char (hcnt : s.encCnt ≠ 0#2) : encOutWord s = mkCharWord false (encOutChar s) := by
  simp [encOutWord, encOutEnd, hcnt]

theorem encOutWord_end (hcnt : s.encCnt = 0#2) (hendp : s.encEndp = true) : encOutWord s = mkCharWord true 0#8 := by
  simp [encOutWord, encOutEnd, encOutChar, hcnt, hendp]

/-- Without a ready sink a pending beat holds the encoder as it is (20_memory.md R48). -/
theorem encNext_of_stalled {c : CycleIn} (hsink : c.encOutReady = false) (hvalid : encOutValid s = true) :
    encNext c s = s := by
  obtain hcnt | hendp := (encOutValid_iff s).1 hvalid
  · simp [encNext, hcnt, hsink]
  · simp [encNext, hendp, hsink]

theorem sameEncoder_encNext (hrst : (currentCycle s).rst = false) (h : step s = .next t) :
    sameEncoder (encNext (currentCycle s) s) t :=
  encView_eq_iff.1 <| by rw [encView_step h, encStep, hrst, if_neg Bool.false_ne_true, encView_encNext]

theorem encMove_of_step (hrst : (currentCycle s).rst = false) (h : step s = .next t) : EncMove s t := by
  have hregs := sameEncoder_encNext hrst h
  cases hready : encInReady s with
  | true =>
    obtain ⟨hcnt, hendp⟩ := (encInReady_iff s).1 hready
    have hout : encOutXfer s = none := (encOutXfer_eq_none_iff hrst).2 (.inl (encOutValid_eq_false hready))
    cases hsource : (currentCycle s).encInValid with
    | true =>
      refine .accept _ hready hsource hout (encInXfer_eq_some_iff.2 ⟨hrst, hready, hsource, rfl⟩) ?_
      simpa [encNext, hcnt, hendp, hsource] using hregs
    | false =>
      refine .wait hready hsource hout ((encInXfer_eq_none_iff hrst).2 (.inr hsource)) ?_
      simpa [encNext, hcnt, hendp, hsource] using hregs
  | false =>
    have hin : encInXfer s = none := (encInXfer_eq_none_iff hrst).2 (.inl hready)
    have hvalid : encOutValid s = true := by rw [encOutValid_eq, hready, Bool.not_false]
    cases hsink : (currentCycle s).encOutReady with
    | true =>
      have hout : encOutXfer s = some (encOutWord s) := encOutXfer_eq_some_iff.2 ⟨hrst, hvalid, hsink, rfl⟩
      by_cases hcnt : s.encCnt = 0#2
      · have hendp : s.encEndp = true := ((encOutValid_iff s).1 hvalid).resolve_left (not_not_intro hcnt)
        rw [encOutWord_end hcnt hendp] at hout
        refine .endBeat hcnt hendp hsink hout hin ?_
        simpa [encNext, hcnt, hendp, hsink] using hregs
      · rw [encOutWord_char hcnt] at hout
        refine .char hcnt hsink hout hin ?_
        simpa [encNext, hcnt, hsink] using hregs
    | false =>
      refine .stall hready hsink ((encOutXfer_eq_none_iff hrst).2 (.inr hsink)) hin ?_
      rwa [encNext_of_stalled hsink hvalid] at hregs

end EncoderCycle

section DecoderCycle

variable {s t : State}

/-- What the decoder can do in a cycle without reset (R146): the events on its two ports, and its registers after
it. -/
inductive DecMove (s t : State) : Prop where
  | data (hov : s.decOv = true) (hsink : (currentCycle s).decOutReady = true)
      (hout : decOutXfer s = some (mkDow 0#2 s.decOop s.decOd)) (hin : decInXfer s = none)
      (hregs : sameDecoder (takeData s) t)
  | endBeat (hov : s.decOv = false) (hendp : s.decEndp = true) (hsink : (currentCycle s).decOutReady = true)
      (hout : decOutXfer s = some (mkDow s.decEst 0#2 0#16)) (hin : decInXfer s = none)
      (hregs : sameDecoder (takeDecEnd s) t)
  | stall (hready : decInReady s = false) (hsink : (currentCycle s).decOutReady = false)
      (hout : decOutXfer s = none) (hin : decInXfer s = none) (hregs : sameDecoder s t)
  | wait (hready : decInReady s = true) (hsource : (currentCycle s).decInValid = false)
      (hout : decOutXfer s = none) (hin : decInXfer s = none) (hregs : sameDecoder s t)
  | accept (w : Diw) (hready : decInReady s = true) (hsource : (currentCycle s).decInValid = true)
      (hout : decOutXfer s = none) (hin : decInXfer s = some w)
      (hregs : sameDecoder (decInEffect (decodeDiw w) s) t)

theorem decInXfer_eq_none_iff (hrst : (currentCycle s).rst = false) :
    decInXfer s = none ↔ decInReady s = false ∨ (currentCycle s).decInValid = false :=
  ite_transfer_eq_none_iff hrst

theorem decOutXfer_eq_none_iff (hrst : (currentCycle s).rst = false) :
    decOutXfer s = none ↔ decOutValid s = false ∨ (currentCycle s).decOutReady = false :=
  ite_transfer_eq_none_iff hrst

/-- A unit that presents a beat is not ready, and a ready unit presents none (R20). -/
theorem decOutValid_eq_false (hready : decInReady s = true) : decOutValid s = false := by
  rw [decOutValid_eq, hready, Bool.not_true]

theorem decInReady_eq_false (hvalid : decOutValid s = true) : decInReady s = false := by
  rwa [decOutValid_eq, Bool.not_eq_true'] at hvalid

theorem decOutWord_data (hov : s.decOv = true) : decOutWord s = mkDow 0#2 s.decOop s.decOd := by
  rw [decOutWord, decOutStatus_of_decOv hov, decOutOp_of_decOv hov, decOutData_of_decOv hov]

theorem decOutWord_end (hov : s.decOv = false) (hendp : s.decEndp = true) :
    decOutWord s = mkDow s.decEst 0#2 0#16 := by
  rw [decOutWord, decOutStatus_of_decEndp hov hendp, decOutOp_of_not_decOv hov, decOutData_of_not_decOv hov]

theorem sameDecoder_decNext (hrst : (currentCycle s).rst = false) (h : step s = .next t) :
    sameDecoder (decNext (currentCycle s) s) t :=
  decView_eq_iff.1 <| by rw [decView_step h, decStep, hrst, if_neg Bool.false_ne_true, decView_decNext]

theorem decMove_of_step (hrst : (currentCycle s).rst = false) (h : step s = .next t) : DecMove s t := by
  have hregs := sameDecoder_decNext hrst h
  cases hready : decInReady s with
  | true =>
    obtain ⟨hov, hendp⟩ := (decInReady_iff s).1 hready
    have hout : decOutXfer s = none := (decOutXfer_eq_none_iff hrst).2 (.inl (decOutValid_eq_false hready))
    cases hsource : (currentCycle s).decInValid with
    | true =>
      refine .accept _ hready hsource hout (decInXfer_eq_some_iff.2 ⟨hrst, hready, hsource, rfl⟩) ?_
      simpa [decNext, hov, hendp, hsource] using hregs
    | false =>
      refine .wait hready hsource hout ((decInXfer_eq_none_iff hrst).2 (.inr hsource)) ?_
      simpa [decNext, hov, hendp, hsource] using hregs
  | false =>
    have hin : decInXfer s = none := (decInXfer_eq_none_iff hrst).2 (.inl hready)
    have hvalid : decOutValid s = true := by rw [decOutValid_eq, hready, Bool.not_false]
    cases hsink : (currentCycle s).decOutReady with
    | true =>
      have hout : decOutXfer s = some (decOutWord s) := decOutXfer_eq_some_iff.2 ⟨hrst, hvalid, hsink, rfl⟩
      cases hov : s.decOv with
      | false =>
        have hendp : s.decEndp = true := ((decOutValid_iff s).1 hvalid).resolve_left (by simp [hov])
        rw [decOutWord_end hov hendp] at hout
        refine .endBeat hov hendp hsink hout hin ?_
        simpa [decNext, hov, hendp, hsink] using hregs
      | true =>
        rw [decOutWord_data hov] at hout
        refine .data hov hsink hout hin ?_
        simpa [decNext, hov, hsink] using hregs
    | false =>
      refine .stall hready hsink ((decOutXfer_eq_none_iff hrst).2 (.inr hsink)) hin ?_
      exact sameDecoder_of_stalled hrst hsink hvalid h

end DecoderCycle

end Sys2Proof.Machine
end

section
/-! PROOF. The invariant (10_state.md R28): each operation of a unit keeps it, so every step does, and so every state
reached from reset meets it. -/

namespace Sys2Proof.Machine

section EncoderInvariant

variable {s t : State}

theorem encInv_of_sameEncoder (h : sameEncoder s t) (hs : encInv s) : encInv t := by
  obtain ⟨hq, hcnt, hendp⟩ := h
  rw [encInv, hq, hcnt, hendp] at hs
  exact hs

/-- A radix step divides the bound on the quotient by 45 as it counts down (40_encoder.md R111). -/
theorem encInv_radixStep (hcnt : s.encCnt ≠ 0#2) (hs : encInv s) : encInv (radixStep s) := by
  obtain ⟨hendp, htwo, hone, -⟩ := hs
  refine ⟨fun _ => hendp hcnt, fun h => ?two, fun h => ?one, fun h => ?zero⟩
  case two =>
    have := s.encQ.isLt
    rw [radixStep_encQ, toNat_nextQuotient]
    omega
  case one =>
    have hq := htwo (by rw [radixStep_encCnt] at h; bv_omega)
    rw [radixStep_encQ, toNat_nextQuotient]
    omega
  case zero =>
    have hq := hone (by rw [radixStep_encCnt] at h; bv_omega)
    apply BitVec.eq_of_toNat_eq
    rw [radixStep_encQ, toNat_nextQuotient, BitVec.toNat_ofNat]
    omega

theorem encInv_takeEncEnd (hs : encInv s) : encInv (takeEncEnd s) := by
  obtain ⟨-, hbounds⟩ := hs
  exact ⟨fun _ => rfl, hbounds⟩

theorem encInv_loadGroup (hendp : s.encEndp = false) {d : BitVec 16} {n : BitVec 2} (hn : n ≠ 1#2 ∧ n ≠ 0#2)
    (hd : n = 2#2 → d.toNat ≤ 1456) : encInv (loadGroup d n s) :=
  ⟨fun _ => hendp, hd, fun h => absurd h hn.1, fun h => absurd h hn.2⟩

/-- A pair has a group of three to go and a lone byte is at most 255, so that each bound holds from the start. -/
theorem encInv_encInEffect (hready : encInReady s = true) (i : Instr) (hs : encInv s) : encInv (encInEffect i s) := by
  obtain ⟨hcnt, hendp⟩ := (encInReady_iff s).1 hready
  cases i with
  | encPair hi lo => exact encInv_loadGroup hendp (by decide) fun h => absurd h (by decide)
  | encSingle x lo =>
    refine encInv_loadGroup hendp (by decide) fun _ => ?_
    have := lo.isLt
    rw [toNat_singleValue]
    omega
  | encEnd d =>
    obtain ⟨-, hbounds⟩ := hs
    exact ⟨fun h => absurd hcnt h, hbounds⟩
  | _ => exact hs

theorem encInv_clearRegisters (s : State) : encInv (clearRegisters s) := by
  simp [encInv]

theorem encInv_step_of_noReset (hrst : (currentCycle s).rst = false) (h : step s = .next t) (hs : encInv s) :
    encInv t := by
  cases encMove_of_step hrst h with
  | char hcnt _ _ _ hregs => exact encInv_of_sameEncoder hregs (encInv_radixStep hcnt hs)
  | endBeat _ _ _ _ _ hregs => exact encInv_of_sameEncoder hregs (encInv_takeEncEnd hs)
  | stall _ _ _ _ hregs => exact encInv_of_sameEncoder hregs hs
  | wait _ _ _ _ hregs => exact encInv_of_sameEncoder hregs hs
  | accept w hready _ _ _ hregs => exact encInv_of_sameEncoder hregs (encInv_encInEffect hready _ hs)

end EncoderInvariant

section DecoderInvariant

variable {s t : State}

theorem decInv_of_sameDecoder (h : sameDecoder s t) (hs : decInv s) : decInv t := by
  obtain ⟨hacc, hpos, herr, hov, hoop, hod, hendp, hest⟩ := h
  rw [decInv, accInv, hacc, hpos, herr, hov, hoop, hod, hendp, hest] at hs
  exact hs

theorem decInv_takeData (hs : decInv s) : decInv (takeData s) := by
  obtain ⟨hpos, herr, hacc, hgroup, hover, -, -, -, hendp, -⟩ := hs
  exact ⟨hpos, herr, hacc, hgroup, hover, fun h => absurd h (by simp), fun h => absurd h (by simp),
    fun h => absurd h (by simp), hendp, fun _ _ => rfl⟩

theorem decInv_takeDecEnd (hov : s.decOv = false) (hs : decInv s) : decInv (takeDecEnd s) := by
  obtain ⟨hpos, herr, hacc, hgroup, hover, -, -, -, -, -⟩ := hs
  have hno : (takeDecEnd s).decOv ≠ true := by simp [hov]
  exact ⟨hpos, herr, hacc, hgroup, hover, fun h => absurd h hno, fun h => absurd h hno, fun h => absurd h hno,
    fun h => absurd h (by simp), fun _ _ => hov⟩

theorem decInv_of_ready (hready : decInReady s = true) (hpos : s.decPos ≠ 3#2) (herr : s.decErr ≠ 1#2)
    (hacc : s.decAcc.toNat ≤ 2024) (hgroup : s.decErr = 0#2 → accInv s) (hover : s.decErr = 3#2 → s.decAcc = 0#17) :
    decInv s := by
  obtain ⟨hov, hendp⟩ := (decInReady_iff s).1 hready
  simp only [decInv, hov, hendp]
  exact ⟨hpos, herr, hacc, hgroup, hover, by simp, by simp, by simp, by simp, by simp⟩

theorem nextPos_ne_three (p : BitVec 2) : nextPos p ≠ 3#2 := by
  intro h
  have := congrArg BitVec.toNat h
  rw [toNat_nextPos, BitVec.toNat_ofNat] at this
  omega

/-- A triplet ends staged as a WORD, with no END behind it, or as a recorded error; the accumulator is clear. -/
theorem decInv_closeTriplet (hready : decInReady s = true) (herr : s.decErr = 0#2) (hpos : s.decPos ≠ 3#2)
    (v : Nat) : decInv (closeTriplet v s) := by
  obtain ⟨hov, hendp⟩ := (decInReady_iff s).1 hready
  obtain ⟨-, h⟩ | ⟨-, h⟩ := closeTriplet_cases v s <;> rw [h]
  · exact decInv_of_ready hready hpos (by simp [errCode]) (by simp) (fun h' => absurd h' (by simp [errCode]))
      fun _ => rfl
  · refine ⟨hpos, by simp [herr], by simp, fun _ => by simp [accInv], fun _ => rfl, fun _ => .inr rfl,
      fun _ hop => absurd hop (by decide : oopWord ≠ oopByte), fun _ _ => hendp, fun h' => ?_, fun _ h' => ?_⟩
    · simp [hendp] at h'
    · simp [hendp] at h'

theorem decInv_takeChar (hready : decInReady s = true) (c : Byte) (hs : decInv s) : decInv (takeChar c s) := by
  obtain ⟨hpos, herr, hacc, hgroup, hover, -⟩ := hs
  have hpos' : nextPos s.decPos ≠ 3#2 := nextPos_ne_three _
  obtain ⟨he, h⟩ | ⟨he, -, h⟩ | ⟨g, he, -, hp, h⟩ | ⟨g, he, -, hp, h⟩ | ⟨g, he, -, -, -, h⟩ := takeChar_cases c s <;>
    rw [h]
  · exact decInv_of_ready hready hpos' herr hacc (fun h' => absurd h' he) hover
  · exact decInv_of_ready hready hpos' (by simp [errCode]) hacc (fun h' => absurd h' (by simp [errCode]))
      fun h' => absurd h' (by simp [errCode])
  · have hg := g.isLt
    refine decInv_of_ready hready hpos' herr ?_ (fun _ => ?_) (fun h' => absurd h' (by simp [he]))
    · rw [setAcc_decAcc, toNat_accOfDigit]
      omega
    · have hone : nextPos s.decPos = 1#2 := by rw [hp]; rfl
      simp only [accInv, setAcc_decPos, advancePos_decPos, hone, setAcc_decAcc, toNat_accOfDigit]
      exact ⟨by simp, by omega, by simp⟩
  · have hg := g.isLt
    obtain ⟨-, hfirst, -⟩ := hgroup he
    have hsum := toNat_accAddSecond g (hfirst hp)
    have hle := hfirst hp
    refine decInv_of_ready hready hpos' herr ?_ (fun _ => ?_) (fun h' => absurd h' (by simp [he]))
    · rw [setAcc_decAcc, hsum]
      omega
    · have htwo : nextPos s.decPos = 2#2 := by rw [hp]; rfl
      simp only [accInv, setAcc_decPos, advancePos_decPos, htwo, setAcc_decAcc, hsum]
      exact ⟨by simp, by simp, by omega⟩
  · exact decInv_closeTriplet (s := advancePos s) hready he hpos' _

theorem decInv_endMessage (hready : decInReady s = true) : decInv (endMessage s) := by
  obtain ⟨hov, -⟩ := (decInReady_iff s).1 hready
  obtain ⟨hgood, h⟩ | ⟨-, h⟩ := endMessage_cases s <;> rw [h]
  · obtain ⟨-, -, ha⟩ := (goodTrailingPair_iff s).1 hgood
    refine ⟨by simp, by simp, by simp, fun _ => by simp [accInv], fun _ => rfl, fun _ => .inl rfl, fun _ _ => ⟨?_, rfl⟩,
      fun _ hop => absurd hop (by decide : oopByte ≠ oopWord), fun _ => ⟨rfl, rfl, rfl⟩,
      fun hest => absurd rfl hest⟩
    rw [closeMessage_decOd, stageData_decOd, toNat_byteOfAcc ha]
    exact ha
  · have hno : (closeMessage (endStatus s) s).decOv ≠ true := by simp [hov]
    exact ⟨by simp, by simp, by simp, fun _ => by simp [accInv], fun _ => rfl, fun h' => absurd h' hno,
      fun h' => absurd h' hno, fun h' => absurd h' hno, fun _ => ⟨rfl, rfl, rfl⟩, fun _ _ => hov⟩

theorem decInv_decInEffect (hready : decInReady s = true) (i : Instr) (hs : decInv s) : decInv (decInEffect i s) := by
  cases i with
  | decChar c => exact decInv_takeChar hready c hs
  | decEnd => exact decInv_endMessage hready
  | _ => exact hs

theorem decInv_clearRegisters (s : State) : decInv (clearRegisters s) :=
  decInv_of_ready rfl (by simp) (by simp) (by simp) (fun _ => by simp [accInv]) fun _ => rfl

theorem decInv_step_of_noReset (hrst : (currentCycle s).rst = false) (h : step s = .next t) (hs : decInv s) :
    decInv t := by
  cases decMove_of_step hrst h with
  | data _ _ _ _ hregs => exact decInv_of_sameDecoder hregs (decInv_takeData hs)
  | endBeat hov _ _ _ _ hregs => exact decInv_of_sameDecoder hregs (decInv_takeDecEnd hov hs)
  | stall _ _ _ _ hregs => exact decInv_of_sameDecoder hregs hs
  | wait _ _ _ _ hregs => exact decInv_of_sameDecoder hregs hs
  | accept w hready _ _ _ hregs => exact decInv_of_sameDecoder hregs (decInv_decInEffect hready _ hs)

end DecoderInvariant

/-- Settles O28: the reset edge establishes the invariant, and in every other cycle each unit keeps its part of it. -/
theorem stepKeepsTheInvariant : Obligations.StepKeepsTheInvariant := by
  rintro s t ⟨henc, hdec⟩ h
  cases hrst : (currentCycle s).rst with
  | true =>
    obtain rfl : clearRegisters (popCycle s) = t := Host.Outcome.next.inj ((step_of_rst hrst).symm.trans h)
    exact ⟨encInv_clearRegisters _, decInv_clearRegisters _⟩
  | false => exact ⟨encInv_step_of_noReset hrst h henc, decInv_step_of_noReset hrst h hdec⟩

end Sys2Proof.Machine
end

section
/-! PROOF. What follows from the invariant: the states reached from reset (10_state.md R28), the beats each unit
presents and their transfer (40_encoder.md R111, R112; 41_decoder.md R144), and what is left after an END beat
(20_memory.md R57). -/

namespace Sys2Proof.Machine

/-- Settles O27: the state of reset is one with every register cleared. -/
theorem resetMeetsTheInvariant : Obligations.ResetMeetsTheInvariant :=
  ⟨encInv_clearRegisters State.reset, decInv_clearRegisters State.reset⟩

theorem inv_runSteps {k : Nat} {s t : State} (hs : Inv s) (h : runSteps k s = .next t) : Inv t := by
  induction k generalizing s with
  | zero =>
    obtain rfl : s = t := Host.Outcome.next.inj h
    exact hs
  | succ k ih =>
    obtain ⟨u, hu, ht⟩ := runSteps_succ_next h
    exact ih (stepKeepsTheInvariant s u hs hu) ht

section EncoderBeats

variable {s t : State}

theorem exec_encoChar_of_next {c : Byte} (h : exec (.encoChar c) s = .next t) :
    s.encCnt ≠ 0#2 ∧ c = encOutChar s ∧ t = radixStep s := by
  obtain ⟨hp, rfl⟩ := produceEnc_next h
  obtain ⟨hcnt, hi⟩ | ⟨-, -, hi⟩ := encPresented_cases hp
  · exact ⟨hcnt, Instr.encoChar.inj hi, rfl⟩
  · cases hi

theorem exec_encoEnd_of_next (h : exec .encoEnd s = .next t) :
    s.encCnt = 0#2 ∧ s.encEndp = true ∧ t = takeEncEnd s := by
  obtain ⟨hp, rfl⟩ := produceEnc_next h
  obtain ⟨-, hi⟩ | ⟨hcnt, hendp, -⟩ := encPresented_cases hp
  · cases hi
  · exact ⟨hcnt, hendp, rfl⟩

theorem encPresented_char (hcnt : s.encCnt ≠ 0#2) : encPresented s = some (.encoChar (encOutChar s)) := if_pos hcnt

theorem encPresented_end (hcnt : s.encCnt = 0#2) (hendp : s.encEndp = true) : encPresented s = some .encoEnd := by
  simp [encPresented, hcnt, hendp]

theorem exec_encOut_of_presented {i : Instr} {f : State → State} (hi : exec i s = produceEnc i f s)
    (hp : encPresented s = some i) : exec i s = .next (f s) := by
  rw [hi, produceEnc, if_pos hp]

/-- The transfer of the presented character is the radix step (R111). -/
theorem exec_encoChar (hcnt : s.encCnt ≠ 0#2) : exec (.encoChar (encOutChar s)) s = .next (radixStep s) :=
  exec_encOut_of_presented rfl (encPresented_char hcnt)

theorem sameEncoder_of_stalled (hrst : (currentCycle s).rst = false) (hsink : (currentCycle s).encOutReady = false)
    (hvalid : encOutValid s = true) (h : step s = .next t) : sameEncoder s t := by
  have hregs := sameEncoder_encNext hrst h
  rwa [encNext_of_stalled hsink hvalid] at hregs

end EncoderBeats

/-- Settles O29: the invariant along the run from reset, and the bounds of a lone byte's group (255, then 255 div
45). -/
theorem reachableStatesMeetTheSpecInvariants : Obligations.ReachableStatesMeetTheSpecInvariants := by
  intro ins k t h
  obtain ⟨⟨hpending, htwo, hone, -⟩, hpos, herr, hacc, -, -, hoop, hbyte, hword, hcleared, hest⟩ :=
    inv_runSteps (s := { State.reset with inputs := ins }) resetMeetsTheInvariant h
  refine ⟨hpending, htwo, hone, by bv_omega, by bv_omega, hacc, hoop, hbyte, hword, hcleared, hest,
    fun x lo u v hready hu => ?single⟩
  case single =>
    obtain rfl : loadGroup (singleValue lo) 2#2 t = u :=
      Host.Outcome.next.inj ((exec_encIn_of_ready rfl hready).symm.trans hu)
    have hlo := lo.isLt
    refine ⟨?_, fun hv => ?_⟩
    · rw [loadGroup_encQ, toNat_singleValue]
      omega
    · obtain ⟨-, -, rfl⟩ := exec_encoChar_of_next hv
      rw [radixStep_encQ, toNat_nextQuotient, loadGroup_encQ, toNat_singleValue]
      omega

/-- Settles O54: the transfer of END needs nothing else pending, and the invariant says what the rest is then. -/
theorem nothingOfAMessageRemains : Obligations.NothingOfAMessageRemains := by
  rintro s t st ⟨⟨-, -, -, hzero⟩, -, -, -, -, -, -, -, -, hcleared, -⟩
  refine ⟨fun h => ?_, fun h => ?_⟩
  · obtain ⟨hcnt, -, rfl⟩ := exec_encoEnd_of_next h
    exact ⟨hzero hcnt, hcnt, rfl⟩
  · obtain ⟨hp, rfl⟩ := produceDec_next h
    obtain ⟨-, -, hi⟩ | ⟨-, -, -, hi⟩ | ⟨hov, hendp, -⟩ := decPresented_cases hp
    · cases hi
    · cases hi
    · obtain ⟨hpos, herr, hacc⟩ := hcleared hendp
      exact ⟨hacc, hpos, herr, hov, rfl⟩

/-- Settles O11: the presented digit, its radix step, and the stall; the invariant's bound of 32 on the last quotient
makes it 0. -/
theorem encoCharTakesARadixStep : Obligations.EncoCharTakesARadixStep := by
  intro s hcnt
  have hvalid : encOutValid s = true := (encOutValid_iff s).2 (.inl hcnt)
  refine ⟨hvalid, ?_, encOutChar_of_encCnt_ne_zero hcnt,
    ⟨radixStep s, exec_encoChar hcnt, rfl, toNat_nextQuotient _, ?_, fun hinv hone => ?_⟩,
    fun _ hrst hsink => sameEncoder_of_stalled hrst hsink hvalid⟩
  · simp [encOutEnd, hcnt]
  · rw [radixStep_encCnt]
    bv_omega
  · obtain ⟨-, -, -, hzero⟩ := encInv_radixStep hcnt hinv
    exact hzero (by rw [radixStep_encCnt, hone]; rfl)

/-- Settles O12: the presented END, its transfer, and the stall. -/
theorem encoEndClosesTheMessage : Obligations.EncoEndClosesTheMessage := by
  intro s hcnt hendp
  have hvalid : encOutValid s = true := (encOutValid_iff s).2 (.inr hendp)
  exact ⟨hvalid, encOutWord_end hcnt hendp,
    exec_encOut_of_presented (f := takeEncEnd) rfl (encPresented_end hcnt hendp),
    fun ⟨_, _, _, hzero⟩ => ⟨hzero hcnt, hcnt, rfl⟩, fun _ hrst hsink => sameEncoder_of_stalled hrst hsink hvalid⟩

section StagedByte

variable {s : State}

theorem highByte_eq_zero {d : BitVec 16} (h : d.toNat ≤ 0xFF) : highByte d = 0#8 := by
  apply BitVec.eq_of_toNat_eq
  rw [highByte, toNat_field, BitVec.toNat_ofNat]
  omega

/-- A staged BYTE has a high byte of 0 and an END OK behind it (10_state.md R28). -/
theorem stagedByte_of_decInv (hinv : decInv s) (hov : s.decOv = true) (hop : s.decOop = oopByte) :
    highByte s.decOd = 0#8 ∧ s.decEndp = true ∧ s.decEst = 0#2 := by
  obtain ⟨-, -, -, -, -, -, hbyte, -, -, hest⟩ := hinv
  obtain ⟨hod, hendp⟩ := hbyte hov hop
  exact ⟨highByte_eq_zero hod, hendp, by_contra fun hne => Bool.false_ne_true ((hest hne hendp).symm.trans hov)⟩

theorem decPresented_of_byte (hinv : decInv s) (hov : s.decOv = true) (hop : s.decOop = oopByte) :
    decPresented s = some (.decoByte (lowByte s.decOd)) := by
  obtain ⟨hhi, -⟩ := stagedByte_of_decInv hinv hov hop
  rw [decPresented, if_pos hov, hop, if_neg (by decide : oopByte ≠ oopWord), if_pos ⟨rfl, hhi⟩]

end StagedByte

/-- Settles O20: the staged BYTE, its transfer, the END OK behind it, and the stall. -/
theorem decoByteIsTaken : Obligations.DecoByteIsTaken := by
  rintro s ⟨-, hinv⟩ hov hop
  have hvalid : decOutValid s = true := (decOutValid_iff s).2 (.inl hov)
  obtain ⟨hhi, hendp, hest⟩ := stagedByte_of_decInv hinv hov hop
  refine ⟨hvalid, (decOutOp_of_decOv hov).trans hop, decOutData_of_decOv hov, decOutStatus_of_decOv hov, hhi,
    exec_decOut_of_presented (f := takeData) rfl (decPresented_of_byte hinv hov hop), hendp, hest, ?_,
    fun _ hrst hsink => sameDecoder_of_stalled hrst hsink hvalid⟩
  rw [decOutWord_end (s := { s with decOv := false }) rfl hendp, hest]
  rfl

end Sys2Proof.Machine
end

section
/-! PROOF. Words and beat kinds: the decoder reads back what the encoder wrote and the other way round (30_encoding.md
section 1), the words the units present (R75, R76), and a step as the beats its transferred words decode to
(20_memory.md R47). -/

namespace Sys2Proof.Machine

section WordsOfPorts

theorem decode_encIn (w : Eiw) : decode .encIn w.toNat = .instr (decodeEiw w) := by
  simp [decode, Port.width, Nat.not_le.2 w.isLt]

theorem decode_encOut (w : Eow) : decode .encOut w.toNat = decodeEow w := by
  simp [decode, Port.width, Nat.not_le.2 w.isLt]

theorem decode_decIn (w : Diw) : decode .decIn w.toNat = .instr (decodeDiw w) := by
  simp [decode, Port.width, Nat.not_le.2 w.isLt]

theorem decode_decOut (w : Dow) : decode .decOut w.toNat = decodeDow w := by
  simp [decode, Port.width, Nat.not_le.2 w.isLt]

/-- A word that is a beat kind has its port's width (R70). -/
theorem lt_of_decode_eq_instr {p : Port} {w : Nat} {i : Instr} (h : decode p w = .instr i) : w < 2 ^ p.width := by
  by_contra hle
  unfold decode at h
  rw [if_pos (Nat.not_lt.1 hle)] at h
  cases h

@[simp] theorem decodeDow_end (st : BitVec 2) : decodeDow (mkDow st 0#2 0#16) = .instr (.decoEnd st) := by
  rw [show 0#16 = joinBytes 0#8 0#8 from rfl]
  simp [decodeDow]

@[simp] theorem decodeDow_byte (b : Byte) : decodeDow (mkDow 0#2 1#2 (joinBytes 0#8 b)) = .instr (.decoByte b) := by
  simp [decodeDow]

@[simp] theorem decodeDow_word (h l : Byte) :
    decodeDow (mkDow 0#2 2#2 (joinBytes h l)) = .instr (.decoWord h l) := by
  simp [decodeDow]

theorem port_encode_of_decodeEiw (w : Eiw) : (decodeEiw w).port = .encIn ∧ encode (decodeEiw w) = w.toNat := by
  obtain ⟨d, rfl⟩ | ⟨x, l, rfl⟩ | ⟨h, l, rfl⟩ | ⟨d, rfl⟩ := eiw_cases w <;> simp [encode, Instr.port]

theorem port_encode_of_decodeDiw (w : Diw) : (decodeDiw w).port = .decIn ∧ encode (decodeDiw w) = w.toNat := by
  obtain ⟨c, rfl⟩ | ⟨x, rfl⟩ := diw_cases w <;> simp [encode, Instr.port]

theorem port_encode_of_decodeEow {w : Eow} {i : Instr} (h : decodeEow w = .instr i) :
    i.port = .encOut ∧ encode i = w.toNat := by
  obtain ⟨c, rfl⟩ | ⟨x, rfl⟩ := diw_cases w
  · obtain rfl : .encoChar c = i := Decoded.instr.inj ((decodeEow_char c).symm.trans h)
    exact ⟨rfl, rfl⟩
  · rw [decodeEow_end] at h
    split at h
    · next hx =>
      obtain rfl : .encoEnd = i := Decoded.instr.inj h
      exact ⟨rfl, by rw [hx, encode]⟩
    · cases h

theorem port_encode_of_decodeDow {w : Dow} {i : Instr} (h : decodeDow w = .instr i) :
    i.port = .decOut ∧ encode i = w.toNat := by
  have hw := mkDow_fields w
  obtain ⟨⟨hop, hhi, hlo⟩, rfl⟩ | ⟨⟨hst, hop, hhi⟩, rfl⟩ | ⟨⟨hst, hop⟩, rfl⟩ := decodeDow_eq_instr_iff.1 h
  · rw [hop, hhi, hlo] at hw
    exact ⟨rfl, congrArg BitVec.toNat hw⟩
  · rw [hst, hop, hhi] at hw
    exact ⟨rfl, congrArg BitVec.toNat hw⟩
  · rw [hst, hop] at hw
    exact ⟨rfl, congrArg BitVec.toNat hw⟩

end WordsOfPorts

/-- Settles O30: the word of each beat kind, read on its own port. -/
theorem decodeOfEncodeIsTheInstruction : Obligations.DecodeOfEncodeIsTheInstruction := by
  intro i
  cases i with
  | encEnd d => exact (decode_encIn _).trans (congrArg _ (decodeEiw_end d))
  | encSingle x l => exact (decode_encIn _).trans (congrArg _ (decodeEiw_single x l))
  | encPair h l => exact (decode_encIn _).trans (congrArg _ (decodeEiw_pair h l))
  | encRsvd3 d => exact (decode_encIn _).trans (congrArg _ (decodeEiw_rsvd3 d))
  | encoChar c => exact (decode_encOut _).trans (decodeEow_char c)
  | encoEnd => exact (decode_encOut _).trans (decodeEow_end 0#8)
  | decChar c => exact (decode_decIn _).trans (congrArg _ (decodeDiw_char c))
  | decEnd x => exact (decode_decIn _).trans (congrArg _ (decodeDiw_end x))
  | decoEnd st => exact (decode_decOut _).trans (decodeDow_end st)
  | decoByte b => exact (decode_decOut _).trans (decodeDow_byte b)
  | decoWord h l => exact (decode_decOut _).trans (decodeDow_word h l)

/-- Settles O31: a beat kind's word fits its port, and each port's decoder takes apart what the encoder put
together. -/
theorem encodeOfDecodeIsTheWord : Obligations.EncodeOfDecodeIsTheWord := by
  intro p w i h
  have hlt := lt_of_decode_eq_instr h
  obtain ⟨v, rfl⟩ : ∃ v : BitVec p.width, v.toNat = w := ⟨BitVec.ofNat _ w, Nat.mod_eq_of_lt hlt⟩
  cases p with
  | encIn =>
    obtain rfl : decodeEiw v = i := Decoded.instr.inj ((decode_encIn v).symm.trans h)
    exact port_encode_of_decodeEiw v
  | encOut => exact port_encode_of_decodeEow ((decode_encOut v).symm.trans h)
  | decIn =>
    obtain rfl : decodeDiw v = i := Decoded.instr.inj ((decode_decIn v).symm.trans h)
    exact port_encode_of_decodeDiw v
  | decOut => exact port_encode_of_decodeDow ((decode_decOut v).symm.trans h)

/-- Settles O32: each number is the word the encoder writes for the beat kind (R87), and the last has `op` 3. -/
theorem sampleWordsDecode : Obligations.SampleWordsDecode :=
  ⟨decodeOfEncodeIsTheInstruction (.encPair 0x41 0x42), decodeOfEncodeIsTheInstruction (.encSingle 0xAB 0x21),
    decodeOfEncodeIsTheInstruction (.encEnd 0xFFFF), decodeOfEncodeIsTheInstruction (.encRsvd3 0xBEEF),
    decodeOfEncodeIsTheInstruction (.encoChar 0x42), decodeOfEncodeIsTheInstruction .encoEnd,
    decodeOfEncodeIsTheInstruction (.decChar 0x38), decodeOfEncodeIsTheInstruction (.decEnd 0xA5),
    decodeOfEncodeIsTheInstruction (.decoEnd 3), decodeOfEncodeIsTheInstruction (.decoByte 0x21),
    decodeOfEncodeIsTheInstruction (.decoWord 0x41 0x42), by decide⟩

section PresentedWords

variable {s : State}

theorem contains_alphabetAt (i : Digit) : alphabet.contains (alphabetAt i) = true :=
  List.contains_iff_mem.2 (List.getElem_mem _)

theorem encOutChar_eq_alphabetAt (hcnt : s.encCnt ≠ 0#2) : encOutChar s = alphabetAt (quotientDigit s.encQ) :=
  if_pos hcnt

/-- The word on `enc_out` is that of the presented beat (R75). -/
theorem decodeEow_encOutWord (hvalid : encOutValid s = true) :
    ∃ i : Instr, decodeEow (encOutWord s) = .instr i ∧ encPresented s = some i ∧ i.wf = true := by
  by_cases hcnt : s.encCnt = 0#2
  · have hendp : s.encEndp = true := ((encOutValid_iff s).1 hvalid).resolve_left (not_not_intro hcnt)
    exact ⟨.encoEnd, by rw [encOutWord_end hcnt hendp]; exact decodeEow_end 0#8, encPresented_end hcnt hendp, rfl⟩
  · refine ⟨.encoChar (encOutChar s), by rw [encOutWord_char hcnt, decodeEow_char], encPresented_char hcnt, ?_⟩
    rw [encOutChar_eq_alphabetAt hcnt]
    exact contains_alphabetAt _

/-- A word is its two bytes side by side (R78). -/
theorem joinBytes_highByte_lowByte (d : BitVec 16) : joinBytes (highByte d) (lowByte d) = d := by
  apply BitVec.eq_of_toNat_eq
  rw [toNat_joinBytes, ← toNat_eq_highByte_lowByte]

/-- The three forms of a presented `dec_out` word under the invariant, each with its beat (R76). -/
theorem decOutWord_cases (hinv : decInv s) (hvalid : decOutValid s = true) :
    (∃ h l, decOutWord s = mkDow 0#2 2#2 (joinBytes h l) ∧ decPresented s = some (.decoWord h l)) ∨
    (∃ b, decOutWord s = mkDow 0#2 1#2 (joinBytes 0#8 b) ∧ decPresented s = some (.decoByte b)) ∨
    (∃ st, decOutWord s = mkDow st 0#2 0#16 ∧ decPresented s = some (.decoEnd st)) := by
  have hbytes := joinBytes_highByte_lowByte s.decOd
  have ⟨_, _, _, _, _, hoop, _⟩ := hinv
  cases hov : s.decOv with
  | true =>
    obtain hop | hop := hoop hov
    · obtain ⟨hhi, -⟩ := stagedByte_of_decInv hinv hov hop
      rw [hhi] at hbytes
      exact .inr (.inl ⟨_, by rw [decOutWord_data hov, hop, hbytes]; rfl, decPresented_of_byte hinv hov hop⟩)
    · exact .inl ⟨_, _, by rw [decOutWord_data hov, hop, hbytes]; rfl, decPresented_of_word hov hop⟩
  | false =>
    have hendp : s.decEndp = true := ((decOutValid_iff s).1 hvalid).resolve_left (by simp [hov])
    exact .inr (.inr ⟨_, decOutWord_end hov hendp, decPresented_of_end hov hendp⟩)

/-- The word on `dec_out` is that of the presented beat (R76). -/
theorem decodeDow_decOutWord (hinv : decInv s) (hvalid : decOutValid s = true) :
    ∃ i : Instr, decodeDow (decOutWord s) = .instr i ∧ decPresented s = some i := by
  obtain ⟨h, l, hw, hp⟩ | ⟨b, hw, hp⟩ | ⟨st, hw, hp⟩ := decOutWord_cases hinv hvalid <;> rw [hw]
  · exact ⟨_, decodeDow_word h l, hp⟩
  · exact ⟨_, decodeDow_byte b, hp⟩
  · exact ⟨_, decodeDow_end st, hp⟩

end PresentedWords

/-- Settles O34: a presented word is a character of the ROM, which is that of the closed form, or END. -/
theorem encoderPresentsFortySixWords : Obligations.EncoderPresentsFortySixWords := by
  intro s hvalid
  refine ⟨?_, decodeEow_encOutWord hvalid⟩
  by_cases hcnt : s.encCnt = 0#2
  · have hendp : s.encEndp = true := ((encOutValid_iff s).1 hvalid).resolve_left (not_not_intro hcnt)
    exact .inr (encOutWord_end hcnt hendp)
  · exact .inl ⟨_, by rw [encOutWord_char hcnt, encOutChar_eq_alphabetAt hcnt, alphabetAt_eq_refAlphabet]⟩

/-- Settles O35: the three forms, and the beat kind each decodes to. -/
theorem decoderPresentsThreeWordForms : Obligations.DecoderPresentsThreeWordForms := by
  rintro s ⟨-, hinv⟩ hvalid
  refine ⟨?_, decodeDow_decOutWord hinv hvalid⟩
  obtain ⟨h, l, hw, -⟩ | ⟨b, hw, -⟩ | ⟨st, hw, -⟩ := decOutWord_cases hinv hvalid
  · exact .inl ⟨_, hw⟩
  · exact .inr (.inl ⟨b, hw⟩)
  · exact .inr (.inr ⟨st, hw⟩)

section DecodedBeats

variable {s : State} {i : Instr}

/-- The beat the encoder runs is what the transferred word decodes to. -/
theorem encInstr_of_encMoves (h : encMoves s i) : encInstr (currentCycle s) s = some i := by
  obtain ⟨w, hx, hd⟩ | ⟨w, hx, hd⟩ := h
  · obtain ⟨-, hready, hsource, rfl⟩ := encInXfer_eq_some_iff.1 hx
    rw [decode_encIn] at hd
    simp [encInstr, encOutValid_eq_false hready, hsource, Decoded.instr.inj hd]
  · obtain ⟨-, hvalid, hsink, rfl⟩ := encOutXfer_eq_some_iff.1 hx
    obtain ⟨j, hj, hp, -⟩ := decodeEow_encOutWord hvalid
    rw [decode_encOut, hj] at hd
    simp [encInstr, hvalid, hsink, hp, Decoded.instr.inj hd]

theorem encInstr_of_encStill (hrst : (currentCycle s).rst = false) (h : encStill s) :
    encInstr (currentCycle s) s = none := by
  obtain ⟨hin, hout⟩ := h
  rw [encInXfer_eq_none_iff hrst] at hin
  rw [encOutXfer_eq_none_iff hrst, encOutValid_eq] at hout
  cases hready : encInReady s with
  | true => simp [encInstr, encOutValid_eq, hready, hin.resolve_left (by simp [hready])]
  | false => simp [encInstr, encOutValid_eq, hready, hout.resolve_left (by simp [hready])]

/-- The beat the decoder runs is what the transferred word decodes to. -/
theorem decInstr_of_decMoves (hinv : decInv s) (h : decMoves s i) : decInstr (currentCycle s) s = some i := by
  obtain ⟨w, hx, hd⟩ | ⟨w, hx, hd⟩ := h
  · obtain ⟨-, hready, hsource, rfl⟩ := decInXfer_eq_some_iff.1 hx
    rw [decode_decIn] at hd
    simp [decInstr, decOutValid_eq_false hready, hsource, Decoded.instr.inj hd]
  · obtain ⟨-, hvalid, hsink, rfl⟩ := decOutXfer_eq_some_iff.1 hx
    obtain ⟨j, hj, hp⟩ := decodeDow_decOutWord hinv hvalid
    rw [decode_decOut, hj] at hd
    simp [decInstr, hvalid, hsink, hp, Decoded.instr.inj hd]

theorem decInstr_of_decStill (hrst : (currentCycle s).rst = false) (h : decStill s) :
    decInstr (currentCycle s) s = none := by
  obtain ⟨hin, hout⟩ := h
  rw [decInXfer_eq_none_iff hrst] at hin
  rw [decOutXfer_eq_none_iff hrst, decOutValid_eq] at hout
  cases hready : decInReady s with
  | true => simp [decInstr, decOutValid_eq, hready, hin.resolve_left (by simp [hready])]
  | false => simp [decInstr, decOutValid_eq, hready, hout.resolve_left (by simp [hready])]

theorem decInstr_congr {u : State} (c : CycleIn) (h : sameDecoder s u) : decInstr c s = decInstr c u :=
  (congrArg (decInstr c) (decView_eq_iff.2 h) : decInstr c (decView s) = decInstr c (decView u))

theorem encEdge_of_encMoves (h : encMoves s i) : encEdge (currentCycle s) (popCycle s) = exec i (popCycle s) := by
  rw [encEdge, show encInstr (currentCycle s) (popCycle s) = some i from encInstr_of_encMoves h]

theorem encEdge_of_encStill (hrst : (currentCycle s).rst = false) (h : encStill s) :
    encEdge (currentCycle s) (popCycle s) = .next (popCycle s) := by
  rw [encEdge, show encInstr (currentCycle s) (popCycle s) = none from encInstr_of_encStill hrst h]

/-- The decoder's edge reads the cycle and the decoder's own registers, so that it may stand behind the encoder's. -/
theorem decEdge_of_decMoves {u : State} (hinv : decInv s) (hu : sameDecoder s u) (h : decMoves s i) :
    decEdge (currentCycle s) u = exec i u := by
  rw [decEdge, ← decInstr_congr _ hu, decInstr_of_decMoves hinv h]

theorem decEdge_of_decStill {u : State} (hrst : (currentCycle s).rst = false) (hu : sameDecoder s u)
    (h : decStill s) : decEdge (currentCycle s) u = .next u := by
  rw [decEdge, ← decInstr_congr _ hu, decInstr_of_decStill hrst h]
  obtain ⟨-, hout⟩ := h
  have hnone := (decOutXfer_eq_none_iff hrst).1 hout
  obtain ⟨-, -, -, hov, -⟩ := hu
  have hkeep : (u.decOv && (currentCycle s).decOutReady) = false := by
    rw [← hov, Bool.and_eq_false_iff]
    refine hnone.imp_left fun hvalid => ?_
    rw [decOutValid_eq, Bool.not_eq_false', decInReady_iff] at hvalid
    exact hvalid.1
  simp [hkeep]

theorem step_of_noReset (hrst : (currentCycle s).rst = false) :
    step s = decEdge (currentCycle s) (encNext (currentCycle s) (popCycle s)) := by
  rw [step_eq_next, stepNext, hrst, decEdge_eq_next, if_neg Bool.false_ne_true]

theorem sameDecoder_encNext (s : State) (c : CycleIn) : sameDecoder s (encNext c (popCycle s)) :=
  decView_eq_iff.1 (decView_encNext (popCycle s) c).symm

end DecodedBeats

/-- Settles O5: each unit's edge runs the beat its transferred word decodes to, or keeps the state; the decoder's
stands behind the encoder's, which leaves the decoder's registers alone. -/
theorem stepRunsTheDecodedBeats : Obligations.StepRunsTheDecodedBeats := by
  rintro s i j ⟨-, hinv⟩ hrst
  have hu := sameDecoder_encNext s (currentCycle s)
  have henc := encEdge_eq_next (currentCycle s) (popCycle s)
  rw [step_of_noReset hrst]
  refine ⟨fun hi hstill => ?encoder, fun hstill hj => ?decoder, fun hi hj => ?both, fun hs hs' => ?neither⟩
  case encoder => rw [decEdge_of_decStill hrst hu hstill, ← henc, encEdge_of_encMoves hi]
  case decoder =>
    rw [encEdge_of_encStill hrst hstill] at henc
    rw [decEdge_of_decMoves hinv hu hj, ← Host.Outcome.next.inj henc]
  case both => rw [decEdge_of_decMoves hinv hu hj, ← encEdge_of_encMoves hi, henc, andThen_of_next]
  case neither => rw [decEdge_of_decStill hrst hu hs', ← henc, encEdge_of_encStill hrst hs]

end Sys2Proof.Machine
end

section
/-! PROOF. The frame of every beat kind (40_encoder.md and 41_decoder.md, sections 3 and 4), and the beats that cannot
transfer (20_memory.md R47, R48). -/

namespace Sys2Proof.Machine

section Refusals

variable {s : State} {i : Instr} {f : State → State}

theorem produceEnc_of_not_presented (h : encPresented s ≠ some i) :
    produceEnc i f s = .refused .beatNotPresented := if_neg h

theorem produceDec_of_not_presented (h : decPresented s ≠ some i) :
    produceDec i f s = .refused .beatNotPresented := if_neg h

theorem exec_encOut {i : Instr} (hp : i.port = .encOut) : ∃ f, ∀ s, exec i s = produceEnc i f s := by
  cases i with
  | encoChar | encoEnd => exact ⟨_, fun _ => rfl⟩
  | encEnd | encSingle | encPair | encRsvd3 | decChar | decEnd | decoEnd | decoByte | decoWord => cases hp

theorem exec_decOut {i : Instr} (hp : i.port = .decOut) : ∃ f, ∀ s, exec i s = produceDec i f s := by
  cases i with
  | decoEnd | decoByte | decoWord => exact ⟨_, fun _ => rfl⟩
  | encEnd | encSingle | encPair | encRsvd3 | encoChar | encoEnd | decChar | decEnd => cases hp

/-- Only a beat that is to be taken and is not presented is refused (log 5). -/
theorem exec_next_or_refused (i : Instr) (s : State) :
    ((∃ t, exec i s = .next t) ∧ ¬((i.port = .encOut ∧ encPresented s ≠ some i) ∨
      (i.port = .decOut ∧ decPresented s ≠ some i))) ∨
    (exec i s = .refused .beatNotPresented ∧ ((i.port = .encOut ∧ encPresented s ≠ some i) ∨
      (i.port = .decOut ∧ decPresented s ≠ some i))) := by
  cases hp : i.port with
  | encIn => exact .inl ⟨exec_encIn_total hp s, by simp⟩
  | decIn => exact .inl ⟨exec_decIn_total hp s, by simp⟩
  | encOut =>
    obtain ⟨f, hf⟩ := exec_encOut hp
    by_cases h : encPresented s = some i
    · exact .inl ⟨⟨f s, exec_encOut_of_presented (hf s) h⟩, by simp [h]⟩
    · exact .inr ⟨(hf s).trans (produceEnc_of_not_presented h), .inl ⟨rfl, h⟩⟩
  | decOut =>
    obtain ⟨f, hf⟩ := exec_decOut hp
    by_cases h : decPresented s = some i
    · exact .inl ⟨⟨f s, exec_decOut_of_presented (hf s) h⟩, by simp [h]⟩
    · exact .inr ⟨(hf s).trans (produceDec_of_not_presented h), .inr ⟨rfl, h⟩⟩

end Refusals

/-- Settles O22: the gates of the input ports shut, and the two outcomes of `exec`. -/
theorem beatsThatCannotTransfer : Obligations.BeatsThatCannotTransfer := by
  intro s i
  refine ⟨fun hp hready => ?_, fun hp hready => ?_, ?_⟩
  · simp [exec_encIn hp, acceptEnc, hready]
  · simp [exec_decIn hp, acceptDec, hready]
  · obtain ⟨⟨t, ht⟩, hn⟩ | ⟨ht, hn⟩ := exec_next_or_refused i s
    · exact ⟨⟨fun h => absurd ht (h t), fun h => absurd h hn⟩, fun h => absurd ht (h t)⟩
    · exact ⟨⟨fun _ => hn, fun _ t h => by rw [ht] at h; cases h⟩, fun _ => ht⟩

/-- Settles O23: kind by kind, the one operation a transferred beat runs. -/
theorem encoderBeatsFrame : Obligations.EncoderBeatsFrame := by
  intro s t i hp h
  cases i with
  | encEnd | encSingle | encPair | encRsvd3 => obtain ⟨-, rfl⟩ | ⟨-, rfl⟩ := acceptEnc_next h <;> simp [sameDecoder]
  | encoChar | encoEnd =>
    obtain ⟨-, rfl⟩ := produceEnc_next h
    simp [sameDecoder]
  | decChar | decEnd | decoEnd | decoByte | decoWord => simp [Instr.port] at hp

section DecoderFrames

variable (s : State)

/-- A character of a message can record an error or stage a WORD, and leaves the rest (R137 to R141). -/
theorem takeChar_frame (c : Byte) :
    (takeChar c s).decEndp = s.decEndp ∧ (takeChar c s).decEst = s.decEst ∧
      ((takeChar c s).decOv = true ∨
        (takeChar c s).decOv = s.decOv ∧ (takeChar c s).decOop = s.decOop ∧ (takeChar c s).decOd = s.decOd) := by
  obtain ⟨-, h⟩ | ⟨-, -, h⟩ | ⟨g, -, -, -, h⟩ | ⟨g, -, -, -, h⟩ | ⟨g, -, -, -, -, h⟩ := takeChar_cases c s <;> rw [h]
  case inr.inr.inr.inr =>
    obtain ⟨-, h'⟩ | ⟨-, h'⟩ := closeTriplet_cases (tripletValue s.decAcc g) (advancePos s) <;> rw [h'] <;> simp
  all_goals simp

theorem endMessage_frame :
    (endMessage s).decOv = true ∨
      (endMessage s).decOv = s.decOv ∧ (endMessage s).decOop = s.decOop ∧ (endMessage s).decOd = s.decOd := by
  obtain ⟨-, h⟩ | ⟨-, h⟩ := endMessage_cases s <;> rw [h] <;> simp

theorem sameEncoder_decInEffect (i : Instr) : sameEncoder s (decInEffect i s) :=
  encView_eq_iff.1 (encView_decInEffect s i).symm

end DecoderFrames

/-- Settles O24: kind by kind; a ready decoder stages no beat yet, so that `dec_ov` tells whether it stages one. -/
theorem decoderBeatsFrame : Obligations.DecoderBeatsFrame := by
  intro s t i hp h
  cases i with
  | decChar c =>
    obtain ⟨hready, rfl⟩ | ⟨-, rfl⟩ := acceptDec_next h
    · obtain ⟨hov, -⟩ := (decInReady_iff s).1 hready
      obtain ⟨hendp, hest, hstage⟩ := takeChar_frame s c
      refine ⟨sameEncoder_decInEffect s (.decChar c), takeChar_inputs s c, fun _ _ => ⟨hendp, hest, fun hsame => ?_⟩,
        by simp, by simp, by simp, by simp⟩
      obtain hstaged | ⟨-, hkept⟩ := hstage
      · simp [hstaged, hov] at hsame
      · exact hkept
    · simp [sameEncoder]
  | decEnd x =>
    obtain ⟨hready, rfl⟩ | ⟨-, rfl⟩ := acceptDec_next h
    · obtain ⟨hov, -⟩ := (decInReady_iff s).1 hready
      refine ⟨sameEncoder_endMessage s, endMessage_inputs s, by simp, fun _ _ hsame => ?_, by simp, by simp, by simp⟩
      obtain hstaged | ⟨-, hkept⟩ := endMessage_frame s
      · simp [hstaged, hov] at hsame
      · exact hkept
    · simp [sameEncoder]
  | decoEnd | decoByte | decoWord =>
    obtain ⟨-, rfl⟩ := produceDec_next h
    simp [sameEncoder, takeDecEnd, takeData]
  | encEnd | encSingle | encPair | encRsvd3 | encoChar | encoEnd => simp [Instr.port] at hp

end Sys2Proof.Machine
end

section
/-! PROOF. The handshake (20_memory.md R48) and the phases of both units (42_sequencing_and_table_access.md R151,
R152): a unit's registers after a cycle by the event the cycle shows. -/

namespace Sys2Proof.Machine

section EncoderEvents

variable {s t : State} (hrst : (currentCycle s).rst = false) (h : step s = .next t)

include hrst h

theorem sameEncoder_of_still (hin : encInXfer s = none) (hout : encOutXfer s = none) : sameEncoder s t := by
  cases encMove_of_step hrst h with
  | char _ _ hout' => simp [hout] at hout'
  | endBeat _ _ _ hout' => simp [hout] at hout'
  | stall _ _ _ _ hregs => exact hregs
  | wait _ _ _ _ hregs => exact hregs
  | accept _ _ _ _ hin' => simp [hin] at hin'

theorem sameEncoder_of_accept {w : Eiw} (hin : encInXfer s = some w) :
    sameEncoder (encInEffect (decodeEiw w) s) t := by
  cases encMove_of_step hrst h with
  | char _ _ _ hin' => simp [hin] at hin'
  | endBeat _ _ _ _ hin' => simp [hin] at hin'
  | stall _ _ _ hin' => simp [hin] at hin'
  | wait _ _ _ hin' => simp [hin] at hin'
  | accept w' _ _ _ hin' hregs =>
    obtain rfl : w = w' := Option.some.inj (hin.symm.trans hin')
    exact hregs

theorem sameEncoder_of_take {w : Eow} (hout : encOutXfer s = some w) :
    (s.encCnt ≠ 0#2 ∧ sameEncoder (radixStep s) t) ∨ (s.encCnt = 0#2 ∧ sameEncoder (takeEncEnd s) t) := by
  cases encMove_of_step hrst h with
  | char hcnt _ _ _ hregs => exact .inl ⟨hcnt, hregs⟩
  | endBeat hcnt _ _ _ _ hregs => exact .inr ⟨hcnt, hregs⟩
  | stall _ _ hout' => simp [hout] at hout'
  | wait _ _ hout' => simp [hout] at hout'
  | accept _ _ _ hout' => simp [hout] at hout'

end EncoderEvents

section DecoderEvents

variable {s t : State} (hrst : (currentCycle s).rst = false) (h : step s = .next t)

include hrst h

theorem sameDecoder_of_still (hin : decInXfer s = none) (hout : decOutXfer s = none) : sameDecoder s t := by
  cases decMove_of_step hrst h with
  | data _ _ hout' => simp [hout] at hout'
  | endBeat _ _ _ hout' => simp [hout] at hout'
  | stall _ _ _ _ hregs => exact hregs
  | wait _ _ _ _ hregs => exact hregs
  | accept _ _ _ _ hin' => simp [hin] at hin'

theorem sameDecoder_of_accept {w : Diw} (hin : decInXfer s = some w) :
    sameDecoder (decInEffect (decodeDiw w) s) t := by
  cases decMove_of_step hrst h with
  | data _ _ _ hin' => simp [hin] at hin'
  | endBeat _ _ _ _ hin' => simp [hin] at hin'
  | stall _ _ _ hin' => simp [hin] at hin'
  | wait _ _ _ hin' => simp [hin] at hin'
  | accept w' _ _ _ hin' hregs =>
    obtain rfl : w = w' := Option.some.inj (hin.symm.trans hin')
    exact hregs

theorem sameDecoder_of_take {w : Dow} (hout : decOutXfer s = some w) :
    (s.decOv = true ∧ sameDecoder (takeData s) t) ∨ (s.decOv = false ∧ sameDecoder (takeDecEnd s) t) := by
  cases decMove_of_step hrst h with
  | data hov _ _ _ hregs => exact .inl ⟨hov, hregs⟩
  | endBeat hov _ _ _ _ hregs => exact .inr ⟨hov, hregs⟩
  | stall _ _ hout' => simp [hout] at hout'
  | wait _ _ hout' => simp [hout] at hout'
  | accept _ _ _ hout' => simp [hout] at hout'

end DecoderEvents

section OutputsOfRegisters

variable {s t : State}

/-- The encoder's outputs are functions of its own registers (R14). -/
theorem encOutputs_of_sameEncoder (h : sameEncoder s t) :
    encInReady t = encInReady s ∧ encOutValid t = encOutValid s ∧ encOutWord t = encOutWord s := by
  have hv := encView_eq_iff.2 h
  exact ⟨(congrArg encInReady hv).symm, (congrArg encOutValid hv).symm, (congrArg encOutWord hv).symm⟩

theorem encPhase_of_sameEncoder (h : sameEncoder s t) : encPhase t = encPhase s :=
  (congrArg encPhase (encView_eq_iff.2 h)).symm

theorem encPhase_of_still (hrst : (currentCycle s).rst = false) (h : step s = .next t) (hin : encInXfer s = none)
    (hout : encOutXfer s = none) : encPhase t = encPhase s :=
  encPhase_of_sameEncoder (sameEncoder_of_still hrst h hin hout)

/-- The decoder's outputs are functions of its own registers (R20). -/
theorem decOutputs_of_sameDecoder (h : sameDecoder s t) :
    decInReady t = decInReady s ∧ decOutValid t = decOutValid s ∧ decOutWord t = decOutWord s := by
  have hv := decView_eq_iff.2 h
  exact ⟨(congrArg decInReady hv).symm, (congrArg decOutValid hv).symm, (congrArg decOutWord hv).symm⟩

theorem decPhase_of_sameDecoder (h : sameDecoder s t) : decPhase t = decPhase s :=
  (congrArg decPhase (decView_eq_iff.2 h)).symm

theorem decPhase_of_still (hrst : (currentCycle s).rst = false) (h : step s = .next t) (hin : decInXfer s = none)
    (hout : decOutXfer s = none) : decPhase t = decPhase s :=
  decPhase_of_sameDecoder (sameDecoder_of_still hrst h hin hout)

end OutputsOfRegisters

/-- Settles O52: a unit that moves no beat keeps its registers, and its outputs are functions of them; a presenting
unit cannot accept, and a ready one presents nothing. -/
theorem handshakeHoldsStill : Obligations.HandshakeHoldsStill := by
  intro s t h
  refine ⟨fun ins => ⟨encInReady_withInputs s ins, encOutValid_withInputs s ins, encOutWord_withInputs s ins,
      decInReady_withInputs s ins, decOutValid_withInputs s ins, decOutWord_withInputs s ins⟩,
    fun hin hout hrst => sameEncoder_of_still hrst h hin hout,
    fun hin hout hrst => sameDecoder_of_still hrst h hin hout,
    fun hv hout hrst => ?encHeld, fun hv hout hrst => ?decHeld, fun hr hin hrst => ?encReady,
    fun hr hin hrst => ?decReady⟩
  case encHeld =>
    have hin := (encInXfer_eq_none_iff hrst).2 (.inl (encInReady_eq_false hv))
    obtain ⟨-, hvalid, hword⟩ := encOutputs_of_sameEncoder (sameEncoder_of_still hrst h hin hout)
    exact ⟨hvalid.trans hv, hword⟩
  case decHeld =>
    have hin := (decInXfer_eq_none_iff hrst).2 (.inl (decInReady_eq_false hv))
    obtain ⟨-, hvalid, hword⟩ := decOutputs_of_sameDecoder (sameDecoder_of_still hrst h hin hout)
    exact ⟨hvalid.trans hv, hword⟩
  case encReady =>
    have hout := (encOutXfer_eq_none_iff hrst).2 (.inl (encOutValid_eq_false hr))
    obtain ⟨hready, -⟩ := encOutputs_of_sameEncoder (sameEncoder_of_still hrst h hin hout)
    exact hready.trans hr
  case decReady =>
    have hout := (decOutXfer_eq_none_iff hrst).2 (.inl (decOutValid_eq_false hr))
    obtain ⟨hready, -⟩ := decOutputs_of_sameDecoder (sameDecoder_of_still hrst h hin hout)
    exact hready.trans hr

section Phases

variable {s : State}

theorem encPhase_idle_iff : encPhase s = .idle ↔ encInReady s = true := by
  by_cases hcnt : s.encCnt = 0#2 <;> cases hendp : s.encEndp <;> simp [encPhase, encInReady, hcnt, hendp]

theorem encPhase_emit_iff : encPhase s = .emit ↔ s.encCnt ≠ 0#2 := by
  by_cases hcnt : s.encCnt = 0#2 <;> cases hendp : s.encEndp <;> simp [encPhase, hcnt, hendp]

theorem encPhase_endp_iff : encPhase s = .endp ↔ s.encCnt = 0#2 ∧ s.encEndp = true := by
  by_cases hcnt : s.encCnt = 0#2 <;> cases hendp : s.encEndp <;> simp [encPhase, hcnt, hendp]

theorem decPhase_idle_iff : decPhase s = .idle ↔ decInReady s = true := by
  cases hov : s.decOv <;> cases hendp : s.decEndp <;> simp [decPhase, decInReady, hov, hendp]

theorem decPhase_data_iff : decPhase s = .data ↔ s.decOv = true := by
  cases hov : s.decOv <;> cases hendp : s.decEndp <;> simp [decPhase, hov, hendp]

theorem decPhase_endp_iff : decPhase s = .endp ↔ s.decOv = false ∧ s.decEndp = true := by
  cases hov : s.decOv <;> cases hendp : s.decEndp <;> simp [decPhase, hov, hendp]

/-- The last character of a group, with no END behind it, leaves the encoder idle (R151). -/
theorem encPhase_radixStep (hendp : s.encEndp = false) :
    encPhase (radixStep s) = if s.encCnt = 1#2 then .idle else .emit := by
  split
  · next hone => rw [encPhase_idle_iff, encInReady_iff, radixStep_encCnt, hone]; exact ⟨rfl, hendp⟩
  · next hone => rw [encPhase_emit_iff, radixStep_encCnt]; bv_omega

theorem decPhase_takeData : decPhase (takeData s) = if s.decEndp then .endp else .idle := rfl

/-- A character stages a WORD exactly when it completes a triplet whose value fits (R140). -/
theorem decPhase_takeChar (hready : decInReady s = true) (hpos : s.decPos ≠ 3#2) (c : Byte) :
    decPhase (takeChar c s) =
      match refDigit c.toNat with
      | some g => if s.decErr = 0#2 ∧ s.decPos = 2#2 ∧ s.decAcc.toNat + 2025 * g ≤ 0xFFFF then .data else .idle
      | none => .idle := by
  obtain ⟨hov, hendp⟩ := (decInReady_iff s).1 hready
  rw [← invAt_eq_refDigit]
  obtain ⟨he, h⟩ | ⟨he, hc, h⟩ | ⟨g, he, hc, hp, h⟩ | ⟨g, he, hc, hp, h⟩ | ⟨g, he, hc, hp0, hp1, h⟩ :=
    takeChar_cases c s <;> rw [h]
  · cases invAt c <;> simp [decPhase, hov, hendp, he]
  · simp [decPhase, hov, hendp, hc]
  · simp [decPhase, hov, hendp, hc, hp]
  · simp [decPhase, hov, hendp, hc, hp]
  · have hp : s.decPos = 2#2 := by bv_omega
    obtain ⟨hv, h'⟩ | ⟨hv, h'⟩ := closeTriplet_cases (tripletValue s.decAcc g) (advancePos s) <;> rw [h'] <;>
      rw [tripletValue_eq] at hv
    · simp [decPhase, hov, hendp, hc, Nat.not_le.2 hv]
    · simp [decPhase, hc, he, hp, hv]

/-- An END beat stages a BYTE exactly when a good trailing pair is waiting (R142). -/
theorem decPhase_endMessage (hready : decInReady s = true) :
    decPhase (endMessage s) =
      if s.decErr = 0#2 ∧ s.decPos = 2#2 ∧ s.decAcc.toNat ≤ 0xFF then .data else .endp := by
  obtain ⟨hov, -⟩ := (decInReady_iff s).1 hready
  obtain ⟨hgood, h⟩ | ⟨hbad, h⟩ := endMessage_cases s <;> rw [h]
  · rw [if_pos ((goodTrailingPair_iff s).1 hgood)]
    rfl
  · rw [Bool.eq_false_iff, Ne, goodTrailingPair_iff] at hbad
    rw [if_neg hbad]
    simp [decPhase, hov]

end Phases

/-- Settles O55: phase by phase, the registers after each event. -/
theorem encoderPhases : Obligations.EncoderPhases := by
  rintro s t ⟨⟨hpending, -⟩, -⟩ hrst h
  refine ⟨fun hphase => ?idle, fun hphase => ?emit, fun hphase => ?endp⟩
  case idle =>
    have hready := encPhase_idle_iff.1 hphase
    obtain ⟨hcnt, -⟩ := (encInReady_iff s).1 hready
    have hout := (encOutXfer_eq_none_iff hrst).2 (.inl (encOutValid_eq_false hready))
    refine ⟨hout, fun hin => (encPhase_of_still hrst h hin hout).trans hphase,
      fun w hi lo hin hw => ?pair, fun w x lo hin hw => ?single, fun w d hin hw => ?endBeat,
      fun w d hin hw => ?rsvd3⟩ <;>
      have hregs := sameEncoder_of_accept hrst h hin <;> rw [hw] at hregs
    case pair =>
      have ⟨_, hloaded, _⟩ := hregs
      exact ⟨(encPhase_of_sameEncoder hregs).trans (encPhase_emit_iff.2 (by decide : 3#2 ≠ 0#2)), hloaded.symm⟩
    case single =>
      have ⟨_, hloaded, _⟩ := hregs
      exact ⟨(encPhase_of_sameEncoder hregs).trans (encPhase_emit_iff.2 (by decide : 2#2 ≠ 0#2)), hloaded.symm⟩
    case endBeat => exact (encPhase_of_sameEncoder hregs).trans (encPhase_endp_iff.2 ⟨hcnt, rfl⟩)
    case rsvd3 => exact (encPhase_of_sameEncoder hregs).trans hphase
  case emit =>
    have hcnt := encPhase_emit_iff.1 hphase
    have hin := (encInXfer_eq_none_iff hrst).2 (.inl (encInReady_eq_false ((encOutValid_iff s).2 (.inl hcnt))))
    refine ⟨hin, fun hout => (encPhase_of_still hrst h hin hout).trans hphase, fun w hout => ?_⟩
    obtain ⟨-, hregs⟩ | ⟨hzero, -⟩ := sameEncoder_of_take hrst h hout
    · exact (encPhase_of_sameEncoder hregs).trans (encPhase_radixStep (hpending hcnt))
    · exact absurd hzero hcnt
  case endp =>
    obtain ⟨hcnt, hendp⟩ := encPhase_endp_iff.1 hphase
    have hin := (encInXfer_eq_none_iff hrst).2 (.inl (encInReady_eq_false ((encOutValid_iff s).2 (.inr hendp))))
    refine ⟨hin, fun hout => (encPhase_of_still hrst h hin hout).trans hphase, fun w hout => ?_⟩
    obtain ⟨hpos, -⟩ | ⟨-, hregs⟩ := sameEncoder_of_take hrst h hout
    · exact absurd hcnt hpos
    · exact (encPhase_of_sameEncoder hregs).trans (encPhase_idle_iff.2 ((encInReady_iff _).2 ⟨hcnt, rfl⟩))

/-- Settles O56: phase by phase, the registers after each event. -/
theorem decoderPhases : Obligations.DecoderPhases := by
  rintro s t ⟨-, hpos, -⟩ hrst h
  refine ⟨fun hphase => ?idle, fun hphase => ?data, fun hphase => ?endp⟩
  case idle =>
    have hready := decPhase_idle_iff.1 hphase
    have hout := (decOutXfer_eq_none_iff hrst).2 (.inl (decOutValid_eq_false hready))
    refine ⟨hout, fun hin => (decPhase_of_still hrst h hin hout).trans hphase,
      fun w c hin hw => ?char, fun w x hin hw => ?endBeat⟩ <;>
      have hregs := sameDecoder_of_accept hrst h hin <;> rw [hw] at hregs
    case char => exact (decPhase_of_sameDecoder hregs).trans (decPhase_takeChar hready hpos c)
    case endBeat =>
      have ⟨_, _, _, _, _, _, hendp, _⟩ := hregs
      exact ⟨hendp.symm, (decPhase_of_sameDecoder hregs).trans (decPhase_endMessage hready)⟩
  case data =>
    have hov := decPhase_data_iff.1 hphase
    have hin := (decInXfer_eq_none_iff hrst).2 (.inl (decInReady_eq_false ((decOutValid_iff s).2 (.inl hov))))
    refine ⟨hin, fun hout => (decPhase_of_still hrst h hin hout).trans hphase, fun w hout => ?_⟩
    obtain ⟨-, hregs⟩ | ⟨hno, -⟩ := sameDecoder_of_take hrst h hout
    · exact (decPhase_of_sameDecoder hregs).trans decPhase_takeData
    · simp [hov] at hno
  case endp =>
    obtain ⟨hov, hendp⟩ := decPhase_endp_iff.1 hphase
    have hin := (decInXfer_eq_none_iff hrst).2 (.inl (decInReady_eq_false ((decOutValid_iff s).2 (.inr hendp))))
    refine ⟨hin, fun hout => (decPhase_of_still hrst h hin hout).trans hphase, fun w hout => ?_⟩
    obtain ⟨hyes, -⟩ | ⟨-, hregs⟩ := sameDecoder_of_take hrst h hout
    · simp [hov] at hyes
    · exact (decPhase_of_sameDecoder hregs).trans (decPhase_idle_iff.2 ((decInReady_iff _).2 ⟨hov, rfl⟩))

end Sys2Proof.Machine
end

section
/-! PROOF. The tables (30_encoding.md R80 to R85), the state of reset (10_state.md R27) and the pseudo-instructions
(R88). -/

namespace Sys2Proof.Machine

/-- Settles O1: the values of the one state. -/
theorem resetRegistersAndOutputs : Obligations.ResetRegistersAndOutputs := by
  unfold Obligations.ResetRegistersAndOutputs
  decide

/-- Settles O36: the ROM's entries, and the closed form entry by entry. -/
theorem alphabetContents : Obligations.AlphabetContents :=
  ⟨alphabet_length, by decide, alphabetAt_eq_refAlphabet, rfl, rfl, rfl, rfl, rfl⟩

theorem invAt_alphabetAt : ∀ i : Digit, invAt (alphabetAt i) = some i := by decide

/-- A code of 256 or more has no digit (R134). -/
theorem refDigit_of_wide {c : Nat} (hc : 256 ≤ c) : refDigit c = none := by
  unfold refDigit
  rw [if_neg (by omega), if_neg (by omega)]
  split <;> first | omega | rfl

theorem refAlphabet_of_digit {i : Nat} (h : i ≤ 9) : refAlphabet i = BitVec.ofNat 8 (0x30 + i) := if_pos h

theorem refAlphabet_of_letter {i : Nat} (h : ¬i ≤ 9) (h' : i ≤ 35) :
    refAlphabet i = BitVec.ofNat 8 (0x41 + (i - 10)) := (if_neg h).trans (if_pos h')

/-- Only the alphabet's characters have digits, and each its own: range by range of R82. -/
theorem refAlphabet_of_refDigit {c g : Nat} (h : refDigit c = some g) : g < 45 ∧ (refAlphabet g).toNat = c := by
  unfold refDigit at h
  split at h
  case isTrue hrange =>
    obtain rfl : c - 0x30 = g := Option.some.inj h
    rw [refAlphabet_of_digit (by omega), BitVec.toNat_ofNat]
    omega
  case isFalse =>
    split at h
    case isTrue hrange =>
      obtain rfl : c - 0x41 + 10 = g := Option.some.inj h
      rw [refAlphabet_of_letter (by omega) (by omega), BitVec.toNat_ofNat]
      omega
    case isFalse => split at h <;> cases h <;> decide

/-- The codes without a digit, by the gaps between the ranges of R82. -/
theorem refDigit_eq_none_iff (c : Nat) : refDigit c = none ↔
    c ≤ 0x1F ∨ (0x21 ≤ c ∧ c ≤ 0x23) ∨ (0x26 ≤ c ∧ c ≤ 0x29) ∨ c = 0x2C ∨ (0x3B ≤ c ∧ c ≤ 0x40) ∨ 0x5B ≤ c := by
  unfold refDigit
  split
  case isTrue => simp only [reduceCtorEq, false_iff]; omega
  case isFalse =>
    split
    case isTrue => simp only [reduceCtorEq, false_iff]; omega
    case isFalse =>
      split
      case h_10 => simp only [imp_false, true_iff] at *; omega
      all_goals decide

theorem invAt_eq_none_iff (c : Byte) : invAt c = none ↔ refDigit c.toNat = none := by
  rw [← invAt_eq_refDigit, Option.map_eq_none_iff]

theorem alphabetAt_of_invAt {c : Byte} {g : Digit} (h : invAt c = some g) : alphabetAt g = c := by
  have hdigit : refDigit c.toNat = some g.val := by rw [← invAt_eq_refDigit, h, Option.map_some]
  obtain ⟨-, hchar⟩ := refAlphabet_of_refDigit hdigit
  exact BitVec.eq_of_toNat_eq ((congrArg BitVec.toNat (alphabetAt_eq_refAlphabet g)).trans hchar)

/-- The 211 codes are counted in the closed form. -/
theorem length_codes_without_digit :
    ((List.range 256).filter fun n => (invAt (BitVec.ofNat 8 n)).isNone).length = 211 := by
  have hclosed : ∀ n ∈ List.range 256, (invAt (BitVec.ofNat 8 n)).isNone = (refDigit n).isNone := fun n hn => by
    rw [Bool.eq_iff_iff, Option.isNone_iff_eq_none, Option.isNone_iff_eq_none, invAt_eq_none_iff, BitVec.toNat_ofNat,
      Nat.mod_eq_of_lt (List.mem_range.1 hn)]
  rw [List.filter_congr hclosed]
  rfl

/-- Settles O37: the inverse in both directions, the closed form, the marker, and the codes that hold it. -/
theorem inverseTableContents : Obligations.InverseTableContents := by
  refine ⟨invAt_alphabetAt, fun _ _ => alphabetAt_of_invAt, invAt_eq_refDigit, fun c hc => ?marker,
    fun c g hc => ?digit, fun c => (invAt_eq_none_iff c).trans ((refDigit_eq_none_iff c.toNat).trans ?ranges),
    length_codes_without_digit⟩
  case ranges => simp only [BitVec.le_def, ← BitVec.toNat_inj]; rfl
  case marker => rw [invRaw, hc]
  case digit =>
    have := g.isLt
    rw [invRaw, hc, BitVec.toNat_ofNat]
    omega

/-- Settles O60: each expansion is the recursion of the framing, and the examples are two of its values. -/
theorem pseudoInstructionsExpand : Obligations.PseudoInstructionsExpand :=
  ⟨rfl, rfl, rfl, rfl, fun _ _ _ => rfl, fun _ => rfl, fun _ _ => rfl, rfl⟩

end Sys2Proof.Machine
end

section
/-! PROOF. The reference functions (40_encoder.md R100, 41_decoder.md R130): the closed forms of the tables as inverses,
`decode` group by group, the length laws, which defect wins, and the two inverse properties of R148. -/

namespace Sys2Proof.Machine

section Digits

theorem refDigit_refAlphabet {g : Nat} (hg : g < 45) : refDigit (refAlphabet g).toNat = some g := by
  rw [← alphabetAt_eq_refAlphabet ⟨g, hg⟩, ← invAt_eq_refDigit, invAt_alphabetAt, Option.map_some]

end Digits

section Groups

variable {c0 c1 c2 v : Nat} {k : ErrorKind} {rest : List Nat}

theorem refTriplet_of_digits {d0 d1 d2 : Nat} (h0 : refDigit c0 = some d0) (h1 : refDigit c1 = some d1)
    (h2 : refDigit c2 = some d2) :
    refTriplet c0 c1 c2 =
      if 0xFFFF < d0 + 45 * d1 + 2025 * d2 then .error .invalidValue else .ok (d0 + 45 * d1 + 2025 * d2) := by
  have hv : d0 + d1 * 45 + d2 * 45 * 45 = d0 + 45 * d1 + 2025 * d2 := by omega
  simp only [refTriplet, h0, h1, h2, hv, gt_iff_lt]

theorem refPair_of_digits {d0 d1 : Nat} (h0 : refDigit c0 = some d0) (h1 : refDigit c1 = some d1) :
    refPair c0 c1 = if 0xFF < d0 + 45 * d1 then .error .invalidValue else .ok (d0 + 45 * d1) := by
  have hv : d0 + d1 * 45 = d0 + 45 * d1 := by omega
  simp only [refPair, h0, h1, hv, gt_iff_lt]

/-- The three outcomes of a triplet: the characters before the bound (R131, R134). -/
theorem refTriplet_cases (c0 c1 c2 : Nat) :
    ((refDigit c0 = none ∨ refDigit c1 = none ∨ refDigit c2 = none) ∧
      refTriplet c0 c1 c2 = .error .invalidCharacter) ∨
    (∃ d0 d1 d2, refDigit c0 = some d0 ∧ refDigit c1 = some d1 ∧ refDigit c2 = some d2 ∧
      ((0xFFFF < d0 + 45 * d1 + 2025 * d2 ∧ refTriplet c0 c1 c2 = .error .invalidValue) ∨
        (d0 + 45 * d1 + 2025 * d2 ≤ 0xFFFF ∧ refTriplet c0 c1 c2 = .ok (d0 + 45 * d1 + 2025 * d2)))) := by
  cases h0 : refDigit c0 with
  | none => exact .inl ⟨.inl rfl, by simp [refTriplet, h0]⟩
  | some d0 =>
    cases h1 : refDigit c1 with
    | none => exact .inl ⟨.inr (.inl rfl), by simp [refTriplet, h0, h1]⟩
    | some d1 =>
      cases h2 : refDigit c2 with
      | none => exact .inl ⟨.inr (.inr rfl), by simp [refTriplet, h0, h1, h2]⟩
      | some d2 =>
        refine .inr ⟨d0, d1, d2, rfl, rfl, rfl, ?_⟩
        rw [refTriplet_of_digits h0 h1 h2]
        split
        · next hover => exact .inl ⟨hover, rfl⟩
        · next hfits => exact .inr ⟨Nat.not_lt.1 hfits, rfl⟩

/-- The three outcomes of a trailing pair (R132). -/
theorem refPair_cases (c0 c1 : Nat) :
    ((refDigit c0 = none ∨ refDigit c1 = none) ∧ refPair c0 c1 = .error .invalidCharacter) ∨
    (∃ d0 d1, refDigit c0 = some d0 ∧ refDigit c1 = some d1 ∧
      ((0xFF < d0 + 45 * d1 ∧ refPair c0 c1 = .error .invalidValue) ∨
        (d0 + 45 * d1 ≤ 0xFF ∧ refPair c0 c1 = .ok (d0 + 45 * d1)))) := by
  cases h0 : refDigit c0 with
  | none => exact .inl ⟨.inl rfl, by simp [refPair, h0]⟩
  | some d0 =>
    cases h1 : refDigit c1 with
    | none => exact .inl ⟨.inr rfl, by simp [refPair, h0, h1]⟩
    | some d1 =>
      refine .inr ⟨d0, d1, rfl, rfl, ?_⟩
      rw [refPair_of_digits h0 h1]
      split
      · next hover => exact .inl ⟨hover, rfl⟩
      · next hfits => exact .inr ⟨Nat.not_lt.1 hfits, rfl⟩

theorem refTriplet_ne_invalidLength : refTriplet c0 c1 c2 ≠ .error .invalidLength := by
  obtain ⟨-, h⟩ | ⟨d0, d1, d2, -, -, -, ⟨-, h⟩ | ⟨-, h⟩⟩ := refTriplet_cases c0 c1 c2 <;> simp [h]

theorem refPair_ne_invalidLength : refPair c0 c1 ≠ .error .invalidLength := by
  obtain ⟨-, h⟩ | ⟨d0, d1, -, -, ⟨-, h⟩ | ⟨-, h⟩⟩ := refPair_cases c0 c1 <;> simp [h]

theorem prependBytes_eq_ok_iff {bs b : List Byte} {r : Result} :
    prependBytes bs r = .ok b ↔ ∃ b', r = .ok b' ∧ bs ++ b' = b := by
  cases r <;> simp [prependBytes]

theorem prependBytes_eq_err_iff {bs : List Byte} {r : Result} : prependBytes bs r = .err k ↔ r = .err k := by
  cases r <;> simp [prependBytes]

theorem prependBytes_append (bs bs' : List Byte) (r : Result) :
    prependBytes (bs ++ bs') r = prependBytes bs (prependBytes bs' r) := by
  cases r <;> simp [prependBytes]

theorem length_triplet_mod (c0 c1 c2 : Nat) (rest : List Nat) :
    (c0 :: c1 :: c2 :: rest).length % 3 = rest.length % 3 := Nat.add_mod_right _ 3

theorem refDecode_of_length {codes : List Nat} (h : codes.length % 3 = 1) : refDecode codes = .err .invalidLength :=
  if_pos h

theorem refDecode_nil : refDecode [] = .ok [] := rfl

theorem refDecode_single (c : Nat) : refDecode [c] = .err .invalidLength := rfl

theorem refDecode_of_pair_ok (h : refPair c0 c1 = .ok v) : refDecode [c0, c1] = .ok [BitVec.ofNat 8 v] := by
  simp [refDecode, refGroups, h]

theorem refDecode_of_pair_error (h : refPair c0 c1 = .error k) : refDecode [c0, c1] = .err k := by
  simp [refDecode, refGroups, h]

theorem refDecode_of_triplet_ok (h : refTriplet c0 c1 c2 = .ok v) :
    refDecode (c0 :: c1 :: c2 :: rest) =
      prependBytes [BitVec.ofNat 8 (v / 256), BitVec.ofNat 8 (v % 256)] (refDecode rest) := by
  have hlen := length_triplet_mod c0 c1 c2 rest
  by_cases hone : rest.length % 3 = 1
  · rw [refDecode_of_length (hlen.trans hone), refDecode_of_length hone, prependBytes]
  · rw [refDecode, refDecode, hlen, if_neg hone, if_neg hone, refGroups, h]

theorem refDecode_of_triplet_error (h : refTriplet c0 c1 c2 = .error k) :
    refDecode (c0 :: c1 :: c2 :: rest) = .err (if rest.length % 3 = 1 then .invalidLength else k) := by
  have hlen := length_triplet_mod c0 c1 c2 rest
  by_cases hone : rest.length % 3 = 1
  · rw [refDecode_of_length (hlen.trans hone), if_pos hone]
  · rw [refDecode, hlen, if_neg hone, if_neg hone, refGroups, h]

end Groups

/-- Settles O41: no group raises InvalidLength, so that only the length check does; each good group gives its bytes. -/
theorem decodedLengthLaw : Obligations.DecodedLengthLaw := by
  refine ⟨fun codes => ⟨fun h => ?onlyLength, refDecode_of_length⟩, fun codes bytes h => ?bytes⟩
  case onlyLength =>
    induction codes using refGroups.induct with
    | case1 c0 c1 c2 rest v hv ih =>
      rw [refDecode_of_triplet_ok hv, prependBytes_eq_err_iff] at h
      have := ih h
      simp only [List.length_cons]
      omega
    | case2 c0 c1 c2 rest k hk =>
      have hne : k ≠ .invalidLength := fun he => refTriplet_ne_invalidLength (he ▸ hk)
      rw [refDecode_of_triplet_error hk, Result.err.injEq] at h
      by_contra hlen
      rw [length_triplet_mod] at hlen
      rw [if_neg hlen] at h
      exact hne h
    | case3 c0 c1 v hv => simp [refDecode_of_pair_ok hv] at h
    | case4 c0 c1 k hk =>
      rw [refDecode_of_pair_error hk, Result.err.injEq] at h
      exact absurd (h ▸ hk) refPair_ne_invalidLength
    | case5 c => rfl
    | case6 => cases h
  case bytes =>
    induction codes using refGroups.induct generalizing bytes with
    | case1 c0 c1 c2 rest v hv ih =>
      rw [refDecode_of_triplet_ok hv, prependBytes_eq_ok_iff] at h
      obtain ⟨b', hb', rfl⟩ := h
      have := ih b' hb'
      simp only [List.length_cons, List.length_append, List.length_nil]
      split <;> split at this <;> omega
    | case2 c0 c1 c2 rest k hk =>
      rw [refDecode_of_triplet_error hk] at h
      cases h
    | case3 c0 c1 v hv =>
      obtain rfl := Result.ok.inj ((refDecode_of_pair_ok hv).symm.trans h)
      simp
    | case4 c0 c1 k hk => simp [refDecode_of_pair_error hk] at h
    | case5 c => cases h
    | case6 =>
      obtain rfl := Result.ok.inj h
      rfl

section Defects

variable {before rest : List Nat} {bs : List Byte} {c0 c1 c2 : Nat}

/-- Whole good triplets in front of a string put their bytes in front of its result. -/
theorem refDecode_append (h : refDecode before = .ok bs) (hlen : before.length % 3 = 0) :
    refDecode (before ++ rest) = prependBytes bs (refDecode rest) := by
  induction before using refGroups.induct generalizing bs with
  | case1 c0 c1 c2 tail v hv ih =>
    rw [refDecode_of_triplet_ok hv, prependBytes_eq_ok_iff] at h
    obtain ⟨b', hb', rfl⟩ := h
    rw [length_triplet_mod] at hlen
    rw [prependBytes_append, ← ih hb' hlen]
    exact refDecode_of_triplet_ok hv
  | case2 c0 c1 c2 tail k hk =>
    rw [refDecode_of_triplet_error hk] at h
    cases h
  | case3 => simp at hlen
  | case4 => simp at hlen
  | case5 => simp at hlen
  | case6 =>
    obtain rfl := Result.ok.inj h
    cases hr : refDecode rest <;> simp [hr, prependBytes]

theorem refTriplet_of_bad_character (h : refDigit c0 = none ∨ refDigit c1 = none ∨ refDigit c2 = none) :
    refTriplet c0 c1 c2 = .error .invalidCharacter := by
  obtain ⟨-, h'⟩ | ⟨d0, d1, d2, h0, h1, h2, -⟩ := refTriplet_cases c0 c1 c2
  · exact h'
  · simp [h0, h1, h2] at h

theorem refPair_of_bad_character (h : refDigit c0 = none ∨ refDigit c1 = none) :
    refPair c0 c1 = .error .invalidCharacter := by
  obtain ⟨-, h'⟩ | ⟨d0, d1, h0, h1, -⟩ := refPair_cases c0 c1
  · exact h'
  · simp [h0, h1] at h

end Defects

/-- Settles O42: the good triplets leave the error to the next group, and the group's own checks come in order. -/
theorem firstDefectWins : Obligations.FirstDefectWins := by
  intro before after bs c0 c1 c2 hgood hlen
  have hrest (rest : List Nat) : refDecode (before ++ rest) = prependBytes bs (refDecode rest) :=
    refDecode_append hgood hlen
  have htriplet {k : ErrorKind} (h : (before ++ c0 :: c1 :: c2 :: after).length % 3 ≠ 1)
      (hk : refTriplet c0 c1 c2 = .error k) : refDecode (before ++ c0 :: c1 :: c2 :: after) = .err k := by
    have hafter : after.length % 3 ≠ 1 := by
      simp only [List.length_append, List.length_cons] at h
      omega
    rw [hrest, refDecode_of_triplet_error hk, if_neg hafter, prependBytes]
  refine ⟨refDecode_of_length, fun h => ⟨fun hbad => ?char, fun d0 d1 d2 h0 h1 h2 hv => ?value⟩, fun hbad => ?pairChar,
    fun d0 d1 h0 h1 hv => ?pairValue⟩
  case char => exact htriplet h (refTriplet_of_bad_character hbad)
  case value => exact htriplet h (by rw [refTriplet_of_digits h0 h1 h2, if_pos hv])
  case pairChar => rw [hrest, refDecode_of_pair_error (refPair_of_bad_character hbad), prependBytes]
  case pairValue =>
    rw [hrest, refDecode_of_pair_error (by rw [refPair_of_digits h0 h1, if_pos hv]), prependBytes]

section Encoding

theorem length_refEncode (b : List Byte) :
    (refEncode b).length = b.length / 2 * 3 + if b.length % 2 = 1 then 2 else 0 := by
  fun_induction refEncode b with
  | case1 b0 b1 rest d ih =>
    simp only [List.length_cons, ih]
    split <;> split <;> omega
  | case2 b => simp
  | case3 => rfl

theorem exists_alphabetAt_eq (n : Nat) : ∃ i : Digit, alphabetAt i = refAlphabet (n % 45) :=
  ⟨⟨n % 45, Nat.mod_lt n (by decide)⟩, alphabetAt_eq_refAlphabet _⟩

end Encoding

/-- Settles O40: every character is the entry of a remainder modulo 45. -/
theorem encodedTextIsInTheAlphabet : Obligations.EncodedTextIsInTheAlphabet := by
  intro b c hc
  fun_induction refEncode b with
  | case1 b0 b1 rest d ih =>
    simp only [List.mem_cons] at hc
    obtain rfl | rfl | rfl | hc := hc
    · exact exists_alphabetAt_eq _
    · exact exists_alphabetAt_eq _
    · exact exists_alphabetAt_eq _
    · exact ih hc
  | case2 b =>
    simp only [List.mem_cons, List.not_mem_nil, or_false] at hc
    obtain rfl | rfl := hc <;> exact exists_alphabetAt_eq _
  | case3 => cases hc

section Inverse

/-- The digits of a 16-bit value are those of a good triplet (40_encoder.md R101). -/
theorem refTriplet_of_value {v : Nat} (hv : v ≤ 0xFFFF) :
    refTriplet (refAlphabet (v % 45)).toNat (refAlphabet (v / 45 % 45)).toNat (refAlphabet (v / 2025 % 45)).toNat =
      .ok v := by
  have hsum : v % 45 + 45 * (v / 45 % 45) + 2025 * (v / 2025 % 45) = v := by omega
  rw [refTriplet_of_digits (refDigit_refAlphabet (by omega)) (refDigit_refAlphabet (by omega))
    (refDigit_refAlphabet (by omega)), hsum, if_neg (Nat.not_lt.2 hv)]

/-- The digits of a byte are those of a good trailing pair (R102). -/
theorem refPair_of_value {v : Nat} (hv : v ≤ 0xFF) :
    refPair (refAlphabet (v % 45)).toNat (refAlphabet (v / 45 % 45)).toNat = .ok v := by
  have hsum : v % 45 + 45 * (v / 45 % 45) = v := by omega
  rw [refPair_of_digits (refDigit_refAlphabet (by omega)) (refDigit_refAlphabet (by omega)), hsum,
    if_neg (Nat.not_lt.2 hv)]

/-- Encoding the two bytes of a value writes its three digits. -/
theorem refEncode_of_value {v : Nat} (hv : v ≤ 0xFFFF) (rest : List Byte) :
    refEncode (BitVec.ofNat 8 (v / 256) :: BitVec.ofNat 8 (v % 256) :: rest) =
      refAlphabet (v % 45) :: refAlphabet (v / 45 % 45) :: refAlphabet (v / 2025 % 45) :: refEncode rest := by
  have hd : (BitVec.ofNat 8 (v / 256)).toNat * 256 + (BitVec.ofNat 8 (v % 256)).toNat = v := by
    simp only [BitVec.toNat_ofNat]
    omega
  simp only [refEncode, hd]

end Inverse

/-- Settles O43: group by group, the digits' value is the bytes' and the bytes are the value's. -/
theorem decodeOfEncodedBytes : Obligations.DecodeOfEncodedBytes := by
  intro b
  fun_induction refEncode b with
  | case1 b0 b1 rest d ih =>
    have h0 := b0.isLt
    have h1 := b1.isLt
    have hhi : BitVec.ofNat 8 (d / 256) = b0 := BitVec.eq_of_toNat_eq (by rw [BitVec.toNat_ofNat]; omega)
    have hlo : BitVec.ofNat 8 (d % 256) = b1 := BitVec.eq_of_toNat_eq (by rw [BitVec.toNat_ofNat]; omega)
    simp only [List.map_cons]
    rw [refDecode_of_triplet_ok (refTriplet_of_value (by omega)), ih, hhi, hlo, prependBytes]
    rfl
  | case2 b =>
    have hb := b.isLt
    simp only [List.map_cons, List.map_nil]
    rw [refDecode_of_pair_ok (refPair_of_value (by omega)), BitVec.ofNat_toNat, BitVec.setWidth_eq]
  | case3 => rfl

/-- Settles O44: the value of a good group has the group's digits, and each digit its own character. -/
theorem decodableTextIsAnEncoding : Obligations.DecodableTextIsAnEncoding := by
  intro codes b h
  induction codes using refGroups.induct generalizing b with
  | case1 c0 c1 c2 rest v hv ih =>
    rw [refDecode_of_triplet_ok hv, prependBytes_eq_ok_iff] at h
    obtain ⟨b', hb', rfl⟩ := h
    obtain ⟨-, h'⟩ | ⟨d0, d1, d2, h0, h1, h2, ⟨-, h'⟩ | ⟨hle, h'⟩⟩ := refTriplet_cases c0 c1 c2 <;>
      rw [h'] at hv <;> cases hv
    obtain ⟨hd0, rfl⟩ := refAlphabet_of_refDigit h0
    obtain ⟨hd1, rfl⟩ := refAlphabet_of_refDigit h1
    obtain ⟨hd2, rfl⟩ := refAlphabet_of_refDigit h2
    rw [List.cons_append, List.cons_append, List.nil_append, refEncode_of_value hle, ih b' hb',
      show (d0 + 45 * d1 + 2025 * d2) % 45 = d0 by omega, show (d0 + 45 * d1 + 2025 * d2) / 45 % 45 = d1 by omega,
      show (d0 + 45 * d1 + 2025 * d2) / 2025 % 45 = d2 by omega]
    rfl
  | case2 c0 c1 c2 rest k hk =>
    rw [refDecode_of_triplet_error hk] at h
    cases h
  | case3 c0 c1 v hv =>
    obtain rfl := Result.ok.inj ((refDecode_of_pair_ok hv).symm.trans h)
    obtain ⟨-, h'⟩ | ⟨d0, d1, h0, h1, ⟨-, h'⟩ | ⟨hle, h'⟩⟩ := refPair_cases c0 c1 <;> rw [h'] at hv <;> cases hv
    obtain ⟨hd0, rfl⟩ := refAlphabet_of_refDigit h0
    obtain ⟨hd1, rfl⟩ := refAlphabet_of_refDigit h1
    have hval : (BitVec.ofNat 8 (d0 + 45 * d1)).toNat = d0 + 45 * d1 := Nat.mod_eq_of_lt (by omega)
    rw [refEncode, hval, show (d0 + 45 * d1) % 45 = d0 by omega, show (d0 + 45 * d1) / 45 % 45 = d1 by omega]
    rfl
  | case4 c0 c1 k hk => simp [refDecode_of_pair_error hk] at h
  | case5 c => cases h
  | case6 =>
    obtain rfl := Result.ok.inj h
    rfl

/-- `decode` reads a string through its digits alone. -/
theorem refGroups_map {f : Nat → Nat} (hf : ∀ c, refDigit (f c) = refDigit c) (codes : List Nat) :
    refGroups (codes.map f) = refGroups codes := by
  fun_induction refGroups codes with
  | case1 c0 c1 c2 rest v hv ih =>
    have hv' : refTriplet (f c0) (f c1) (f c2) = .ok v := by rw [← hv]; simp only [refTriplet, hf]
    simp only [List.map_cons, refGroups, hv', ih]
  | case2 c0 c1 c2 rest k hk =>
    have hk' : refTriplet (f c0) (f c1) (f c2) = .error k := by rw [← hk]; simp only [refTriplet, hf]
    simp only [List.map_cons, refGroups, hk']
  | case3 c0 c1 v hv =>
    have hv' : refPair (f c0) (f c1) = .ok v := by rw [← hv]; simp only [refPair, hf]
    simp only [List.map_cons, List.map_nil, refGroups, hv']
  | case4 c0 c1 k hk =>
    have hk' : refPair (f c0) (f c1) = .error k := by rw [← hk]; simp only [refPair, hf]
    simp only [List.map_cons, List.map_nil, refGroups, hk']
  | case5 c => rfl
  | case6 => rfl

theorem refDecode_map {f : Nat → Nat} (hf : ∀ c, refDigit (f c) = refDigit c) (codes : List Nat) :
    refDecode (codes.map f) = refDecode codes := by
  rw [refDecode, refDecode, List.length_map, refGroups_map hf]

/-- Settles O59: the narrowing keeps the digit of every code, a wide one having none. -/
theorem wideCodesNarrowWithoutChange : Obligations.WideCodesNarrowWithoutChange := by
  refine ⟨fun f codes hkeep hwide => refDecode_map (fun c => ?_) codes, by decide, by decide, rfl, rfl⟩
  by_cases hc : c < 256
  · rw [hkeep c hc, BitVec.toNat_ofNat, Nat.mod_eq_of_lt hc]
  · rw [refDigit_of_wide (Nat.not_lt.1 hc), ← invAt_eq_refDigit, hwide c (Nat.not_lt.1 hc), Option.map_none]

end Sys2Proof.Machine
end

section
/-! PROOF. Runs of a unit, whichever of the two it is (20_memory.md R55): a unit accepts a beat only when it owes none,
owes its sink what the beat puts out, and delivers what it owes in order. What a run does to such a unit is proved
once, by induction over its cycles. -/

namespace Sys2Proof.Machine

section Cycles

variable {s t : State} {k : Nat}

theorem rst_of_noReset (h : noReset (k + 1) s = true) : (currentCycle s).rst = false := by
  unfold noReset at h
  cases hins : s.inputs with
  | nil => simp [currentCycle, hins, quietCycle]
  | cons c rest =>
    rw [hins, List.take_succ_cons, List.all_cons, Bool.and_eq_true] at h
    simpa [currentCycle, hins] using h.1

theorem noReset_of_step (h : noReset (k + 1) s = true) (ht : step s = .next t) : noReset k t = true := by
  unfold noReset at h ⊢
  rw [inputs_of_step ht]
  cases hins : s.inputs with
  | nil => simp
  | cons c rest =>
    rw [hins, List.take_succ_cons, List.all_cons, Bool.and_eq_true] at h
    exact h.2

/-- How many of the coming cycles a signal is high in, the first apart: a schedule that has ended counts as low. -/
theorem length_filter_take_succ {p : CycleIn → Bool} (hquiet : p quietCycle = false) (ht : step s = .next t) :
    ((s.inputs.take (k + 1)).filter p).length = (p (currentCycle s)).toNat + ((t.inputs.take k).filter p).length := by
  rw [inputs_of_step ht]
  cases hins : s.inputs with
  | nil => simp [currentCycle, hins, hquiet]
  | cons c rest => cases hp : p c <;> simp [currentCycle, hins, hp, Nat.add_comm]

end Cycles

/-- One of the two units as an observer sees it, with what it owes its sink and what it remembers between beats. `moves`
says all that a cycle without reset can do: deliver the first beat owed, nothing, or accept a beat while none is
owed. -/
structure StreamUnit (α β σ : Type) where
  inXfer : State → Option α
  outXfer : State → Option β
  source : CycleIn → Bool
  sink : CycleIn → Bool
  owed : State → List β
  memory : State → σ
  output : σ → α → List β
  after : σ → α → σ
  sink_quiet : sink quietCycle = false
  moves : ∀ {s t : State}, (currentCycle s).rst = false → step s = .next t →
    (∃ b, sink (currentCycle s) = true ∧ outXfer s = some b ∧ inXfer s = none ∧ owed s = b :: owed t ∧
      memory t = memory s) ∨
    ((owed s ≠ [] → sink (currentCycle s) = false) ∧ (owed s = [] → source (currentCycle s) = false) ∧
      outXfer s = none ∧ inXfer s = none ∧ owed t = owed s ∧ memory t = memory s) ∨
    (∃ w, source (currentCycle s) = true ∧ inXfer s = some w ∧ outXfer s = none ∧ owed s = [] ∧
      owed t = output (memory s) w ∧ memory t = after (memory s) w)

namespace StreamUnit

variable {α β σ : Type}

/-- What the beats of a sequence put out, one after the other. -/
def outputs (U : StreamUnit α β σ) : σ → List α → List β
  | _, [] => []
  | m, w :: ws => U.output m w ++ U.outputs (U.after m w) ws

/-- What is remembered after the beats of a sequence. -/
def remembers (U : StreamUnit α β σ) (m : σ) (ws : List α) : σ := ws.foldl U.after m

variable (U : StreamUnit α β σ)

@[simp] theorem outputs_nil (m : σ) : U.outputs m [] = [] := rfl

@[simp] theorem outputs_cons (m : σ) (w : α) (ws : List α) :
    U.outputs m (w :: ws) = U.output m w ++ U.outputs (U.after m w) ws := rfl

@[simp] theorem remembers_nil (m : σ) : U.remembers m [] = m := rfl

@[simp] theorem remembers_cons (m : σ) (w : α) (ws : List α) :
    U.remembers m (w :: ws) = U.remembers (U.after m w) ws := rfl

theorem outputs_append (m : σ) (ws vs : List α) :
    U.outputs m (ws ++ vs) = U.outputs m ws ++ U.outputs (U.remembers m ws) vs := by
  induction ws generalizing m with
  | nil => rfl
  | cons w ws ih => simp [ih]

theorem remembers_append (m : σ) (ws vs : List α) :
    U.remembers m (ws ++ vs) = U.remembers (U.remembers m ws) vs := List.foldl_append

variable {U} {s t : State} {k : Nat}

/-- What was delivered and is still owed is what was owed at the start and what the accepted beats put out. -/
theorem run_conserves (hrst : noReset k s = true) (h : runSteps k s = .next t) :
    collect U.outXfer k s ++ U.owed t = U.owed s ++ U.outputs (U.memory s) (collect U.inXfer k s) ∧
      U.memory t = U.remembers (U.memory s) (collect U.inXfer k s) := by
  induction k generalizing s with
  | zero =>
    obtain rfl : s = t := Host.Outcome.next.inj h
    simp [collect]
  | succ k ih =>
    obtain ⟨u, hu, ht⟩ := runSteps_succ_next h
    obtain ⟨hout, hmem⟩ := ih (noReset_of_step hrst hu) ht
    rw [collect_succ _ _ hu, collect_succ _ _ hu, List.append_assoc, hout, hmem]
    obtain ⟨b, -, ho, hi, howed, hm⟩ | ⟨-, -, ho, hi, howed, hm⟩ | ⟨w, -, hi, ho, howed, howed', hm⟩ :=
      U.moves (rst_of_noReset hrst) hu
    · simp [ho, hi, howed, hm]
    · simp [ho, hi, howed, hm]
    · simp [ho, hi, howed, howed', hm]

/-- A unit that owes nothing at either end has delivered what the accepted beats put out. -/
theorem run_outputs (hrst : noReset k s = true) (h : runSteps k s = .next t) (hs : U.owed s = []) (ht : U.owed t = []) :
    collect U.outXfer k s = U.outputs (U.memory s) (collect U.inXfer k s) := by
  obtain ⟨hout, -⟩ := run_conserves (U := U) hrst h
  simpa [hs, ht] using hout

/-- Two runs with the same accepted beats, from units that owe and remember the same, deliver the same. -/
theorem run_outputs_congr {s' t' : State} {k' : Nat} (hrst : noReset k s = true) (hrst' : noReset k' s' = true)
    (h : runSteps k s = .next t) (h' : runSteps k' s' = .next t') (hmem : U.memory s = U.memory s')
    (howed : U.owed s = U.owed s') (hin : collect U.inXfer k s = collect U.inXfer k' s') (ht : U.owed t = [])
    (ht' : U.owed t' = []) : collect U.outXfer k s = collect U.outXfer k' s' := by
  obtain ⟨hout, -⟩ := run_conserves (U := U) hrst h
  obtain ⟨hout', -⟩ := run_conserves (U := U) hrst' h'
  rw [ht, List.append_nil] at hout
  rw [ht', List.append_nil] at hout'
  rw [hout, hout', hmem, howed, hin]

/-- While its source is quiet, a unit accepts nothing and owes one beat less for each cycle in which its sink is
ready. -/
theorem run_drains (hrst : noReset k s = true) (h : runSteps k s = .next t)
    (hquiet : throughout (fun u => !U.source (currentCycle u)) k s = true) :
    collect U.inXfer k s = [] ∧
      (U.owed t).length = (U.owed s).length - ((s.inputs.take k).filter U.sink).length := by
  induction k generalizing s with
  | zero =>
    obtain rfl : s = t := Host.Outcome.next.inj h
    simp [collect]
  | succ k ih =>
    obtain ⟨u, hu, ht⟩ := runSteps_succ_next h
    rw [throughout_succ _ _ hu, Bool.and_eq_true, Bool.not_eq_true'] at hquiet
    obtain ⟨hsource, hquiet⟩ := hquiet
    obtain ⟨hin, hlen⟩ := ih (noReset_of_step hrst hu) ht hquiet
    rw [collect_succ _ _ hu, hin, hlen, length_filter_take_succ U.sink_quiet hu]
    obtain ⟨b, hsink, -, hi, howed, -⟩ | ⟨hsink, -, -, hi, howed, -⟩ | ⟨w, hsource', -⟩ :=
      U.moves (rst_of_noReset hrst) hu
    · refine ⟨by simp [hi], ?_⟩
      rw [hsink, howed, List.length_cons, Bool.toNat_true]
      omega
    · refine ⟨by simp [hi], ?_⟩
      rw [howed]
      by_cases hnil : U.owed s = []
      · simp [hnil]
      · rw [hsink hnil, Bool.toNat_false, Nat.zero_add]
    · simp [hsource] at hsource'

theorem run_delivers_owed (hrst : noReset k s = true) (h : runSteps k s = .next t)
    (hquiet : throughout (fun u => !U.source (currentCycle u)) k s = true)
    (hle : (U.owed s).length ≤ ((s.inputs.take k).filter U.sink).length) :
    U.owed t = [] ∧ collect U.outXfer k s = U.owed s := by
  obtain ⟨hin, hlen⟩ := run_drains (U := U) hrst h hquiet
  have hnil : U.owed t = [] := List.length_eq_zero_iff.1 (by omega)
  obtain ⟨hout, -⟩ := run_conserves (U := U) hrst h
  refine ⟨hnil, ?_⟩
  simpa [hin, hnil] using hout

/-- An environment that always offers the next beat of `msg` and always takes what is owed, for `k` cycles
(70_reset_and_hazards.md R216). -/
def Eager (U : StreamUnit α β σ) : Nat → List α → State → Prop
  | 0, _, _ => True
  | k + 1, msg, s =>
    U.sink (currentCycle s) = true ∧ (U.owed s = [] → U.inXfer s = msg.head?) ∧
      ∀ t, step s = .next t → U.Eager k (if (U.owed s).isEmpty then msg.tail else msg) t

/-- Each cycle of an eager environment moves one beat: the beats owed, the beats of the message and the beats they put
out are counted down together. -/
theorem eager_completes {msg : List α} (hrst : noReset k s = true) (heager : U.Eager k msg s)
    (hk : k = (U.owed s).length + msg.length + (U.outputs (U.memory s) msg).length) :
    ∃ t, runSteps k s = .next t ∧ U.owed t = [] ∧ collect U.inXfer k s = msg := by
  induction k generalizing s msg with
  | zero =>
    have howed : U.owed s = [] := List.length_eq_zero_iff.1 (by omega)
    have hmsg : msg = [] := List.length_eq_zero_iff.1 (by omega)
    exact ⟨s, rfl, howed, hmsg.symm⟩
  | succ k ih =>
    obtain ⟨hsink, hhead, hnext⟩ := heager
    have hu := step_eq_next s
    replace hnext := hnext _ hu
    rw [collect_succ _ _ hu, runSteps_succ, hu, andThen_of_next]
    obtain ⟨b, -, -, hi, howed, hm⟩ | ⟨hstill, hsource, -, hi, -⟩ | ⟨w, -, hi, -, howed, howed', hm⟩ :=
      U.moves (rst_of_noReset hrst) hu
    · rw [howed, List.isEmpty_cons, if_neg Bool.false_ne_true] at hnext
      rw [howed, List.length_cons] at hk
      obtain ⟨t, ht, hnil, hin⟩ := ih (noReset_of_step hrst hu) hnext (by rw [hm]; omega)
      exact ⟨t, ht, hnil, by rw [hi, hin]; rfl⟩
    · have howed : U.owed s = [] := by_contra fun hne => Bool.false_ne_true ((hstill hne).symm.trans hsink)
      have hmsg : msg = [] := List.head?_eq_none_iff.1 ((hhead howed).symm.trans hi)
      simp [howed, hmsg] at hk
    · obtain ⟨ws, rfl⟩ : ∃ ws, msg = w :: ws := List.head?_eq_some_iff.1 ((hhead howed).symm.trans hi)
      rw [howed, List.isEmpty_nil, if_pos rfl, List.tail_cons] at hnext
      simp only [howed, List.length_nil, List.length_cons, outputs_cons, List.length_append] at hk
      obtain ⟨t, ht, hnil, hin⟩ := ih (noReset_of_step hrst hu) hnext (by rw [howed', hm]; omega)
      exact ⟨t, ht, hnil, by rw [hi, hin]; rfl⟩

end StreamUnit

end Sys2Proof.Machine
end

section
/-! PROOF. The encoder as a unit that owes beats: what each accepted beat puts out, and from it `encode` on the ports
(40_encoder.md R114, R115). -/

namespace Sys2Proof.Machine

section EncoderOwes

variable {s t : State}

theorem encOwed_of_sameEncoder (h : sameEncoder s t) : encOwed t = encOwed s :=
  (congrArg encOwed (encView_eq_iff.2 h)).symm

theorem toNat_radixStep_encCnt (hcnt : s.encCnt ≠ 0#2) : (radixStep s).encCnt.toNat + 1 = s.encCnt.toNat := by
  rw [radixStep_encCnt]
  bv_omega

/-- A radix step delivers the first character owed (R111). -/
theorem encOwed_radixStep (hcnt : s.encCnt ≠ 0#2) :
    encOwed s = mkCharWord false (encOutChar s) :: encOwed (radixStep s) := by
  rw [encOwed, ← toNat_radixStep_encCnt hcnt, groupBeats, ← encOutChar_eq_alphabetAt hcnt]
  rfl

theorem encOwed_end (hcnt : s.encCnt = 0#2) (hendp : s.encEndp = true) :
    encOwed s = mkCharWord true 0#8 :: encOwed (takeEncEnd s) := by
  simp [encOwed, groupBeats, hcnt, hendp]

theorem encOwed_eq_nil_iff : encOwed s = [] ↔ encInReady s = true := by
  refine ⟨fun h => (encInReady_iff s).2 ?_, encOwed_of_encInReady⟩
  by_cases hcnt : s.encCnt = 0#2
  · cases hendp : s.encEndp with
    | true => simp [encOwed_end hcnt hendp] at h
    | false => exact ⟨hcnt, rfl⟩
  · simp [encOwed_radixStep hcnt] at h

theorem encOwed_isEmpty (s : State) : (encOwed s).isEmpty = encInReady s := by
  rw [Bool.eq_iff_iff, List.isEmpty_iff, encOwed_eq_nil_iff]

theorem encOwed_ne_nil (h : encInReady s = false) : encOwed s ≠ [] := fun hnil => by
  rw [encOwed_eq_nil_iff, h] at hnil
  cases hnil

@[simp] theorem encBeatOutput_end (d : BitVec 16) : encBeatOutput (mkEiw 0#2 d) = [mkCharWord true 0#8] := by
  simp [encBeatOutput]

@[simp] theorem encBeatOutput_single (x l : Byte) :
    encBeatOutput (mkEiw 1#2 (joinBytes x l)) = groupBeats (singleValue l) 2 := by
  simp [encBeatOutput]

@[simp] theorem encBeatOutput_pair (h l : Byte) :
    encBeatOutput (mkEiw 2#2 (joinBytes h l)) = groupBeats (pairValue h l) 3 := by
  simp [encBeatOutput]

@[simp] theorem encBeatOutput_rsvd3 (d : BitVec 16) : encBeatOutput (mkEiw 3#2 d) = [] := by
  simp [encBeatOutput]

/-- A ready encoder owes what the accepted beat puts out, whatever came before it (R115). -/
theorem encOwed_encInEffect (hready : encInReady s = true) (w : Eiw) :
    encOwed (encInEffect (decodeEiw w) s) = encBeatOutput w := by
  obtain ⟨d, rfl⟩ | ⟨x, l, rfl⟩ | ⟨h, l, rfl⟩ | ⟨d, rfl⟩ := eiw_cases w
  · rw [decodeEiw_end, encBeatOutput_end]
    exact encOwed_openEncEnd hready
  · rw [decodeEiw_single, encBeatOutput_single]
    exact encOwed_loadGroup hready _ _
  · rw [decodeEiw_pair, encBeatOutput_pair]
    exact encOwed_loadGroup hready _ _
  · rw [decodeEiw_rsvd3, encBeatOutput_rsvd3]
    exact encOwed_of_encInReady hready

end EncoderOwes

/-- The encoder: between beats it remembers nothing. -/
def encoderUnit : StreamUnit Eiw Eow Unit where
  inXfer := encInXfer
  outXfer := encOutXfer
  source := CycleIn.encInValid
  sink := CycleIn.encOutReady
  owed := encOwed
  memory _ := ()
  output _ := encBeatOutput
  after _ _ := ()
  sink_quiet := rfl
  moves hrst h := by
    cases encMove_of_step hrst h with
    | char hcnt hsink hout hin hregs =>
      exact .inl ⟨_, hsink, hout, hin, by rw [encOwed_of_sameEncoder hregs, encOwed_radixStep hcnt], rfl⟩
    | endBeat hcnt hendp hsink hout hin hregs =>
      exact .inl ⟨_, hsink, hout, hin, by rw [encOwed_of_sameEncoder hregs, encOwed_end hcnt hendp], rfl⟩
    | stall hready hsink hout hin hregs =>
      exact .inr (.inl ⟨fun _ => hsink, fun hnil => absurd hnil (encOwed_ne_nil hready), hout, hin,
        encOwed_of_sameEncoder hregs, rfl⟩)
    | wait hready hsource hout hin hregs =>
      exact .inr (.inl ⟨fun hne => absurd (encOwed_of_encInReady hready) hne, fun _ => hsource, hout, hin,
        encOwed_of_sameEncoder hregs, rfl⟩)
    | accept w hready hsource hout hin hregs =>
      exact .inr (.inr ⟨w, hsource, hin, hout, encOwed_of_encInReady hready,
        (encOwed_of_sameEncoder hregs).trans (encOwed_encInEffect hready w), rfl⟩)

theorem encoderUnit_outputs (ws : List Eiw) : encoderUnit.outputs () ws = ws.flatMap encBeatOutput := by
  induction ws with
  | nil => rfl
  | cons w ws ih =>
    rw [StreamUnit.outputs_cons, List.flatMap_cons, ← ih]
    rfl

/-- Settles O48: the encoder conserves what it owes. -/
theorem encoderOutputIsItsInputsInOrder : Obligations.EncoderOutputIsItsInputsInOrder := by
  intro s t k hrst h
  obtain ⟨hout, -⟩ := StreamUnit.run_conserves (U := encoderUnit) hrst h
  rw [← encoderUnit_outputs]
  exact hout

section FramedBuffers

theorem groupBeats_pairValue (h l : Byte) (cs : List Byte) :
    groupBeats (pairValue h l) 3 ++ frameChars cs =
      frameChars (refAlphabet ((h.toNat * 256 + l.toNat) % 45) :: refAlphabet ((h.toNat * 256 + l.toNat) / 45 % 45) ::
        refAlphabet ((h.toNat * 256 + l.toNat) / 2025 % 45) :: cs) := by
  simp [groupBeats_three, frameChars]

/-- What a well-framed message puts out is `encode` of its buffer, then END. -/
theorem flatMap_encBeatOutput_of_unframeBytes {ws : List Eiw} {b : List Byte} (h : unframeBytes ws = some b) :
    ws.flatMap encBeatOutput = frameChars (refEncode b) := by
  induction ws generalizing b with
  | nil => cases h
  | cons w rest ih =>
    obtain ⟨d, rfl⟩ | ⟨x, l, rfl⟩ | ⟨hi, lo, rfl⟩ | ⟨d, rfl⟩ := eiw_cases w
    · simp only [unframeBytes_end, List.isEmpty_iff, Option.ite_none_right_eq_some, Option.some.injEq] at h
      obtain ⟨rfl, rfl⟩ := h
      simp [refEncode, frameChars]
    · obtain ⟨⟨d, rfl⟩, rfl⟩ := unframeBytes_single_eq_some.1 h
      simp [groupBeats_two, refEncode, frameChars]
    · rw [unframeBytes_pair, Option.map_eq_some_iff] at h
      obtain ⟨bs, hbs, rfl⟩ := h
      rw [List.flatMap_cons, ih hbs, encBeatOutput_pair, groupBeats_pairValue, refEncode]
    · simp at h

theorem flatMap_encBeatOutput_frameBytes (b : List Byte) :
    (frameBytes b).flatMap encBeatOutput = frameChars (refEncode b) :=
  flatMap_encBeatOutput_of_unframeBytes (unframeBytes_frameBytes b)

theorem length_frameChars (cs : List Byte) : (frameChars cs).length = cs.length + 1 := by
  induction cs with
  | nil => rfl
  | cons c rest ih => rw [frameChars, List.length_cons, ih, List.length_cons]

theorem length_frameBytes (b : List Byte) : (frameBytes b).length = b.length / 2 + b.length % 2 + 1 := by
  fun_induction frameBytes b with
  | case1 b0 b1 rest ih =>
    simp only [List.length_cons, ih]
    omega
  | case2 b => simp
  | case3 => rfl

end FramedBuffers

section EncoderRuns

variable {s t : State} {k : Nat}

/-- A run between idle encoders delivers what its accepted beats put out. -/
theorem encoder_run_outputs (hrst : noReset k s = true) (h : runSteps k s = .next t) (hs : encInReady s = true)
    (ht : encInReady t = true) : collect encOutXfer k s = (collect encInXfer k s).flatMap encBeatOutput := by
  rw [← encoderUnit_outputs]
  exact StreamUnit.run_outputs (U := encoderUnit) hrst h (encOwed_of_encInReady hs) (encOwed_of_encInReady ht)

theorem encInv_run (hrst : noReset k s = true) (h : runSteps k s = .next t) (hs : encInv s) : encInv t := by
  induction k generalizing s with
  | zero =>
    obtain rfl : s = t := Host.Outcome.next.inj h
    exact hs
  | succ k ih =>
    obtain ⟨u, hu, ht⟩ := runSteps_succ_next h
    exact ih (noReset_of_step hrst hu) ht (encInv_step_of_noReset (rst_of_noReset hrst) hu hs)

end EncoderRuns

/-- Settles O45: the message's output, and the invariant's `enc_q` between groups. -/
theorem encoderRealisesEncode : Obligations.EncoderRealisesEncode := by
  intro s t k b hs hrst h hb ht
  refine ⟨(encoder_run_outputs hrst h hs ht).trans (flatMap_encBeatOutput_of_unframeBytes hb), fun hinv => ?_⟩
  obtain ⟨-, -, -, hzero⟩ := encInv_run hrst h hinv
  obtain ⟨hcnt, -⟩ := (encInReady_iff t).1 ht
  exact hzero hcnt

/-- Settles O39: the lengths of `encode`, and of the message that frames it. -/
theorem encodedLengthLaw : Obligations.EncodedLengthLaw := by
  refine ⟨length_refEncode, fun s t k b hs hrst h hb ht => ?_⟩
  obtain ⟨hout, -⟩ := encoderRealisesEncode s t k b hs hrst h hb ht
  rw [hout, length_frameChars, length_refEncode]

section Groups

/-- The transfer of a group's next character, that of the quotient's lowest digit, leaves the rest of the group. -/
theorem exec_encoChar_loadGroup {q : BitVec 16} {n : BitVec 2} (hn : n ≠ 0#2) (s : State) :
    exec (.encoChar (refAlphabet (q.toNat % 45))) (loadGroup q n s) =
      .next (loadGroup (nextQuotient q) (n - 1#2) s) := by
  have h := exec_encoChar (s := loadGroup q n s) hn
  rw [encOutChar_of_encCnt_ne_zero hn] at h
  exact h

/-- When the characters of a group are counted down and the quotient is used up, the encoder is as before it. -/
theorem loadGroup_eq_idle {q : BitVec 16} {n : BitVec 2} (hq : q.toNat = 0) (hn : n = 0#2) (s : State) :
    loadGroup q n s = { s with encQ := 0#16, encCnt := 0#2 } := by
  obtain rfl : q = 0#16 := BitVec.eq_of_toNat_eq hq
  rw [hn]
  rfl

/-- The base-45 digits of a 16-bit value, and that there are three of them (40_encoder.md R101). -/
theorem digits_of_value {v : Nat} (hv : v ≤ 0xFFFF) :
    v = v % 45 + 45 * (v / 45 % 45) + 2025 * (v / 2025 % 45) ∧ v % 45 ≤ 44 ∧ v / 45 % 45 ≤ 44 ∧ v / 2025 % 45 ≤ 32 ∧
      v / 45 / 45 / 45 = 0 := by
  omega

/-- The base-45 digits of a byte, and that there are two of them (R102). -/
theorem digits_of_byte {v : Nat} (hv : v ≤ 0xFF) :
    v = v % 45 + 45 * (v / 45 % 45) ∧ v % 45 ≤ 44 ∧ v / 45 % 45 ≤ 5 ∧ v / 45 / 45 = 0 := by
  omega

end Groups

/-- Settles O38: three radix steps after a pair and two after a lone byte, each delivering the next digit; their
quotient is then 0. -/
theorem groupsEmitTheirDigitsInOrder : Obligations.GroupsEmitTheirDigitsInOrder := by
  refine ⟨fun s t hi lo hready h => ?pair, fun s t x lo hready h => ?single⟩
  case pair =>
    obtain rfl : loadGroup (pairValue hi lo) 3#2 s = t :=
      Host.Outcome.next.inj ((exec_encIn_of_ready rfl hready).symm.trans h)
    obtain ⟨hsum, h0, h1, h2, hzero⟩ := digits_of_value (Nat.le_of_lt_succ (pairValue hi lo).isLt)
    have hd1 := toNat_nextQuotient (pairValue hi lo)
    have hd2 := toNat_nextQuotient (nextQuotient (pairValue hi lo))
    have hd3 := toNat_nextQuotient (nextQuotient (nextQuotient (pairValue hi lo)))
    rw [hd1] at hd2
    rw [hd2, hzero] at hd3
    rw [Nat.div_div_eq_div_mul] at hd2
    refine ⟨_, _, _, _, _, _, exec_encoChar_loadGroup (by decide) s, exec_encoChar_loadGroup (by decide) s,
      exec_encoChar_loadGroup (by decide) s, rfl, by rw [hd1, loadGroup_encQ], by rw [hd2, loadGroup_encQ],
      toNat_pairValue hi lo, ?_, h0, ?_, ?_, loadGroup_eq_idle hd3 (by decide) s⟩
    · rw [hd1, hd2]
      exact hsum
    · rwa [hd1]
    · rwa [hd2]
  case single =>
    obtain rfl : loadGroup (singleValue lo) 2#2 s = t :=
      Host.Outcome.next.inj ((exec_encIn_of_ready rfl hready).symm.trans h)
    obtain ⟨hsum, h0, h1, hzero⟩ := digits_of_byte (Nat.le_of_lt_succ lo.isLt)
    have hd0 := toNat_singleValue lo
    have hd1 := toNat_nextQuotient (singleValue lo)
    have hd2 := toNat_nextQuotient (nextQuotient (singleValue lo))
    rw [hd0] at hd1
    rw [hd1, hzero] at hd2
    refine ⟨_, _, _, _, exec_encoChar_loadGroup (by decide) s, exec_encoChar_loadGroup (by decide) s, by rw [hd0],
      by rw [hd1], ?_, ?_, ?_, loadGroup_eq_idle hd2 (by decide) s⟩
    · rw [hd0, hd1]
      exact hsum
    · rwa [hd0]
    · rwa [hd1]

section EagerEncoder

variable {s : State} {k : Nat} {msg : List Eiw}

/-- In an eager environment a ready encoder is offered the head of the message. -/
theorem eager_of_eagerEncEnv (hrst : noReset k s = true) (h : eagerEncEnv k msg s = true) :
    encoderUnit.Eager k msg s := by
  induction k generalizing s msg with
  | zero => trivial
  | succ k ih =>
    simp only [eagerEncEnv, step_eq_next, Bool.and_eq_true] at h
    obtain ⟨⟨hsink, hhead⟩, hnext⟩ := h
    refine ⟨hsink, fun hnil => ?_, fun t ht => ?_⟩
    · have hready := encOwed_eq_nil_iff.1 hnil
      rw [if_pos hready] at hhead
      cases msg with
      | nil => exact (encInXfer_eq_none_iff (rst_of_noReset hrst)).2 (.inr (by simpa using hhead))
      | cons w ws =>
        rw [Bool.and_eq_true, decide_eq_true_iff] at hhead
        obtain ⟨hsource, hw⟩ := hhead
        exact encInXfer_eq_some_iff.2 ⟨rst_of_noReset hrst, hready, hsource, hw.symm⟩
    · rw [← eq_stepNext_of_step ht, ← encOwed_isEmpty] at hnext
      exact ih (noReset_of_step hrst ht) hnext

end EagerEncoder

/-- An eager environment moves one beat of a framed buffer or of its encoding in each cycle (R216). -/
theorem encoder_completes {s : State} {b : List Byte} {k : Nat}
    (hk : k = 4 * (b.length / 2) + 3 * (b.length % 2) + 2) (hs : encInReady s = true) (hrst : noReset k s = true)
    (heager : eagerEncEnv k (frameBytes b) s = true) :
    ∃ t, runSteps k s = .next t ∧ encInReady t = true ∧ collect encInXfer k s = frameBytes b ∧
      collect encOutXfer k s = frameChars (refEncode b) := by
  have hout : encoderUnit.outputs () (frameBytes b) = frameChars (refEncode b) :=
    (encoderUnit_outputs _).trans (flatMap_encBeatOutput_frameBytes b)
  have howed : encoderUnit.owed s = [] := encOwed_of_encInReady hs
  have hcount : k = (encoderUnit.owed s).length + (frameBytes b).length +
      (encoderUnit.outputs () (frameBytes b)).length := by
    rw [howed, hout, length_frameBytes, length_frameChars, length_refEncode, hk, List.length_nil]
    split <;> omega
  obtain ⟨t, ht, hnil, hin⟩ := StreamUnit.eager_completes hrst (eager_of_eagerEncEnv hrst heager) hcount
  have hready : encInReady t = true := encOwed_eq_nil_iff.1 hnil
  have hin' : collect encInXfer k s = frameBytes b := hin
  refine ⟨t, ht, hready, hin', ?_⟩
  rw [encoder_run_outputs hrst ht hs hready, hin', flatMap_encBeatOutput_frameBytes]

end Sys2Proof.Machine
end

section
/-! PROOF. The decoder as a unit that owes beats: what it remembers between beats, what a character and an END put out,
group by group, and from it `decode` on the ports (41_decoder.md R147). -/

namespace Sys2Proof.Machine

section DecoderOwes

variable {s t : State}

/-- What the decoder remembers between beats: its registers with nothing pending. -/
def decIdle (s : State) : State := { decView s with decOv := false, decEndp := false }

theorem decIdle_of_ready (hready : decInReady s = true) : decIdle s = decView s := by
  obtain ⟨hov, hendp⟩ := (decInReady_iff s).1 hready
  simp [decIdle, decView, hov, hendp]

theorem decOwed_of_sameDecoder (h : sameDecoder s t) : decOwed t = decOwed s :=
  (congrArg decOwed (decView_eq_iff.2 h)).symm

theorem decIdle_of_sameDecoder (h : sameDecoder s t) : decIdle t = decIdle s :=
  (congrArg decIdle (decView_eq_iff.2 h)).symm

/-- Taking a beat is no part of what is remembered. -/
theorem decIdle_takeData (s : State) : decIdle (takeData s) = decIdle s := rfl

theorem decIdle_takeDecEnd (s : State) : decIdle (takeDecEnd s) = decIdle s := rfl

theorem decOwed_data (hov : s.decOv = true) :
    decOwed s = mkDow 0#2 s.decOop s.decOd :: decOwed (takeData s) := by
  rw [decOwed, if_pos hov]
  rfl

theorem decOwed_end (hov : s.decOv = false) (hendp : s.decEndp = true) :
    decOwed s = mkDow s.decEst 0#2 0#16 :: decOwed (takeDecEnd s) := by
  simp [decOwed, hov, hendp]

theorem decOwed_of_decInReady (hready : decInReady s = true) : decOwed s = [] := by
  obtain ⟨hov, hendp⟩ := (decInReady_iff s).1 hready
  simp [decOwed, hov, hendp]

theorem decOwed_eq_nil_iff : decOwed s = [] ↔ decInReady s = true := by
  refine ⟨fun h => (decInReady_iff s).2 ?_, decOwed_of_decInReady⟩
  cases hov : s.decOv with
  | true => simp [decOwed_data hov] at h
  | false =>
    cases hendp : s.decEndp with
    | true => simp [decOwed_end hov hendp] at h
    | false => exact ⟨rfl, rfl⟩

theorem decOwed_isEmpty (s : State) : (decOwed s).isEmpty = decInReady s := by
  rw [Bool.eq_iff_iff, List.isEmpty_iff, decOwed_eq_nil_iff]

theorem decOwed_ne_nil (h : decInReady s = false) : decOwed s ≠ [] := fun hnil => by
  rw [decOwed_eq_nil_iff, h] at hnil
  cases hnil

/-- What an accepted beat does is determined by what the decoder remembers. -/
theorem decInEffect_decIdle (hready : decInReady s = true) (i : Instr) :
    decInEffect i (decIdle s) = decView (decInEffect i s) := by
  rw [decIdle_of_ready hready, decView_decInEffect]

end DecoderOwes

/-- The decoder: it remembers the group and the error of the message it is receiving. -/
def decoderUnit : StreamUnit Diw Dow State where
  inXfer := decInXfer
  outXfer := decOutXfer
  source := CycleIn.decInValid
  sink := CycleIn.decOutReady
  owed := decOwed
  memory := decIdle
  output m w := decOwed (decInEffect (decodeDiw w) m)
  after m w := decIdle (decInEffect (decodeDiw w) m)
  sink_quiet := rfl
  moves {s t} hrst h := by
    cases decMove_of_step hrst h with
    | data hov hsink hout hin hregs =>
      exact .inl ⟨_, hsink, hout, hin, by rw [decOwed_of_sameDecoder hregs, decOwed_data hov],
        (decIdle_of_sameDecoder hregs).trans (decIdle_takeData s)⟩
    | endBeat hov hendp hsink hout hin hregs =>
      exact .inl ⟨_, hsink, hout, hin, by rw [decOwed_of_sameDecoder hregs, decOwed_end hov hendp],
        (decIdle_of_sameDecoder hregs).trans (decIdle_takeDecEnd s)⟩
    | stall hready hsink hout hin hregs =>
      exact .inr (.inl ⟨fun _ => hsink, fun hnil => absurd hnil (decOwed_ne_nil hready), hout, hin,
        decOwed_of_sameDecoder hregs, decIdle_of_sameDecoder hregs⟩)
    | wait hready hsource hout hin hregs =>
      exact .inr (.inl ⟨fun hne => absurd (decOwed_of_decInReady hready) hne, fun _ => hsource, hout, hin,
        decOwed_of_sameDecoder hregs, decIdle_of_sameDecoder hregs⟩)
    | accept w hready hsource hout hin hregs =>
      refine .inr (.inr ⟨w, hsource, hin, hout, decOwed_of_decInReady hready, ?_, ?_⟩) <;>
        rw [decInEffect_decIdle hready]
      · exact decOwed_of_sameDecoder hregs
      · exact decIdle_of_sameDecoder hregs

/-- Settles O49: each unit delivers what its accepted beats put out, from what it owed and remembered at the start. -/
theorem outputsDoNotDependOnTiming : Obligations.OutputsDoNotDependOnTiming := by
  intro s1 s2 t1 t2 k1 k2 hrst1 hrst2 h1 h2
  refine ⟨fun hs hin ht1 ht2 => ?encoder, fun hs hin ht1 ht2 => ?decoder⟩
  case encoder =>
    exact StreamUnit.run_outputs_congr (U := encoderUnit) hrst1 hrst2 h1 h2 rfl (encOwed_of_sameEncoder hs).symm hin
      (encOwed_of_encInReady ht1) (encOwed_of_encInReady ht2)
  case decoder =>
    exact StreamUnit.run_outputs_congr (U := decoderUnit) hrst1 hrst2 h1 h2 (decIdle_of_sameDecoder hs).symm
      (decOwed_of_sameDecoder hs).symm hin (decOwed_of_decInReady ht1) (decOwed_of_decInReady ht2)

section Bounds

variable {s : State}

theorem length_encOwed_encInEffect (hready : encInReady s = true) (i : Instr) :
    (encOwed (encInEffect i s)).length ≤ 3 := by
  cases i with
  | encPair hi lo => rw [encInEffect, encOwed_loadGroup hready]; exact Nat.le_refl 3
  | encSingle x lo => rw [encInEffect, encOwed_loadGroup hready]; exact Nat.le_succ 2
  | encEnd d => rw [encInEffect, encOwed_openEncEnd hready]; decide
  | _ => simp [encInEffect, encOwed_of_encInReady hready]

theorem length_decOwed_le (s : State) : (decOwed s).length ≤ 2 := by
  cases hov : s.decOv <;> cases hendp : s.decEndp <;> simp [decOwed, hov, hendp]

end Bounds

/-- Settles O57: a unit with a quiet source owes one beat less for each cycle its sink takes one, and an accepted beat
puts out a group of at most 3 characters, or a data beat and an END. -/
theorem unitsDrainWhenTheirSinksTake : Obligations.UnitsDrainWhenTheirSinksTake := by
  refine ⟨fun s t k hrst h => ⟨fun hquiet hle => ?encoder, fun hquiet hle => ?decoder⟩, fun s t i h =>
    ⟨fun hp hready => ?encBound, fun _ _ => length_decOwed_le t⟩⟩
  case encoder =>
    obtain ⟨hnil, hout⟩ := StreamUnit.run_delivers_owed (U := encoderUnit) hrst h hquiet hle
    exact ⟨encOwed_eq_nil_iff.1 hnil, hout⟩
  case decoder =>
    obtain ⟨hnil, hout⟩ := StreamUnit.run_delivers_owed (U := decoderUnit) hrst h hquiet hle
    exact ⟨decOwed_eq_nil_iff.1 hnil, hout⟩
  case encBound =>
    obtain rfl : encInEffect i s = t := Host.Outcome.next.inj ((exec_encIn_of_ready hp hready).symm.trans h)
    exact length_encOwed_encInEffect hready i

end Sys2Proof.Machine
end

section
/-! PROOF. The decoder's messages (41_decoder.md R147): each beat of a string by what the decoder remembers, then group
by group the message of R147 and its result. -/

namespace Sys2Proof.Machine

section Beats

variable {m : State} {c x : Byte} {g a p : Nat} {e : BitVec 2}

/-- The decoder is inside a group at position `p`, with no error and the value `a` so far (10_state.md R15). -/
def DecReads (p : BitVec 2) (a : Nat) (m : State) : Prop :=
  decInReady m = true ∧ m.decErr = 0#2 ∧ m.decPos = p ∧ m.decAcc.toNat = a

/-- The decoder drains a message at position `p`, with the error `e` recorded (R137). -/
def DecDrains (e : BitVec 2) (p : Nat) (m : State) : Prop :=
  decInReady m = true ∧ e ≠ 0#2 ∧ m.decErr = e ∧ m.decPos.toNat = p

theorem output_char (m : State) (c : Byte) :
    decoderUnit.output m (mkCharWord false c) = decOwed (takeChar c m) :=
  congrArg (fun i => decOwed (decInEffect i m)) (decodeDiw_char c)

theorem after_char (m : State) (c : Byte) :
    decoderUnit.after m (mkCharWord false c) = decIdle (takeChar c m) :=
  congrArg (fun i => decIdle (decInEffect i m)) (decodeDiw_char c)

theorem output_end (m : State) (x : Byte) : decoderUnit.output m (mkCharWord true x) = decOwed (endMessage m) :=
  congrArg (fun i => decOwed (decInEffect i m)) (decodeDiw_end x)

theorem after_end (m : State) (x : Byte) : decoderUnit.after m (mkCharWord true x) = decIdle (endMessage m) :=
  congrArg (fun i => decIdle (decInEffect i m)) (decodeDiw_end x)

theorem output_first (hm : decFresh m) (hc : refDigit c.toNat = some g) :
    decoderUnit.output m (mkCharWord false c) = [] ∧ DecReads 1#2 g (decoderUnit.after m (mkCharWord false c)) := by
  obtain ⟨hready, hp, he⟩ := hm
  obtain ⟨d, hd, rfl⟩ := exists_invAt_of_refDigit hc
  rw [output_char, after_char, takeChar_first he hp hd]
  exact ⟨decOwed_of_decInReady hready, rfl, he, rfl, toNat_accOfDigit d⟩

theorem output_second (hm : DecReads 1#2 a m) (ha : a ≤ 44) (hc : refDigit c.toNat = some g) :
    decoderUnit.output m (mkCharWord false c) = [] ∧
      DecReads 2#2 (a + 45 * g) (decoderUnit.after m (mkCharWord false c)) := by
  obtain ⟨hready, he, hp, rfl⟩ := hm
  obtain ⟨d, hd, rfl⟩ := exists_invAt_of_refDigit hc
  rw [output_char, after_char, takeChar_second he hp hd]
  exact ⟨decOwed_of_decInReady hready, rfl, he, rfl, toNat_accAddSecond d ha⟩

theorem output_third (hm : DecReads 2#2 a m) (hc : refDigit c.toNat = some g) (hv : a + 2025 * g ≤ 0xFFFF) :
    decoderUnit.output m (mkCharWord false c) = [mkDow 0#2 2#2 (BitVec.ofNat 16 (a + 2025 * g))] ∧
      decFresh (decoderUnit.after m (mkCharWord false c)) := by
  obtain ⟨hready, he, hp, rfl⟩ := hm
  obtain ⟨-, hendp⟩ := (decInReady_iff m).1 hready
  obtain ⟨d, hd, rfl⟩ := exists_invAt_of_refDigit hc
  rw [output_char, after_char, takeChar_third he hp hd, closeTriplet_of_fits hv]
  refine ⟨?_, rfl, rfl, he⟩
  simp [decOwed, hendp, wordOfValue, oopWord]

theorem output_third_overflows (hm : DecReads 2#2 a m) (hc : refDigit c.toNat = some g) (hv : 0xFFFF < a + 2025 * g) :
    decoderUnit.output m (mkCharWord false c) = [] ∧
      DecDrains (errCode .invalidValue) 0 (decoderUnit.after m (mkCharWord false c)) := by
  obtain ⟨hready, he, hp, rfl⟩ := hm
  obtain ⟨d, hd, rfl⟩ := exists_invAt_of_refDigit hc
  rw [output_char, after_char, takeChar_third he hp hd, closeTriplet_of_overflows hv]
  exact ⟨decOwed_of_decInReady hready, rfl, by decide, rfl, rfl⟩

theorem output_bad_character (hready : decInReady m = true) (he : m.decErr = 0#2) (hc : refDigit c.toNat = none) :
    decoderUnit.output m (mkCharWord false c) = [] ∧
      DecDrains (errCode .invalidCharacter) ((m.decPos.toNat + 1) % 3)
        (decoderUnit.after m (mkCharWord false c)) := by
  rw [output_char, after_char, takeChar_of_invAt_none he (invAt_eq_none_of_refDigit hc)]
  exact ⟨decOwed_of_decInReady hready, rfl, by decide, rfl, toNat_nextPos _⟩

theorem output_drained (hm : DecDrains e p m) (c : Byte) :
    decoderUnit.output m (mkCharWord false c) = [] ∧
      DecDrains e ((p + 1) % 3) (decoderUnit.after m (mkCharWord false c)) := by
  obtain ⟨hready, hne, rfl, rfl⟩ := hm
  rw [output_char, after_char, takeChar_of_decErr hne]
  exact ⟨decOwed_of_decInReady hready, rfl, hne, rfl, toNat_nextPos _⟩

theorem decFresh_after_end (m : State) (x : Byte) : decFresh (decoderUnit.after m (mkCharWord true x)) := by
  rw [after_end]
  exact ⟨rfl, rfl, rfl⟩

/-- Without a good trailing pair an END beat puts out its status alone. -/
theorem output_end_of_not_good (hready : decInReady m = true) (hbad : goodTrailingPair m = false) (x : Byte) :
    decoderUnit.output m (mkCharWord true x) = [mkDow (endStatus m) 0#2 0#16] := by
  obtain ⟨hov, -⟩ := (decInReady_iff m).1 hready
  rw [output_end, endMessage_of_not_good hbad]
  simp [decOwed, hov]

theorem goodTrailingPair_eq_false (h : ¬(m.decErr = 0#2 ∧ m.decPos = 2#2 ∧ m.decAcc.toNat ≤ 0xFF)) :
    goodTrailingPair m = false := by
  rwa [Bool.eq_false_iff, Ne, goodTrailingPair_iff]

theorem output_end_fresh (hm : decFresh m) (x : Byte) :
    decoderUnit.output m (mkCharWord true x) = [mkDow statusOk 0#2 0#16] := by
  obtain ⟨hready, hp, he⟩ := hm
  rw [output_end_of_not_good hready (goodTrailingPair_eq_false (by simp [hp])),
    endStatus_of_no_pair (by simp [hp]) (by simp [hp]) he]
  rfl

theorem output_end_first (hm : DecReads 1#2 a m) (x : Byte) :
    decoderUnit.output m (mkCharWord true x) = [mkDow (errCode .invalidLength) 0#2 0#16] := by
  obtain ⟨hready, -, hp, -⟩ := hm
  rw [output_end_of_not_good hready (goodTrailingPair_eq_false (by simp [hp])), endStatus_of_decPos_one hp]
  rfl

theorem output_end_pair (hm : DecReads 2#2 a m) (ha : a ≤ 0xFF) (x : Byte) :
    decoderUnit.output m (mkCharWord true x) =
      [mkDow 0#2 1#2 (joinBytes 0#8 (BitVec.ofNat 8 a)), mkDow statusOk 0#2 0#16] := by
  obtain ⟨hready, he, hp, rfl⟩ := hm
  have hbyte : byteOfAcc m.decAcc = joinBytes 0#8 (BitVec.ofNat 8 m.decAcc.toNat) := by
    apply BitVec.eq_of_toNat_eq
    rw [toNat_byteOfAcc ha, toNat_joinBytes, BitVec.toNat_ofNat, BitVec.toNat_ofNat]
    omega
  rw [output_end, endMessage_of_good ((goodTrailingPair_iff m).2 ⟨he, hp, ha⟩), hbyte]
  simp [decOwed, oopByte]

theorem output_end_large_pair (hm : DecReads 2#2 a m) (ha : 0xFF < a) (x : Byte) :
    decoderUnit.output m (mkCharWord true x) = [mkDow (errCode .invalidValue) 0#2 0#16] := by
  obtain ⟨hready, he, hp, rfl⟩ := hm
  have hbad := goodTrailingPair_eq_false (m := m) fun ⟨_, _, hle⟩ => absurd ha (Nat.not_lt.2 hle)
  rw [output_end_of_not_good hready hbad, endStatus_of_large_pair hp he ha]
  rfl

theorem output_end_drained (hm : DecDrains e p m) (x : Byte) :
    decoderUnit.output m (mkCharWord true x) =
      [mkDow (if p = 1 then errCode .invalidLength else e) 0#2 0#16] := by
  obtain ⟨hready, hne, rfl, rfl⟩ := hm
  rw [output_end_of_not_good hready (goodTrailingPair_eq_false (by simp [hne]))]
  by_cases hp : m.decPos = 1#2
  · rw [endStatus_of_decPos_one hp, hp]
    rfl
  · have hp' : m.decPos.toNat ≠ 1 := fun h => hp (BitVec.eq_of_toNat_eq h)
    rw [endStatus_of_decErr hp hne, if_neg hp']

end Beats

section ReferenceMessages

variable {c0 c1 c2 v : Nat} {k : ErrorKind} {rest : List Nat}

theorem resultStatus_prependBytes (bs : List Byte) (r : Result) :
    resultStatus (prependBytes bs r) = resultStatus r := by
  cases r <;> rfl

/-- A good triplet in front of a string does not change its trailing pair. -/
theorem trailingBeats_of_triplet_ok (h : refTriplet c0 c1 c2 = .ok v) :
    trailingBeats (c0 :: c1 :: c2 :: rest) = trailingBeats rest := by
  unfold trailingBeats
  rw [refDecode_of_triplet_ok h, length_triplet_mod]
  cases hr : refDecode rest with
  | err k => rfl
  | ok bytes =>
    by_cases htwo : rest.length % 3 = 2
    · obtain ⟨-, hlength⟩ := decodedLengthLaw
      have hbytes := hlength rest bytes hr
      rw [if_pos htwo] at hbytes
      obtain ⟨b, bs, rfl⟩ := List.exists_cons_of_length_pos (show 0 < bytes.length by omega)
      simp [prependBytes, htwo]
    · simp [prependBytes, htwo]

theorem decodeMessage_of_triplet_ok (h : refTriplet c0 c1 c2 = .ok v) :
    decodeMessage (c0 :: c1 :: c2 :: rest) = mkDow 0#2 2#2 (BitVec.ofNat 16 v) :: decodeMessage rest := by
  simp [decodeMessage, refLeadingValues, h, trailingBeats_of_triplet_ok h, refDecode_of_triplet_ok h,
    resultStatus_prependBytes]

theorem decodeMessage_of_triplet_error (h : refTriplet c0 c1 c2 = .error k) :
    decodeMessage (c0 :: c1 :: c2 :: rest) =
      [mkDow (if rest.length % 3 = 1 then errCode .invalidLength else errCode k) 0#2 0#16] := by
  rw [← apply_ite errCode]
  simp [decodeMessage, refLeadingValues, h, trailingBeats, refDecode_of_triplet_error h, resultStatus]

theorem decodeMessage_of_pair_ok (h : refPair c0 c1 = .ok v) :
    decodeMessage [c0, c1] =
      [mkDow 0#2 1#2 (joinBytes 0#8 (BitVec.ofNat 8 v)), mkDow statusOk 0#2 0#16] := by
  simp [decodeMessage, refLeadingValues, trailingBeats, refDecode_of_pair_ok h, resultStatus]

theorem decodeMessage_of_pair_error (h : refPair c0 c1 = .error k) :
    decodeMessage [c0, c1] = [mkDow (errCode k) 0#2 0#16] := by
  simp [decodeMessage, refLeadingValues, trailingBeats, refDecode_of_pair_error h, resultStatus]

theorem decodeMessage_single (c : Nat) : decodeMessage [c] = [mkDow (errCode .invalidLength) 0#2 0#16] := rfl

theorem decodeMessage_nil : decodeMessage [] = [mkDow statusOk 0#2 0#16] := rfl

/-- The END beat of a result, read alone, is that result without its bytes (30_encoding.md R79). -/
theorem readResult_end (st : BitVec 2) : readResult [mkDow st 0#2 0#16] = some (resultOfStatus st) := by
  simp [readResult]

theorem resultOfStatus_errCode (k : ErrorKind) : resultOfStatus (errCode k) = .err k := by
  cases k <;> rfl

theorem readResult_word (hi lo : Byte) (msg : List Dow) :
    readResult (mkDow 0#2 2#2 (joinBytes hi lo) :: msg) = (readResult msg).map (prependBytes [hi, lo]) := by
  simp [readResult]

theorem readResult_byte (b : Byte) :
    readResult [mkDow 0#2 1#2 (joinBytes 0#8 b), mkDow statusOk 0#2 0#16] = some (.ok [b]) := by
  simp only [readResult, decodeDow_byte, List.map_cons, List.map_nil, decodeDow_end]
  rfl

/-- A value is its two bytes side by side (R78). -/
theorem joinBytes_ofNat (v : Nat) (hv : v ≤ 0xFFFF) :
    joinBytes (BitVec.ofNat 8 (v / 256)) (BitVec.ofNat 8 (v % 256)) = BitVec.ofNat 16 v := by
  apply BitVec.eq_of_toNat_eq
  rw [toNat_joinBytes, BitVec.toNat_ofNat, BitVec.toNat_ofNat, BitVec.toNat_ofNat]
  omega

theorem le_of_refTriplet_ok (h : refTriplet c0 c1 c2 = .ok v) : v ≤ 0xFFFF := by
  obtain ⟨-, h'⟩ | ⟨d0, d1, d2, -, -, -, ⟨-, h'⟩ | ⟨hle, h'⟩⟩ := refTriplet_cases c0 c1 c2 <;> rw [h'] at h <;> cases h
  exact hle

/-- The result of the message of a string is that of `decode` (R147). -/
theorem readResult_decodeMessage (codes : List Nat) :
    readResult (decodeMessage codes) = some (refDecode codes) := by
  induction codes using refGroups.induct with
  | case1 c0 c1 c2 rest v hv ih =>
    rw [decodeMessage_of_triplet_ok hv, refDecode_of_triplet_ok hv, ← joinBytes_ofNat v (le_of_refTriplet_ok hv),
      readResult_word, ih, Option.map_some]
  | case2 c0 c1 c2 rest k hk =>
    rw [decodeMessage_of_triplet_error hk, refDecode_of_triplet_error hk, ← apply_ite errCode, readResult_end,
      resultOfStatus_errCode]
  | case3 c0 c1 v hv => rw [decodeMessage_of_pair_ok hv, refDecode_of_pair_ok hv, readResult_byte]
  | case4 c0 c1 k hk =>
    rw [decodeMessage_of_pair_error hk, refDecode_of_pair_error hk, readResult_end, resultOfStatus_errCode]
  | case5 c => rw [decodeMessage_single, refDecode_single, readResult_end, resultOfStatus_errCode]
  | case6 => rw [decodeMessage_nil, refDecode_nil, readResult_end]; rfl

theorem length_decodeMessage_of_ok {codes : List Nat} {bytes : List Byte} (h : refDecode codes = .ok bytes) :
    (decodeMessage codes).length = codes.length / 3 + (if codes.length % 3 = 2 then 1 else 0) + 1 := by
  induction codes using refGroups.induct generalizing bytes with
  | case1 c0 c1 c2 rest v hv ih =>
    rw [refDecode_of_triplet_ok hv, prependBytes_eq_ok_iff] at h
    obtain ⟨b', hb', -⟩ := h
    rw [decodeMessage_of_triplet_ok hv, List.length_cons, ih hb', length_triplet_mod]
    simp only [List.length_cons]
    omega
  | case2 c0 c1 c2 rest k hk =>
    rw [refDecode_of_triplet_error hk] at h
    cases h
  | case3 c0 c1 v hv => simp [decodeMessage_of_pair_ok hv]
  | case4 c0 c1 k hk => simp [refDecode_of_pair_error hk] at h
  | case5 c => cases h
  | case6 => rfl

end ReferenceMessages

section Messages

variable {m : State} {e : BitVec 2} {p : Nat} {c0 c1 c2 : Byte}

/-- The beats of a string: its characters, then an END with the ignored bits `x` (20_memory.md R53). -/
def messageOf (cs : List Byte) (x : Byte) : List Diw := cs.map (mkCharWord false) ++ [mkCharWord true x]

theorem messageOf_cons (c : Byte) (cs : List Byte) (x : Byte) :
    messageOf (c :: cs) x = mkCharWord false c :: messageOf cs x := rfl

theorem messageOf_nil (x : Byte) : messageOf [] x = [mkCharWord true x] := rfl

theorem frameChars_eq_messageOf (cs : List Byte) : frameChars cs = messageOf cs 0#8 := by
  induction cs with
  | nil => rfl
  | cons c rest ih => rw [frameChars, ih, messageOf_cons]

/-- After an END beat nothing of the message is remembered (20_memory.md R57). -/
theorem decFresh_after_messageOf (m : State) (cs : List Byte) (x : Byte) :
    decFresh (decoderUnit.remembers m (messageOf cs x)) := by
  rw [messageOf, StreamUnit.remembers_append]
  exact decFresh_after_end _ x

/-- A character that puts out nothing passes the rest of the message on to what is remembered after it. -/
theorem outputs_of_silent {c : Byte} (h : decoderUnit.output m (mkCharWord false c) = []) (cs : List Byte) (x : Byte) :
    decoderUnit.outputs m (messageOf (c :: cs) x) =
      decoderUnit.outputs (decoderUnit.after m (mkCharWord false c)) (messageOf cs x) := by
  rw [messageOf_cons, StreamUnit.outputs_cons, h, List.nil_append]

/-- A drained message puts out its END alone; its position counts on for the length check. -/
theorem outputs_drained (hm : DecDrains e p m) (hp : p < 3) (cs : List Byte) (x : Byte) :
    decoderUnit.outputs m (messageOf cs x) =
      [mkDow (if (p + cs.length) % 3 = 1 then errCode .invalidLength else e) 0#2 0#16] := by
  induction cs generalizing m p with
  | nil =>
    rw [messageOf_nil, StreamUnit.outputs_cons, output_end_drained hm, List.length_nil, Nat.add_zero,
      Nat.mod_eq_of_lt hp]
    rfl
  | cons c cs ih =>
    obtain ⟨hout, hm'⟩ := output_drained hm c
    have hlen : ((p + 1) % 3 + cs.length) % 3 = (p + (c :: cs).length) % 3 := by
      rw [List.length_cons]
      omega
    rw [outputs_of_silent hout, ih hm' (Nat.mod_lt _ (by decide)), hlen]

/-- From a character outside the alphabet on, at any position, the rest of the message is drained; `r` tells whether its
length is 1 modulo 3. -/
theorem outputs_of_bad_character {c : Byte} {cs : List Byte} {r : Nat} (hready : decInReady m = true)
    (he : m.decErr = 0#2) (hc : refDigit c.toNat = none) (hr : (m.decPos.toNat + 1 + cs.length) % 3 = r) (x : Byte) :
    decoderUnit.outputs m (messageOf (c :: cs) x) =
      [mkDow (if r = 1 then errCode .invalidLength else errCode .invalidCharacter) 0#2 0#16] := by
  obtain ⟨hout, hm'⟩ := output_bad_character hready he hc
  have hlen : ((m.decPos.toNat + 1) % 3 + cs.length) % 3 = r := by omega
  rw [outputs_of_silent hout, outputs_drained hm' (Nat.mod_lt _ (by decide)), hlen]

/-- A good triplet puts out its value as a WORD and leaves the decoder as between messages. -/
theorem outputs_of_triplet_ok {v : Nat} (hm : decFresh m) (h : refTriplet c0.toNat c1.toNat c2.toNat = .ok v) :
    ∃ m', decFresh m' ∧ ∀ cs x, decoderUnit.outputs m (messageOf (c0 :: c1 :: c2 :: cs) x) =
      mkDow 0#2 2#2 (BitVec.ofNat 16 v) :: decoderUnit.outputs m' (messageOf cs x) := by
  obtain ⟨-, h'⟩ | ⟨d0, d1, d2, h0, h1, h2, ⟨-, h'⟩ | ⟨hle, h'⟩⟩ := refTriplet_cases c0.toNat c1.toNat c2.toNat <;>
    rw [h'] at h <;> cases h
  obtain ⟨hd0, -⟩ := refAlphabet_of_refDigit h0
  obtain ⟨hout0, hm0⟩ := output_first hm h0
  obtain ⟨hout1, hm1⟩ := output_second hm0 (by omega) h1
  obtain ⟨hout2, hm2⟩ := output_third hm1 h2 hle
  refine ⟨_, hm2, fun cs x => ?_⟩
  rw [outputs_of_silent hout0, outputs_of_silent hout1, messageOf_cons, StreamUnit.outputs_cons, hout2]
  rfl

/-- A bad triplet puts out nothing, and the rest of the message is drained with its error. -/
theorem outputs_of_triplet_error {k : ErrorKind} (hm : decFresh m)
    (h : refTriplet c0.toNat c1.toNat c2.toNat = .error k) (cs : List Byte) (x : Byte) :
    decoderUnit.outputs m (messageOf (c0 :: c1 :: c2 :: cs) x) =
      [mkDow (if cs.length % 3 = 1 then errCode .invalidLength else errCode k) 0#2 0#16] := by
  have ⟨hready, hp, he⟩ := hm
  cases h0 : refDigit c0.toNat with
  | none =>
    obtain rfl : .invalidCharacter = k := Except.error.inj ((refTriplet_of_bad_character (.inl h0)).symm.trans h)
    exact outputs_of_bad_character hready he h0 (by rw [hp]; simp only [List.length_cons, BitVec.toNat_ofNat]; omega) x
  | some d0 =>
    obtain ⟨hd0, -⟩ := refAlphabet_of_refDigit h0
    obtain ⟨hout0, hm0⟩ := output_first hm h0
    rw [outputs_of_silent hout0]
    cases h1 : refDigit c1.toNat with
    | none =>
      obtain rfl : .invalidCharacter = k :=
        Except.error.inj ((refTriplet_of_bad_character (.inr (.inl h1))).symm.trans h)
      obtain ⟨hready0, he0, hp0, -⟩ := hm0
      exact outputs_of_bad_character hready0 he0 h1
        (by rw [hp0]; simp only [List.length_cons, BitVec.toNat_ofNat]; omega) x
    | some d1 =>
      obtain ⟨hout1, hm1⟩ := output_second hm0 (by omega) h1
      rw [outputs_of_silent hout1]
      cases h2 : refDigit c2.toNat with
      | none =>
        obtain rfl : .invalidCharacter = k :=
          Except.error.inj ((refTriplet_of_bad_character (.inr (.inr h2))).symm.trans h)
        obtain ⟨hready1, he1, hp1, -⟩ := hm1
        exact outputs_of_bad_character hready1 he1 h2 (by rw [hp1, BitVec.toNat_ofNat]; omega) x
      | some d2 =>
        rw [refTriplet_of_digits h0 h1 h2] at h
        split at h
        · next hover =>
          obtain rfl : .invalidValue = k := Except.error.inj h
          obtain ⟨hout2, hm2⟩ := output_third_overflows hm1 h2 hover
          rw [outputs_of_silent hout2, outputs_drained hm2 (by decide), Nat.zero_add]
        · cases h

/-- A trailing pair puts out its BYTE and END OK, or END with its error. -/
theorem outputs_of_pair (hm : decFresh m) (c0 c1 x : Byte) :
    decoderUnit.outputs m (messageOf [c0, c1] x) = decodeMessage [c0.toNat, c1.toNat] := by
  have ⟨hready, hp, he⟩ := hm
  cases h0 : refDigit c0.toNat with
  | none =>
    rw [decodeMessage_of_pair_error (refPair_of_bad_character (.inl h0))]
    exact outputs_of_bad_character hready he h0 (r := 2) (by rw [hp]; rfl) x
  | some d0 =>
    obtain ⟨hd0, -⟩ := refAlphabet_of_refDigit h0
    obtain ⟨hout0, hm0⟩ := output_first hm h0
    rw [outputs_of_silent hout0]
    cases h1 : refDigit c1.toNat with
    | none =>
      rw [decodeMessage_of_pair_error (refPair_of_bad_character (.inr h1))]
      obtain ⟨hready0, he0, hp0, -⟩ := hm0
      exact outputs_of_bad_character hready0 he0 h1 (r := 2) (by rw [hp0]; rfl) x
    | some d1 =>
      obtain ⟨hout1, hm1⟩ := output_second hm0 (by omega) h1
      have hpair := refPair_of_digits h0 h1
      rw [outputs_of_silent hout1, messageOf_nil, StreamUnit.outputs_cons, StreamUnit.outputs_nil, List.append_nil]
      split at hpair
      · next hover => rw [output_end_large_pair hm1 hover, decodeMessage_of_pair_error hpair]
      · next hfits => rw [output_end_pair hm1 (Nat.not_lt.1 hfits), decodeMessage_of_pair_ok hpair]

/-- A lone character is a digit or not; its message has the wrong length in both cases. -/
theorem outputs_of_single (hm : decFresh m) (c x : Byte) :
    decoderUnit.outputs m (messageOf [c] x) = decodeMessage [c.toNat] := by
  have ⟨hready, hp, he⟩ := hm
  rw [decodeMessage_single]
  cases hc : refDigit c.toNat with
  | none => exact outputs_of_bad_character hready he hc (r := 1) (by rw [hp]; rfl) x
  | some d =>
    obtain ⟨hout, hm'⟩ := output_first hm hc
    rw [outputs_of_silent hout, messageOf_nil, StreamUnit.outputs_cons, output_end_first hm']
    rfl

/-- The message of a string, by the groups of `decode` (R147). -/
theorem outputs_messageOf {m : State} (hm : decFresh m) (cs : List Byte) (x : Byte) :
    decoderUnit.outputs m (messageOf cs x) = decodeMessage (cs.map BitVec.toNat) :=
  match cs with
  | [] => by
    rw [messageOf_nil, StreamUnit.outputs_cons, output_end_fresh hm]
    rfl
  | [c] => outputs_of_single hm c x
  | [c0, c1] => outputs_of_pair hm c0 c1 x
  | c0 :: c1 :: c2 :: rest => by
    simp only [List.map_cons]
    cases h : refTriplet c0.toNat c1.toNat c2.toNat with
    | error k => rw [outputs_of_triplet_error hm h, decodeMessage_of_triplet_error h, List.length_map]
    | ok v =>
      obtain ⟨m', hm', hout⟩ := outputs_of_triplet_ok hm h
      rw [hout, outputs_messageOf hm' rest x, decodeMessage_of_triplet_ok h]

theorem outputs_messages (hm : decFresh m) (msgs : List (List Byte)) :
    decoderUnit.outputs m (msgs.flatMap frameChars) = msgs.flatMap fun cs => decodeMessage (cs.map BitVec.toNat) := by
  induction msgs generalizing m with
  | nil => rfl
  | cons cs msgs ih =>
    rw [List.flatMap_cons, List.flatMap_cons, frameChars_eq_messageOf, StreamUnit.outputs_append,
      outputs_messageOf hm, ih (decFresh_after_messageOf m cs 0#8)]

end Messages

section DecoderRuns

variable {s t : State} {k : Nat}

theorem decFresh_decIdle (hs : decFresh s) : decFresh (decIdle s) := by
  obtain ⟨-, hp, he⟩ := hs
  exact ⟨rfl, hp, he⟩

theorem decFresh_of_decIdle (hready : decInReady s = true) (hs : decFresh (decIdle s)) : decFresh s := by
  obtain ⟨-, hp, he⟩ := hs
  exact ⟨hready, hp, he⟩

/-- A run between ready decoders delivers what its accepted beats put out. -/
theorem decoder_run_outputs (hrst : noReset k s = true) (h : runSteps k s = .next t) (hs : decInReady s = true)
    (ht : decInReady t = true) :
    collect decOutXfer k s = decoderUnit.outputs (decIdle s) (collect decInXfer k s) :=
  StreamUnit.run_outputs (U := decoderUnit) hrst h (decOwed_of_decInReady hs) (decOwed_of_decInReady ht)

theorem decIdle_run (hrst : noReset k s = true) (h : runSteps k s = .next t) :
    decIdle t = decoderUnit.remembers (decIdle s) (collect decInXfer k s) := by
  obtain ⟨-, hmem⟩ := StreamUnit.run_conserves (U := decoderUnit) hrst h
  exact hmem

/-- One message in a run: what comes out, and that nothing of it is left. -/
theorem decoder_run_message {cs : List Byte} {x : Byte} (hrst : noReset k s = true) (h : runSteps k s = .next t)
    (hs : decFresh s) (ht : decInReady t = true) (hin : collect decInXfer k s = messageOf cs x) :
    collect decOutXfer k s = decodeMessage (cs.map BitVec.toNat) ∧ decFresh t := by
  have ⟨hready, _, _⟩ := hs
  refine ⟨?_, decFresh_of_decIdle ht ?_⟩
  · rw [decoder_run_outputs hrst h hready ht, hin, outputs_messageOf (decFresh_decIdle hs)]
  · rw [decIdle_run hrst h, hin]
    exact decFresh_after_messageOf _ cs x

end DecoderRuns

/-- Settles O46: the beats of a framed string put out the message of the string, whose result is that of `decode`. -/
theorem decoderRealisesDecode : Obligations.DecoderRealisesDecode := by
  intro s t k codes hs hrst h hcodes ht
  obtain ⟨x, hin⟩ := eq_chars_end_of_unframeChars hcodes
  obtain ⟨hout, hfresh⟩ := decoder_run_message (cs := codes) (x := x) hrst h hs ht hin
  refine ⟨hout, ?_, hfresh⟩
  rw [hout, readResult_decodeMessage]

/-- Settles O50: message by message, each unit being between messages after each. -/
theorem messagesAreMatchedInOrder : Obligations.MessagesAreMatchedInOrder := by
  refine fun s t k msgs hrst h => ⟨fun hs ht hin => ?encoder, fun hs ht hin => ?decoder⟩
  case encoder =>
    rw [encoder_run_outputs hrst h hs ht, hin, List.flatMap_assoc]
    simp only [flatMap_encBeatOutput_frameBytes]
  case decoder =>
    have ⟨hready, _, _⟩ := hs
    rw [decoder_run_outputs hrst h hready ht, hin, outputs_messages (decFresh_decIdle hs)]

section Loopback

variable {s t : State} {k : Nat}

/-- A wired cycle transfers the same beat on `enc_out` and on `dec_in` (log 17). -/
theorem decInXfer_of_loopback (h : loopbackNow s = true) : decInXfer s = encOutXfer s := by
  simp only [loopbackNow, Bool.and_eq_true, beq_iff_eq] at h
  obtain ⟨⟨⟨hvalid, hend⟩, hchar⟩, hready⟩ := h
  rw [decInXfer, encOutXfer, decInWord, encOutWord, hvalid, hend, hchar, hready, Bool.and_assoc, Bool.and_assoc,
    Bool.and_comm (encOutValid s)]

theorem collect_decIn_of_loopback (hwired : throughout loopbackNow k s = true) :
    collect decInXfer k s = collect encOutXfer k s := by
  induction k generalizing s with
  | zero => rfl
  | succ k ih =>
    have hu := step_eq_next s
    rw [throughout_succ _ _ hu, Bool.and_eq_true] at hwired
    obtain ⟨hnow, hlater⟩ := hwired
    rw [collect_succ _ _ hu, collect_succ _ _ hu, decInXfer_of_loopback hnow, ih hlater]

/-- The `dec_out` word of a data beat or END OK has the fields of the `enc_in` word (30_encoding.md R70). -/
theorem mkDow_zero_eq_setWidth (op : BitVec 2) (d : BitVec 16) : mkDow 0#2 op d = (mkEiw op d).setWidth 20 := by
  have hop := op.isLt
  have hd := d.isLt
  apply BitVec.eq_of_toNat_eq
  rw [toNat_mkDow, BitVec.toNat_setWidth, toNat_mkEiw, BitVec.toNat_ofNat]
  omega

/-- The message of an encoded buffer is the buffer's own framing. -/
theorem decodeMessage_refEncode (b : List Byte) :
    decodeMessage ((refEncode b).map BitVec.toNat) = (frameBytes b).map fun w => w.setWidth 20 := by
  fun_induction refEncode b with
  | case1 b0 b1 rest d ih =>
    have h0 := b0.isLt
    have h1 := b1.isLt
    have hd : BitVec.ofNat 16 d = joinBytes b0 b1 := by
      apply BitVec.eq_of_toNat_eq
      rw [BitVec.toNat_ofNat, toNat_joinBytes]
      omega
    simp only [List.map_cons, frameBytes]
    rw [decodeMessage_of_triplet_ok (refTriplet_of_value (by omega)), ih, hd, mkDow_zero_eq_setWidth]
  | case2 b =>
    have hb := b.isLt
    simp only [List.map_cons, List.map_nil, frameBytes]
    rw [decodeMessage_of_pair_ok (refPair_of_value (by omega)), BitVec.ofNat_toNat, BitVec.setWidth_eq,
      mkDow_zero_eq_setWidth, statusOk, mkDow_zero_eq_setWidth]
  | case3 => rfl

end Loopback

/-- Settles O47: the encoder's beats are the framed string of `encode`, and the decoder's message of that string is the
buffer's framing again. -/
theorem loopbackReturnsTheBytes : Obligations.LoopbackReturnsTheBytes := by
  intro s t k b hs hs' hrst hwired h hb ht ht'
  obtain ⟨henc, -⟩ := encoderRealisesEncode s t k b hs hrst h hb ht
  have hin : collect decInXfer k s = messageOf (refEncode b) 0#8 := by
    rw [collect_decIn_of_loopback hwired, henc, frameChars_eq_messageOf]
  obtain ⟨hout, -⟩ := decoder_run_message hrst h hs' ht' hin
  refine ⟨by rw [hout, decodeMessage_refEncode], ?_, by rw [hout, readResult_decodeMessage, decodeOfEncodedBytes]⟩
  rw [hout, decodeMessage_refEncode, ← map_clearIgnored_of_unframeBytes hb, List.map_map]
  rfl

section EagerDecoder

variable {s : State} {k : Nat} {msg : List Diw}

/-- In an eager environment a ready decoder is offered the head of the message. -/
theorem eager_of_eagerDecEnv (hrst : noReset k s = true) (h : eagerDecEnv k msg s = true) :
    decoderUnit.Eager k msg s := by
  induction k generalizing s msg with
  | zero => trivial
  | succ k ih =>
    simp only [eagerDecEnv, step_eq_next, Bool.and_eq_true] at h
    obtain ⟨⟨hsink, hhead⟩, hnext⟩ := h
    refine ⟨hsink, fun hnil => ?_, fun t ht => ?_⟩
    · have hready := decOwed_eq_nil_iff.1 hnil
      rw [if_pos hready] at hhead
      cases msg with
      | nil => exact (decInXfer_eq_none_iff (rst_of_noReset hrst)).2 (.inr (by simpa using hhead))
      | cons w ws =>
        rw [Bool.and_eq_true, decide_eq_true_iff] at hhead
        obtain ⟨hsource, hw⟩ := hhead
        exact decInXfer_eq_some_iff.2 ⟨rst_of_noReset hrst, hready, hsource, hw.symm⟩
    · rw [← eq_stepNext_of_step ht, ← decOwed_isEmpty] at hnext
      exact ih (noReset_of_step hrst ht) hnext

end EagerDecoder

/-- An eager environment moves one beat of a framed string or of its message in each cycle (R216). -/
theorem decoder_completes {s : State} {codes bytes : List Byte} {k : Nat}
    (hbytes : refDecode (codes.map BitVec.toNat) = .ok bytes)
    (hk : k = codes.length + codes.length / 3 + 2 + (if codes.length % 3 = 2 then 1 else 0)) (hs : decFresh s)
    (hrst : noReset k s = true) (heager : eagerDecEnv k (frameChars codes) s = true) :
    ∃ t, runSteps k s = .next t ∧ decFresh t ∧ collect decInXfer k s = frameChars codes ∧
      readResult (collect decOutXfer k s) = some (.ok bytes) := by
  have ⟨hready, _, _⟩ := hs
  have howed : decoderUnit.owed s = [] := decOwed_of_decInReady hready
  have hout : decoderUnit.outputs (decoderUnit.memory s) (frameChars codes) =
      decodeMessage (codes.map BitVec.toNat) := by
    rw [frameChars_eq_messageOf]
    exact outputs_messageOf (decFresh_decIdle hs) codes 0#8
  have hcount : k = (decoderUnit.owed s).length + (frameChars codes).length +
      (decoderUnit.outputs (decoderUnit.memory s) (frameChars codes)).length := by
    rw [howed, hout, length_frameChars, length_decodeMessage_of_ok hbytes, List.length_map, List.length_nil, hk]
    omega
  obtain ⟨t, ht, hnil, hin⟩ := StreamUnit.eager_completes hrst (eager_of_eagerDecEnv hrst heager) hcount
  have hin' : collect decInXfer k s = messageOf codes 0#8 := hin.trans (frameChars_eq_messageOf codes)
  obtain ⟨hmsg, hfresh⟩ := decoder_run_message hrst ht hs (decOwed_eq_nil_iff.1 hnil) hin'
  exact ⟨t, ht, hfresh, hin, by rw [hmsg, readResult_decodeMessage, hbytes]⟩

/-- Settles O58: both units complete a message with one beat moved in each cycle. -/
theorem messagesCompleteInTheStatedCycles : Obligations.MessagesCompleteInTheStatedCycles :=
  ⟨fun _ _ _ hk hs hrst heager => encoder_completes hk hs hrst heager,
    fun _ _ _ _ hbytes hk hs hrst heager => decoder_completes hbytes hk hs hrst heager⟩

end Sys2Proof.Machine
end
